-- ==== Sys2Proof/Word.lean ====
section
/-! DEFINITION. The quantities of the RBC. R11: "Every quantity in the RBC is an unsigned natural number or a bit vector
read as one". Elements (`DW` bits), timeouts (`TOW` bits), times, indices and port numbers have widths that are parameters
of the instance; they are naturals, their widths bounds that an invariant keeps (log 4). The fields of fixed width are the
3-bit `op` and the codes of R31, R32, R96 and R241, which are bit vectors. -/

namespace Sys2Proof

/-- The operation code of a command (R92): bit 0 `DIR`, bit 1 `TIMED`, bit 2 `RSV`. -/
abbrev Op := BitVec 3

/-- Port number of the SPSC producer port P (R91). -/
abbrev portP : Nat := 0

/-- Port number of the SPSC consumer port C (R91). -/
abbrev portC : Nat := 1

end Sys2Proof
end

