-- ==== Sys2Proof/Config.lean ====
section
/-! DEFINITION. The parameters of an instance (R8), which are "fixed before reset is released and never changed", and the
free values: what the spec leaves open and no rule may depend on. -/

namespace Sys2Proof

/-- Which controller an instance is (R2). -/
inductive Variant where
  | spsc
  | mpmc
  deriving DecidableEq, Repr

/-- The parameter table of R8. -/
structure Config where
  variant : Variant
  /-- `CAPACITY`, number of slots. -/
  capacity : Nat
  /-- `DW`, element width in bits. -/
  dw : Nat
  /-- `TOW`, width of the timeout operand. -/
  tow : Nat
  /-- `TW`, width of the time base in hardware. -/
  tw : Nat
  /-- `NPORTS`, ports of an MPMC instance. -/
  nports : Nat
  /-- `LEGACY_DEQ_BUDGET` (R221). -/
  legacyDeqBudget : Bool
  /-- `SPURIOUS_WAKE` (R163). -/
  spuriousWake : Bool
  deriving DecidableEq, Repr

/-- What R282 asks of the parameters before reset is released. `CAPACITY = 0` is no legal configuration (R283). -/
abbrev Config.Legal (c : Config) : Prop :=
  1 ≤ c.capacity ∧ 1 ≤ c.dw ∧ 1 ≤ c.tow ∧ c.tow < c.tw ∧ 1 ≤ c.nports

/-- The number of request ports: "an SPSC instance always has exactly two ports, P and C" (R8, R256). -/
def Config.numPorts (c : Config) : Nat :=
  match c.variant with
  | .spsc => 2
  | .mpmc => c.nports

/-- `ceil(log2 n)` (R8). -/
def ceilLog2 (n : Nat) : Nat := if n ≤ 1 then 0 else Nat.log2 (n - 1) + 1

/-- `IW`, width of `wi` and `ri` (R8). -/
def Config.iw (c : Config) : Nat := max 1 (ceilLog2 c.capacity)

/-- `SW`, width of `size` (R8). -/
def Config.sw (c : Config) : Nat := ceilLog2 (c.capacity + 1)

/-- `PW`, width of a port identifier (R8). -/
def Config.pw (c : Config) : Nat := max 1 (ceilLog2 c.nports)

/-- Width of the packed command word: `3 + DW + TOW` bits (R95). -/
def Config.commandWidth (c : Config) : Nat := 3 + c.dw + c.tow

/-- Width of the packed response word: `4 + DW` bits (R95). -/
def Config.responseWidth (c : Config) : Nat := 4 + c.dw

/-- The instance `State.reset` is about: the spec's defaults (R8), and, where R8 gives none, MPMC with the capacity 5 of
the source's first scenario (S1). DESIGN CHOICE (log 3), unsafe: statements are made for every `Config`, not this one. -/
def Config.default : Config :=
  { variant := .mpmc, capacity := 5, dw := 32, tow := 32, tw := 64, nports := 4,
    legacyDeqBudget := false, spuriousWake := true }

/-- What a turn at a port is. `issue` and `accept` are moves of `HOST(p)` (R10), `move` of `PORT(p)`. -/
inductive Act where
  /-- The host presents the command word `cw` (`cmd_valid`, R91). -/
  | issue (cw : Nat)
  /-- The host is ready for the response (`rsp_ready`, R91). -/
  | accept
  /-- The port takes a step of its command. `alt` picks the second of the two steps a state may offer (`LOCK_TIMED`
  expire, R154; `WAKE_SPURIOUS`, R163); `wake` is the `wake_choice` of a signal (R9, R161). -/
  | move (alt : Bool) (wake : Nat)
  deriving DecidableEq, Repr, Inhabited

/-- What happens next: a turn of one of the agents of R10. -/
inductive Event where
  | turn (p : Nat) (a : Act)
  /-- Agent `TICK` (R165). -/
  | tick
  /-- Agent `RESET` (R280). -/
  | reset
  deriving DecidableEq, Repr, Inhabited

/-- FREE VALUE (log 1): the schedule where no script prescribes it, "which enabled agent takes the next step" (R9). -/
opaque Config.freeEvent : Nat → Event

/-- FREE VALUE (log 7): `any(N)`, "an unspecified N-bit value: a model draws it freely and no rule may depend on it"
(R13); used for the data of a response that carries no element (R97). -/
opaque Config.anyData : Nat → Nat

end Sys2Proof
end

