-- ==== Sys2Proof/Syntax.lean ====
section
/-! DEFINITION. The commands: one constructor per row of spec/opcode_table.json (R92, R98). Every command carries the three
fields of R90; fields a command ignores are kept, since any value may stand there (R100). -/

namespace Sys2Proof

/-- `DIR`, `op[0]` (R92): enqueue (data flows in) or dequeue (data flows out). -/
inductive Dir where
  | enq
  | deq
  deriving DecidableEq, Repr

/-- A command as the instance and port it is presented to read it (R98). -/
inductive Instr where
  /-- `SPSC.ENQ`, port P (R121). -/
  | spscEnq (data : Nat) (timeout : Nat)
  /-- `SPSC.DEQ`, port C (R122). -/
  | spscDeq (data : Nat) (timeout : Nat)
  /-- `MPMC.ENQ`, any port (R191). -/
  | mpmcEnq (data : Nat) (timeout : Nat)
  /-- `MPMC.DEQ`, any port (R192). -/
  | mpmcDeq (data : Nat) (timeout : Nat)
  /-- `MPMC.ENQT`, any port (R211). -/
  | mpmcEnqt (data : Nat) (timeout : Nat)
  /-- `MPMC.DEQT`, any port (R212). -/
  | mpmcDeqt (data : Nat) (timeout : Nat)
  /-- `RESERVED.OP4_7`: `op[2] = 1`, the two low bits free (R99). -/
  | reserved (low : BitVec 2) (data : Nat) (timeout : Nat)
  /-- `SPSC.ILLEGAL.TIMED`: ENQT or DEQT on an SPSC instance (R99). -/
  | spscIllegalTimed (dir : Dir) (data : Nat) (timeout : Nat)
  /-- `SPSC.ILLEGAL.DEQ_ON_P`: DEQ on the producer port (R99). -/
  | spscIllegalDeqOnP (data : Nat) (timeout : Nat)
  /-- `SPSC.ILLEGAL.ENQ_ON_C`: ENQ on the consumer port (R99). -/
  | spscIllegalEnqOnC (data : Nat) (timeout : Nat)
  deriving DecidableEq, Repr

/-- The `data` field. -/
def Instr.data : Instr → Nat
  | .spscEnq d _ => d
  | .spscDeq d _ => d
  | .mpmcEnq d _ => d
  | .mpmcDeq d _ => d
  | .mpmcEnqt d _ => d
  | .mpmcDeqt d _ => d
  | .reserved _ d _ => d
  | .spscIllegalTimed _ d _ => d
  | .spscIllegalDeqOnP d _ => d
  | .spscIllegalEnqOnC d _ => d

/-- The `timeout` field. -/
def Instr.timeout : Instr → Nat
  | .spscEnq _ t => t
  | .spscDeq _ t => t
  | .mpmcEnq _ t => t
  | .mpmcDeq _ t => t
  | .mpmcEnqt _ t => t
  | .mpmcDeqt _ t => t
  | .reserved _ _ t => t
  | .spscIllegalTimed _ _ t => t
  | .spscIllegalDeqOnP _ t => t
  | .spscIllegalEnqOnC _ t => t

end Sys2Proof
end

