-- ==== Sys2Proof/WellFormed.lean ====
section
/-! DEFINITION. When a command is well formed for an instance and a port: its fields fit their widths (R93, R94) and its
row of the opcode map is one that this variant and port read (R98). -/

namespace Sys2Proof

/-- The columns `variant` and `ports` of spec/opcode_table.json (R98). -/
def Instr.readAt (v : Variant) (p : Nat) : Instr → Bool
  | .spscEnq _ _ => v == .spsc && p == portP
  | .spscDeq _ _ => v == .spsc && p == portC
  | .mpmcEnq _ _ => v == .mpmc
  | .mpmcDeq _ _ => v == .mpmc
  | .mpmcEnqt _ _ => v == .mpmc
  | .mpmcDeqt _ _ => v == .mpmc
  | .reserved _ _ _ => true
  | .spscIllegalTimed _ _ _ => v == .spsc
  | .spscIllegalDeqOnP _ _ => v == .spsc && p == portP
  | .spscIllegalEnqOnC _ _ => v == .spsc && p == portC

/-- A command well formed for the instance `c` and its port `p`. -/
def Instr.wellFormed (c : Config) (p : Nat) (i : Instr) : Bool :=
  decide (p < c.numPorts) && decide (i.data < 2 ^ c.dw) && decide (i.timeout < 2 ^ c.tow) &&
    i.readAt c.variant p

end Sys2Proof
end

