-- ==== Sys2Proof/Decode.lean ====
section
/-! DEFINITION. The decoder (R92, R95, R98, R101) and, after it, the encoder, both over the packed command word
`CW = (timeout, data, op)`: `CW[2:0] = op`, `CW[DW+2:3] = data`, `CW[DW+TOW+2:DW+3] = timeout` (R95). -/

namespace Sys2Proof

/-- `n` bits of `w` from bit `lo` up (R11's slice). -/
def bitField (w lo n : Nat) : Nat := w / 2 ^ lo % 2 ^ n

/-- `DIR(op) = op[0]` (R92). -/
def opDir (op : Op) : Dir := if op.getLsbD 0 then .deq else .enq

/-- `TIMED(op) = op[1]` (R92). -/
def opTimed (op : Op) : Bool := op.getLsbD 1

/-- `RSV`, `op[2]`: "1 selects no operation" (R92). -/
def opReserved (op : Op) : Bool := op.getLsbD 2

/-- The operation code with the given bits `RSV`, `TIMED`, `DIR` (R92). -/
def opOf (rsv timed : Bool) (dir : Dir) : Op :=
  match rsv, timed, dir with
  | false, false, .enq => 0#3
  | false, false, .deq => 1#3
  | false, true, .enq => 2#3
  | false, true, .deq => 3#3
  | true, false, .enq => 4#3
  | true, false, .deq => 5#3
  | true, true, .enq => 6#3
  | true, true, .deq => 7#3

/-- `CW[2:0]` (R95). -/
def wordOp (w : Nat) : Op := BitVec.ofNat 3 w

/-- `CW[DW+2:3]` (R95). -/
def wordData (c : Config) (w : Nat) : Nat := bitField w 3 c.dw

/-- `CW[DW+TOW+2:DW+3]` (R95). -/
def wordTimeout (c : Config) (w : Nat) : Nat := bitField w (c.dw + 3) c.tow

/-- `CW` from its fields (R95); each field is cut to its width, as its signal is (R91). -/
def packCommand (c : Config) (op : Op) (data : Nat) (timeout : Nat) : Nat :=
  op.toNat + (data % 2 ^ c.dw) * 2 ^ 3 + (timeout % 2 ^ c.tow) * 2 ^ (c.dw + 3)

/-- Why a word presented to a port is no command of it. -/
inductive DecodeError where
  /-- The instance has no port of that number (R91, R256). -/
  | noSuchPort
  /-- The word has a bit above the `3 + DW + TOW` bits of `CW` (R95). -/
  | wordTooWide
  deriving DecidableEq, Repr

/-- R101: "if `p.op[2] = 1` the command is illegal; otherwise look `p.op[1:0]` up in rule R98 under the instance's
`VARIANT` and the port." -/
def decodeFields (v : Variant) (p : Nat) (op : Op) (data : Nat) (timeout : Nat) : Instr :=
  if opReserved op then .reserved (op.setWidth 2) data timeout
  else
    match v, opTimed op, opDir op with
    | .mpmc, false, .enq => .mpmcEnq data timeout
    | .mpmc, false, .deq => .mpmcDeq data timeout
    | .mpmc, true, .enq => .mpmcEnqt data timeout
    | .mpmc, true, .deq => .mpmcDeqt data timeout
    | .spsc, true, dir => .spscIllegalTimed dir data timeout
    | .spsc, false, .enq => if p = portP then .spscEnq data timeout else .spscIllegalEnqOnC data timeout
    | .spsc, false, .deq => if p = portP then .spscIllegalDeqOnP data timeout else .spscDeq data timeout

/-- The command that the word `w` is at port `p` of the instance `c`: "every one of the 8 `op` values on every port has
exactly the behaviour of rule R98" (R99). -/
def decode (c : Config) (p : Nat) (w : Nat) : Except DecodeError Instr :=
  if p < c.numPorts then
    if w < 2 ^ c.commandWidth then
      .ok (decodeFields c.variant p (wordOp w) (wordData c w) (wordTimeout c w))
    else .error .wordTooWide
  else .error .noSuchPort

/-- The `op` field of a command (R92). -/
def Instr.op : Instr → Op
  | .spscEnq _ _ => 0#3
  | .spscDeq _ _ => 1#3
  | .mpmcEnq _ _ => 0#3
  | .mpmcDeq _ _ => 1#3
  | .mpmcEnqt _ _ => 2#3
  | .mpmcDeqt _ _ => 3#3
  | .reserved low _ _ => 1#1 ++ low
  | .spscIllegalTimed dir _ _ => opOf false true dir
  | .spscIllegalDeqOnP _ _ => 1#3
  | .spscIllegalEnqOnC _ _ => 0#3

/-- The command word of a command (R95). -/
def encode (c : Config) (i : Instr) : Nat := packCommand c i.op i.data i.timeout

/-- The instruction the decoder reads from a table word, at port 0 of the instance `State.reset` is about (log 13). -/
def decodeTableWord (nbits w : Nat) : Option Instr :=
  match decode Config.default 0 (w % 2 ^ nbits) with
  | .ok i => some i
  | .error _ => none

/-- The mnemonic of the command in listings (R102); an illegal command is written with its operation code. -/
def Instr.listingName : Instr → String
  | .spscEnq _ _ => "ENQ"
  | .spscDeq _ _ => "DEQ"
  | .mpmcEnq _ _ => "ENQ"
  | .mpmcDeq _ _ => "DEQ"
  | .mpmcEnqt _ _ => "ENQT"
  | .mpmcDeqt _ _ => "DEQT"
  | .reserved low _ _ => "op " ++ toString (4 + low.toNat)
  | .spscIllegalTimed .enq _ _ => "ENQT"
  | .spscIllegalTimed .deq _ _ => "DEQT"
  | .spscIllegalDeqOnP _ _ => "DEQ"
  | .spscIllegalEnqOnC _ _ => "ENQ"

/-- The name of a port in listings: `P` and `C` on an SPSC instance, its number on an MPMC one (R91, R102). -/
def portName (v : Variant) (p : Nat) : String :=
  match v with
  | .spsc => if p = portP then "P" else "C"
  | .mpmc => toString p

/-- The listing line of a command, `<port>: <MNEMONIC> [<item>][, <timeout>]` (R102). -/
def Instr.listing (v : Variant) (p : Nat) (i : Instr) : String :=
  portName v p ++ ": " ++ i.listingName ++
    (if opReserved i.op then ""
     else match opTimed i.op, opDir i.op with
      | false, .enq => " " ++ toString i.data
      | false, .deq => ""
      | true, .enq => " " ++ toString i.data ++ ", " ++ toString i.timeout
      | true, .deq => " " ++ toString i.timeout)

end Sys2Proof
end

