-- ==== Sys2Proof/Machine/State.lean ====
section
/-! DEFINITION. The state of the machine (10_state.md), the reasons a step can stop, and the state after reset (R38).
State is plain data: the parameters, the queue, the lock and wait sets, the time base, one record of latches a port, and
the model's own record of what happens next. -/

namespace Sys2Proof.Machine

/-- The values of the port state register `st`, the "program counter" (R6). SPSC uses the five of R31, MPMC the eleven
of R32; `IDLE`, `XFER` and `DONE` are in both. -/
inductive PState where
  | idle
  /-- SPSC: command latched, indices not yet compared. -/
  | check
  /-- SPSC: check passed, slot not yet accessed. MPMC: predicate true, transfer not yet done. -/
  | xfer
  /-- SPSC: slot accessed, own index not yet advanced. -/
  | adv
  | done
  /-- MPMC: nonblocking command, lock not yet tried. -/
  | acqTry
  /-- MPMC: timed command waiting for the lock. -/
  | acqTimed
  /-- MPMC: lock just acquired by a timed command, elapsed time not yet judged. -/
  | elapsed
  /-- MPMC: predicate to be evaluated. -/
  | pred
  /-- MPMC: suspended in a wait set. -/
  | cwait
  /-- MPMC: woken, waiting for the lock with no bound. -/
  | reacq
  /-- MPMC: transfer done, lock not yet released. -/
  | rel
  /-- MPMC: lock released, signal not yet fired. -/
  | sig
  deriving DecidableEq, Repr

/-- The cause of a completion (R241): seven values, code 7 is "never produced" (U15). -/
inductive Cause where
  | none
  | full
  | empty
  | timeoutWait
  | timeoutLock
  | lockBusy
  | illegalOp
  deriving DecidableEq, Repr

/-- The latches and the state register of a port (R30, R31, R32). -/
structure Port where
  st : PState
  op : Op
  data : Nat
  timeout : Nat
  start : Nat
  t1 : Nat
  deadline : Nat
  rspOk : Bool
  rspCause : Cause
  rspData : Nat
  /-- The model's own (log 7): which draw of `Config.anyData` this command's response shows where R97 says any(DW). -/
  draw : Nat
  deriving DecidableEq, Repr

/-- The turn being taken: which port, and which move of its host or of itself (R9, R10). The model's own (log 1). -/
structure Sel where
  port : Nat
  act : Act
  deriving DecidableEq, Repr

/-- The state of an instance. -/
structure State where
  /-- The parameters of the instance (R8); no step writes them (R284). -/
  cfg : Config
  /-- `wi`, the write index (R20). -/
  wi : Nat
  /-- `ri`, the read index (R20). -/
  ri : Nat
  /-- `size`, MPMC only (R26). -/
  size : Nat
  /-- `storage` (R20): the slots that hold a value, by rising index; a slot not listed holds no value (R22). -/
  storage : List (Nat × Nat)
  /-- `owner`, MPMC only (R29). -/
  owner : Option Nat
  /-- `waitRTR`, MPMC only (R48): a set of ports, listed in rising order. -/
  waitRTR : List Nat
  /-- `waitRTW`, MPMC only (R48). -/
  waitRTW : List Nat
  /-- `now`, the time base (R49). -/
  now : Nat
  /-- The ports, by number (R256). -/
  ports : List Port
  /-- The model's own (log 1): the turn being taken. -/
  sel : Sel
  /-- The model's own (log 1): the events that come next, first one first. -/
  script : List Event
  /-- The model's own (log 1, log 7): steps taken, the argument of the free values. -/
  seq : Nat
  deriving DecidableEq, Repr

/-- Why the machine stops. No reachable state raises either (R22, R44, R50). -/
inductive Fault where
  /-- `MemRead` of a slot that holds no value (R22, U10). Safe: the model stops where the hardware would give bits. -/
  | slotHoldsNoValue (index : Nat)
  /-- `MemRead` or `MemWrite` at an index that is no address (R60, R62). Safe. -/
  | slotOutOfRange (index : Nat)
  deriving DecidableEq, Repr

/-- What the model gives no meaning. -/
inductive Refusal where
  /-- Raised by an arm of `exec` whose command has no meaning yet; no arm is one. Safe. -/
  | notModelled (mnemonic : String)
  /-- Raised by every step of an instance whose parameters are not legal, `CAPACITY = 0` among them: "a model refuses to
  build one" (R283, U2). Safe. -/
  | illegalConfiguration
  /-- Raised by an event that names a port the instance does not have (R256, log 13). Safe. -/
  | noSuchPort
  /-- Raised by an event that presents a word wider than a command word (R95, log 13). Safe. -/
  | wordTooWide
  /-- Raised by `RESET` while a port is not `IDLE`: "a model refuses such a run" (R285, U3). Safe. -/
  | resetInFlight
  /-- Raised by a `TICK` after which a command would have been in flight for `2^TW - 2^TOW` ticks (R293, U9). Safe. -/
  | timeBaseWrap
  deriving DecidableEq, Repr

/-- A port after reset: `IDLE` (R38). Its latches are unspecified there; the zeros are the model's DESIGN CHOICE (log 5). -/
def Port.reset : Port :=
  { st := .idle, op := 0#3, data := 0, timeout := 0, start := 0, t1 := 0, deadline := 0,
    rspOk := false, rspCause := .none, rspData := 0, draw := 0 }

/-- The reset state of the instance `c` (R38, R280), the time base reading `now` (R49). -/
def State.resetFor (c : Config) (now : Nat) : State :=
  { cfg := c, wi := 0, ri := 0, size := 0, storage := [], owner := none, waitRTR := [], waitRTW := [], now := now,
    ports := List.replicate c.numPorts Port.reset, sel := { port := 0, act := .accept }, script := [], seq := 0 }

/-- The machine right after reset (R38), for the instance and the reading of the time base of log 3 and log 6. -/
def State.reset : State := State.resetFor Config.default 0

end Sys2Proof.Machine
end

