-- ==== Sys2Proof/Machine/Operands.lean ====
section
/-! DEFINITION. What a step reads: the port in turn and its latches (R12, R30), the command word in front of the machine,
the index advance (R11), and the helper functions of a latched operation code (41_mpmc_primitives.md, R171). -/

namespace Sys2Proof.Machine

/-- `adv(i) = (i + 1) mod CAPACITY` (R11). -/
def adv (c : Config) (i : Nat) : Nat := (i + 1) % c.capacity

/-- The latches of port `p` (R12). -/
def State.portAt (s : State) (p : Nat) : Port := s.ports.getD p Port.reset

/-- The port whose turn it is. -/
def State.me (s : State) : Nat := s.sel.port

/-- The latches of the port whose turn it is. -/
def State.cur (s : State) : Port := s.portAt s.me

/-- A command is in flight: "accepted and not yet completed" (R16). -/
def Port.inFlight (q : Port) : Bool := q.st != .idle && q.st != .done

/-- The command word in front of the port in turn: on an `ISSUE` the fields the host presents, later the fields latched
at issue, "the input signals are not looked at again until the port is back in `IDLE`" (R91). -/
def State.commandWord (s : State) : Nat :=
  match s.sel.act with
  | .issue cw => cw
  | .accept => packCommand s.cfg s.cur.op s.cur.data s.cur.timeout
  | .move _ _ => packCommand s.cfg s.cur.op s.cur.data s.cur.timeout

/-- The two condition signals (R48): "ready to read" and "ready to write". -/
inductive Condition where
  | rtr
  | rtw
  deriving DecidableEq, Repr

/-- `W(op)`: the condition a timed command of that direction waits on (R171). -/
def waitsOn : Dir → Condition
  | .enq => .rtw
  | .deq => .rtr

/-- `S(op)`: the condition a successful command of that direction signals (R171). -/
def signals : Dir → Condition
  | .enq => .rtr
  | .deq => .rtw

/-- The wait set of a condition (R48). -/
def State.waitSet (s : State) : Condition → List Nat
  | .rtr => s.waitRTR
  | .rtw => s.waitRTW

/-- `pred(op)`: `size < CAPACITY` for an enqueue, `size > 0` for a dequeue (R28, R158). -/
def State.pred (s : State) : Dir → Bool
  | .enq => decide (s.size < s.cfg.capacity)
  | .deq => decide (0 < s.size)

/-- `fail_cause(op)`: `FULL` for an enqueue, `EMPTY` for a dequeue (R158). -/
def failCause : Dir → Cause
  | .enq => .full
  | .deq => .empty

/-- `choose w ∈ S` (R13): the member of the non-empty set `ws` that the number `k` of the turn names. Every `k` names a
member and every member is named by some `k` (log 12). -/
def chooseWaiter (ws : List Nat) (k : Nat) : Nat := ws.getD (k % ws.length) 0

end Sys2Proof.Machine
end

