-- ==== Sys2Proof/Machine/Flags.lean ====
section
/-! DEFINITION. The flags and outputs, functions of the state (R34, R91, R96, R97): nothing sets them and no command reads
them. The `CHECK` and `PRED` steps evaluate the predicates `spscEmpty`, `spscFull`, `State.pred` on the registers. -/

namespace Sys2Proof.Machine

/-- `spsc_empty = (wi == ri)` (R24). -/
def State.spscEmpty (s : State) : Bool := s.wi == s.ri

/-- `spsc_full = (adv(wi) == ri)` (R24). -/
def State.spscFull (s : State) : Bool := adv s.cfg s.wi == s.ri

/-- `spsc_count = (wi - ri) mod CAPACITY`, "computed as `wi - ri` when `wi ≥ ri`, else `wi - ri + CAPACITY`" (R24). -/
def State.spscCount (s : State) : Nat := if s.ri ≤ s.wi then s.wi - s.ri else s.wi + s.cfg.capacity - s.ri

/-- `mpmc_empty = (size == 0)` (R28). -/
def State.mpmcEmpty (s : State) : Bool := s.size == 0

/-- `mpmc_full = (size == CAPACITY)` (R28). -/
def State.mpmcFull (s : State) : Bool := s.size == s.cfg.capacity

/-- The status output `empty` (R34). -/
def State.empty (s : State) : Bool :=
  match s.cfg.variant with
  | .spsc => s.spscEmpty
  | .mpmc => s.mpmcEmpty

/-- The status output `full` (R34). -/
def State.full (s : State) : Bool :=
  match s.cfg.variant with
  | .spsc => s.spscFull
  | .mpmc => s.mpmcFull

/-- The number of elements held: `spsc_count` or `size` (R24, R26). -/
def State.count (s : State) : Nat :=
  match s.cfg.variant with
  | .spsc => s.spscCount
  | .mpmc => s.size

/-- The capability vector `cap[2:0]`: "RBC-SPSC drives `0b001`; RBC-MPMC drives `0b111`" (R96). -/
def capVector (c : Config) : BitVec 3 :=
  match c.variant with
  | .spsc => 0b001#3
  | .mpmc => 0b111#3

/-- `cmd_ready = (p.st == IDLE)` (R91). -/
def State.cmdReady (s : State) (p : Nat) : Bool := (s.portAt p).st == .idle

/-- `rsp_valid = (p.st == DONE)` (R91). -/
def State.rspValid (s : State) (p : Nat) : Bool := (s.portAt p).st == .done

/-- The response carries an element: `ok = 1` and the command was DEQ or DEQT (R97). -/
def Port.carriesElement (q : Port) : Bool := q.rspOk && opDir q.op == .deq

/-- The output `rsp_data` (R91): the dequeued element, and "in every other response it is `any(DW)`" (R97, log 7), the same
value as long as the response stands. -/
def State.rspDataOut (s : State) (p : Nat) : Nat :=
  if (s.portAt p).carriesElement then (s.portAt p).rspData
  else Config.anyData (s.portAt p).draw % 2 ^ s.cfg.dw

/-- The numeric code of a cause (R241). -/
def Cause.code : Cause → BitVec 3
  | .none => 0#3
  | .full => 1#3
  | .empty => 2#3
  | .timeoutWait => 3#3
  | .timeoutLock => 4#3
  | .lockBusy => 5#3
  | .illegalOp => 6#3

/-- The response word `RW`: `RW[0] = ok`, `RW[3:1] = cause`, `RW[DW+3:4] = data` (R95). -/
def packResponse (c : Config) (ok : Bool) (cause : Cause) (data : Nat) : Nat :=
  ok.toNat + cause.code.toNat * 2 + (data % 2 ^ c.dw) * 2 ^ 4

/-- The response word a port presents (R91, R95). -/
def State.responseWord (s : State) (p : Nat) : Nat :=
  packResponse s.cfg (s.portAt p).rspOk (s.portAt p).rspCause (s.rspDataOut p)

/-- The code of an SPSC port state (R31); "Codes 5 to 7 are never held". -/
def PState.spscCode : PState → Option (BitVec 3)
  | .idle => some 0#3
  | .check => some 1#3
  | .xfer => some 2#3
  | .adv => some 3#3
  | .done => some 4#3
  | .acqTry => none
  | .acqTimed => none
  | .elapsed => none
  | .pred => none
  | .cwait => none
  | .reacq => none
  | .rel => none
  | .sig => none

/-- The code of an MPMC port state (R32); "Codes 11 to 15 are never held". -/
def PState.mpmcCode : PState → Option (BitVec 4)
  | .idle => some 0#4
  | .acqTry => some 1#4
  | .acqTimed => some 2#4
  | .elapsed => some 3#4
  | .pred => some 4#4
  | .cwait => some 5#4
  | .reacq => some 6#4
  | .xfer => some 7#4
  | .rel => some 8#4
  | .sig => some 9#4
  | .done => some 10#4
  | .check => none
  | .adv => none

/-- The name of a cause in listings (R241). -/
def Cause.listing : Cause → String
  | .none => "NONE"
  | .full => "FULL"
  | .empty => "EMPTY"
  | .timeoutWait => "TIMEOUT_WAIT"
  | .timeoutLock => "TIMEOUT_LOCK"
  | .lockBusy => "LOCK_BUSY"
  | .illegalOp => "ILLEGAL_OP"

/-- The result of a completed command in listings: `-> true`, `-> true 123` or `-> false CAUSE` (R102). -/
def Port.resultListing (q : Port) : String :=
  if q.rspOk then
    if opDir q.op == .deq then "-> true " ++ toString q.rspData else "-> true"
  else "-> false " ++ q.rspCause.listing

end Sys2Proof.Machine
end

