-- ==== Sys2Proof/Machine/Ops.lean ====
section
/-! DEFINITION. The shared operations over storage, ports and wait sets: `MemRead` and `MemWrite` (R12, R66), issue and
accept (R123, R131, R150, R168), `complete`, which is how every command ends (R14), the tick (R165) and reset (R280). -/

namespace Sys2Proof.Machine

/-- What a meaning answers. -/
abbrev Res := Host.Outcome State Fault Refusal

/-! Storage -/

/-- The value slot `i` holds, if it holds one (R22). -/
def slotAt : List (Nat × Nat) → Nat → Option Nat
  | [], _ => none
  | (j, v) :: rest, i => if j = i then some v else slotAt rest i

/-- Slot `i` holds `v`, every other slot what it held; the listing stays in rising order (log 8). -/
def putSlot : List (Nat × Nat) → Nat → Nat → List (Nat × Nat)
  | [], i, v => [(i, v)]
  | (j, u) :: rest, i, v =>
    if i < j then (i, v) :: (j, u) :: rest
    else if i = j then (i, v) :: rest
    else (j, u) :: putSlot rest i v

/-- The canonical form of a storage listing: slot indices strictly rising (log 8). -/
abbrev Memory.wf (m : List (Nat × Nat)) : Prop := m.Pairwise (fun a b => a.1 < b.1)

/-- `MemRead(i)` (R12): the element of slot `i`, whole; the slot keeps it (R66). -/
def memRead (s : State) (i : Nat) : Except Fault Nat :=
  if i < s.cfg.capacity then
    match slotAt s.storage i with
    | some v => .ok v
    | none => .error (.slotHoldsNoValue i)
  else .error (.slotOutOfRange i)

/-- `MemWrite(i, v)` (R12): slot `i` holds `v`. -/
def memWrite (s : State) (i : Nat) (v : Nat) : Except Fault State :=
  if i < s.cfg.capacity then .ok { s with storage := putSlot s.storage i v }
  else .error (.slotOutOfRange i)

/-! Ports -/

/-- Port `p` with its record changed by `f`; the other ports as they are. -/
def State.updPort (s : State) (p : Nat) (f : Port → Port) : State := { s with ports := s.ports.modify p f }

/-- `p.st <- S` for the port in turn (R12). -/
def State.goto (s : State) (st : PState) : State := s.updPort s.me fun q => { q with st := st }

/-- A turn in which its agent has no enabled step (R13): nothing changes (log 2). -/
def stall (s : State) : Res := .next s

/-- `complete(p, ok, cause)` for the port in turn (R14), the one way a command ends: "nothing is raised" (R240), the
response is written and the port waits in `DONE`. -/
def complete (ok : Bool) (cause : Cause) (s : State) : State :=
  s.updPort s.me fun q => { q with rspOk := ok, rspCause := cause, st := .done }

/-- The latching of a command at `ISSUE`: on SPSC `op` and `data` (R123: "`timeout` is not latched"), on MPMC also
`timeout` and `start <- now` (R150). The draw of a response value is the model's own (log 7). -/
def latch (v : Variant) (op : Op) (data : Nat) (timeout : Nat) (now : Nat) (seq : Nat) (q : Port) : Port :=
  match v with
  | .spsc => { q with op := op, data := data, draw := seq }
  | .mpmc => { q with op := op, data := data, timeout := timeout, start := now, draw := seq }

/-- `ISSUE` at the port in turn (R123, R150): guard `IDLE`; the fields are latched and the port goes to the first state
of its command. A command presented to a port that is not `IDLE` is not accepted (R91). -/
def issue (op : Op) (data : Nat) (timeout : Nat) (first : PState) (s : State) : Res :=
  if s.cur.st = .idle then
    .next ((s.updPort s.me (latch s.cfg.variant op data timeout s.now s.seq)).goto first)
  else stall s

/-- `ISSUE` of an illegal command (R99): accepted like any other, and completed at once with `ILLEGAL_OP`. -/
def issueIllegal (op : Op) (data : Nat) (timeout : Nat) (s : State) : Res :=
  if s.cur.st = .idle then
    .next (complete false .illegalOp (s.updPort s.me (latch s.cfg.variant op data timeout s.now s.seq)))
  else stall s

/-- `ACCEPT` at the port in turn (R131, R168): guard `DONE`; the port returns to `IDLE` and its latches keep their
values. This is the return from a failure as well (R248). -/
def accept (s : State) : Res :=
  if s.cur.st = .done then .next (s.goto .idle) else stall s

/-! Wait sets (R48), as rising lists -/

/-- `ws ∪ {p}`. -/
def insertWaiter (p : Nat) : List Nat → List Nat
  | [] => [p]
  | w :: ws => if p < w then p :: w :: ws else if p = w then w :: ws else w :: insertWaiter p ws

/-- `ws \ {p}`. -/
def removeWaiter (p : Nat) (ws : List Nat) : List Nat := ws.filter (fun w => w != p)

/-- The wait set of a condition replaced. -/
def State.setWaitSet (s : State) (c : Condition) (ws : List Nat) : State :=
  match c with
  | .rtr => { s with waitRTR := ws }
  | .rtw => { s with waitRTW := ws }

/-! The time base and reset -/

/-- R293: the tick after which some command would have been in flight for `2^TW - 2^TOW` ticks. Only an MPMC instance
reads the time (R49). -/
def State.tickWraps (s : State) : Bool :=
  s.cfg.variant == .mpmc &&
    s.ports.any fun q => q.inFlight && decide (2 ^ s.cfg.tw - 2 ^ s.cfg.tow ≤ s.now + 1 - q.start)

/-- `TICK` (R165): `now <- now + 1`. -/
def tick (s : State) : Res :=
  if s.tickWraps then .refused .timeBaseWrap else .next { s with now := s.now + 1 }

/-- `RESET` (R280): the reset state, with the time base reading what it reads (R49). It "must be asserted only when every
port is `IDLE`" (R285). The events to come and the count of steps are the model's own and stay. -/
def reset (s : State) : Res :=
  if s.ports.all fun q => q.st == .idle then
    .next { State.resetFor s.cfg s.now with sel := s.sel, script := s.script, seq := s.seq }
  else .refused .resetInFlight

end Sys2Proof.Machine
end

