-- ==== Sys2Proof/Machine/Illegal.lean ====
section
/-! DEFINITION. The illegal commands (R99): "accepted like any other, changes no queue state, takes no lock, reads no time,
and completes at its `ISSUE` step with `ok = 0`, `cause = ILLEGAL_OP`. The port then waits in `DONE` for `ACCEPT` like any
other completion." No step of `PORT(p)` belongs to one. -/

namespace Sys2Proof.Machine

/-- The path of an illegal command: `ISSUE`, `ACCEPT` (R127, R172). -/
def illegalCommand (op : Op) (data : Nat) (timeout : Nat) (s : State) : Res :=
  match s.sel.act with
  | .issue _ => issueIllegal op data timeout s
  | .accept => accept s
  | .move _ _ => stall s

/-- `RESERVED.OP4_7`: `op[2] = 1`, on every port of either variant. -/
def execReserved (low : BitVec 2) (data : Nat) (timeout : Nat) (s : State) : Res :=
  illegalCommand (1#1 ++ low) data timeout s

/-- `SPSC.ILLEGAL.TIMED`: ENQT or DEQT on an SPSC port. -/
def execSpscIllegalTimed (dir : Dir) (data : Nat) (timeout : Nat) (s : State) : Res :=
  illegalCommand (opOf false true dir) data timeout s

/-- `SPSC.ILLEGAL.DEQ_ON_P`: DEQ on port P. -/
def execSpscIllegalDeqOnP (data : Nat) (timeout : Nat) (s : State) : Res :=
  illegalCommand (opOf false false .deq) data timeout s

/-- `SPSC.ILLEGAL.ENQ_ON_C`: ENQ on port C. -/
def execSpscIllegalEnqOnC (data : Nat) (timeout : Nat) (s : State) : Res :=
  illegalCommand (opOf false false .enq) data timeout s

end Sys2Proof.Machine
end

