-- ==== Sys2Proof/Machine/MpmcSteps.lean ====
section
/-! DEFINITION. The steps the MPMC commands are built from (41_mpmc_primitives.md), each for the port in turn. -/

namespace Sys2Proof.Machine

/-- `LOCK_TRY` (R152): `if owner == NONE: owner <- p; p.st <- PRED else: complete(p, 0, LOCK_BUSY)`. -/
def lockTry (s : State) : Res :=
  if s.owner = none then .next ({ s with owner := some s.me }.goto .pred)
  else .next (complete false .lockBusy s)

/-- `LOCK_TIMED`, grant (R153): guard `owner == NONE`. `owner <- p; p.t1 <- now; p.st <- ELAPSED`. -/
def lockGrant (s : State) : Res :=
  if s.owner = none then
    .next (({ s with owner := some s.me }.updPort s.me fun q => { q with t1 := s.now }).goto .elapsed)
  else stall s

/-- `LOCK_TIMED`, expire (R154): guard `now - p.start ≥ zext(p.timeout)`. `complete(p, 0, TIMEOUT_LOCK)`. -/
def lockExpire (s : State) : Res :=
  if s.cur.timeout ≤ s.now - s.cur.start then .next (complete false .timeoutLock s) else stall s

/-- `LOCK_REACQ` (R155): guard `owner == NONE`. `owner <- p; p.st <- PRED`. -/
def lockReacq (s : State) : Res :=
  if s.owner = none then .next ({ s with owner := some s.me }.goto .pred) else stall s

/-- `UNLOCK` (R156): `owner <- NONE; p.st <- SIG`. -/
def unlock (s : State) : Res := .next ({ s with owner := none }.goto .sig)

/-- The deadline of R157: `p.start + timeout` (as `p.t1 + (timeout - elapsed)`), or `p.t1 + timeout` where the legacy
budget applies (R221). -/
def deadlineOf (legacy : Bool) (start t1 timeout : Nat) : Nat :=
  if legacy then t1 + timeout else t1 + (timeout - (t1 - start))

/-- `ELAPSED` (R157). `legacy` is `p.op == DEQT and LEGACY_DEQ_BUDGET`. -/
def judgeElapsed (legacy : Bool) (s : State) : Res :=
  if s.cur.timeout ≤ s.cur.t1 - s.cur.start then
    .next (complete false .timeoutLock { s with owner := none })
  else
    .next ((s.updPort s.me fun q => { q with deadline := deadlineOf legacy q.start q.t1 q.timeout }).goto .pred)

/-- `PRED` of a nonblocking command (R158): on a false predicate release the lock and fail. -/
def predNonblocking (dir : Dir) (s : State) : Res :=
  if s.pred dir then .next (s.goto .xfer)
  else .next (complete false (failCause dir) { s with owner := none })

/-- The fourth branch of `PRED` (R158): release the lock and enter the wait set, one atomic step (R160). -/
def enterWait (dir : Dir) (s : State) : State :=
  ({ s with owner := none }.setWaitSet (waitsOn dir) (insertWaiter s.me (s.waitSet (waitsOn dir)))).goto .cwait

/-- `PRED` of a timed command (R158): the predicate is tested before the deadline. -/
def predTimed (dir : Dir) (s : State) : Res :=
  if s.pred dir then .next (s.goto .xfer)
  else if s.cur.deadline ≤ s.now then .next (complete false .timeoutWait { s with owner := none })
  else .next (enterWait dir s)

/-- Leaving the wait set: `W(p.op) <- W(p.op) \ {p}; p.st <- REACQ` (R162, R163). -/
def leaveWait (dir : Dir) (s : State) : State :=
  (s.setWaitSet (waitsOn dir) (removeWaiter s.me (s.waitSet (waitsOn dir)))).goto .reacq

/-- `WAKE_DEADLINE` (R162): guard `now >= p.deadline`. -/
def wakeDeadline (dir : Dir) (s : State) : Res :=
  if s.cur.deadline ≤ s.now then .next (leaveWait dir s) else stall s

/-- `WAKE_SPURIOUS` (R163): guard `SPURIOUS_WAKE = true`. -/
def wakeSpurious (dir : Dir) (s : State) : Res :=
  if s.cfg.spuriousWake then .next (leaveWait dir s) else stall s

/-- The first part of `SIGNAL` (R161): `choose w ∈ S(p.op); S(p.op) <- S(p.op) \ {w}; w.st <- REACQ`, and nothing when no
port waits. -/
def wakeOne (c : Condition) (k : Nat) (s : State) : State :=
  if s.waitSet c = [] then s
  else
    (s.setWaitSet c (removeWaiter (chooseWaiter (s.waitSet c) k) (s.waitSet c))).updPort
      (chooseWaiter (s.waitSet c) k) fun q => { q with st := .reacq }

/-- `SIGNAL` (R161): wake one waiter if there is one, then `complete(p, 1, NONE)`. -/
def signal (dir : Dir) (k : Nat) (s : State) : Res :=
  .next (complete true .none (wakeOne (signals dir) k s))

/-- `DO_ENQ` (R166): `MemWrite(wi, p.data); wi <- adv(wi); size <- size + 1; p.st <- REL`. -/
def doEnq (s : State) : Res :=
  match memWrite s s.wi s.cur.data with
  | .ok s' => .next ({ s' with wi := adv s.cfg s.wi, size := s.size + 1 }.goto .rel)
  | .error f => .fault f

/-- `DO_DEQ` (R167): `p.rsp_data <- MemRead(ri); ri <- adv(ri); size <- size - 1; p.st <- REL`. -/
def doDeq (s : State) : Res :=
  match memRead s s.ri with
  | .ok v =>
    .next (({ s with ri := adv s.cfg s.ri, size := s.size - 1 }.updPort s.me fun q => { q with rspData := v }).goto .rel)
  | .error f => .fault f

end Sys2Proof.Machine
end

