-- ==== Sys2Proof/Machine/MpmcNonblocking.lean ====
section
/-! DEFINITION. The MPMC nonblocking commands (42_mpmc_nonblocking.md) as paths through the port FSM (R172). -/

namespace Sys2Proof.Machine

/-- `MPMC.ENQ` (R191): `ISSUE`, `LOCK_TRY`, `PRED`, `DO_ENQ`, `UNLOCK`, `SIGNAL` (ready to read), `ACCEPT`. -/
def execMpmcEnq (data : Nat) (timeout : Nat) (s : State) : Res :=
  match s.sel.act with
  | .issue _ => issue (opOf false false .enq) data timeout .acqTry s
  | .accept => accept s
  | .move _ wake =>
    match s.cur.st with
    | .acqTry => lockTry s
    | .pred => predNonblocking .enq s
    | .xfer => doEnq s
    | .rel => unlock s
    | .sig => signal .enq wake s
    | _ => stall s

/-- `MPMC.DEQ` (R192): `ISSUE`, `LOCK_TRY`, `PRED`, `DO_DEQ`, `UNLOCK`, `SIGNAL` (ready to write), `ACCEPT`. -/
def execMpmcDeq (data : Nat) (timeout : Nat) (s : State) : Res :=
  match s.sel.act with
  | .issue _ => issue (opOf false false .deq) data timeout .acqTry s
  | .accept => accept s
  | .move _ wake =>
    match s.cur.st with
    | .acqTry => lockTry s
    | .pred => predNonblocking .deq s
    | .xfer => doDeq s
    | .rel => unlock s
    | .sig => signal .deq wake s
    | _ => stall s

end Sys2Proof.Machine
end

