-- ==== Sys2Proof/Machine/MpmcTimed.lean ====
section
/-! DEFINITION. The MPMC timed commands (43_mpmc_timed.md): the timeout-composition path through the port FSM (R172),
with the wait loop `PRED -> CWAIT -> REACQ -> PRED` (R160). Where a state offers two steps, the turn's `alt` picks
(R154, R163). -/

namespace Sys2Proof.Machine

/-- `MPMC.ENQT` (R211). -/
def execMpmcEnqt (data : Nat) (timeout : Nat) (s : State) : Res :=
  match s.sel.act with
  | .issue _ => issue (opOf false true .enq) data timeout .acqTimed s
  | .accept => accept s
  | .move alt wake =>
    match s.cur.st with
    | .acqTimed => if alt then lockExpire s else lockGrant s
    | .elapsed => judgeElapsed false s
    | .pred => predTimed .enq s
    | .cwait => if alt then wakeSpurious .enq s else wakeDeadline .enq s
    | .reacq => lockReacq s
    | .xfer => doEnq s
    | .rel => unlock s
    | .sig => signal .enq wake s
    | _ => stall s

/-- `MPMC.DEQT` (R212); the one difference in shape is the budget of `ELAPSED` when `LEGACY_DEQ_BUDGET = true` (R221). -/
def execMpmcDeqt (data : Nat) (timeout : Nat) (s : State) : Res :=
  match s.sel.act with
  | .issue _ => issue (opOf false true .deq) data timeout .acqTimed s
  | .accept => accept s
  | .move alt wake =>
    match s.cur.st with
    | .acqTimed => if alt then lockExpire s else lockGrant s
    | .elapsed => judgeElapsed s.cfg.legacyDeqBudget s
    | .pred => predTimed .deq s
    | .cwait => if alt then wakeSpurious .deq s else wakeDeadline .deq s
    | .reacq => lockReacq s
    | .xfer => doDeq s
    | .rel => unlock s
    | .sig => signal .deq wake s
    | _ => stall s

end Sys2Proof.Machine
end

