-- ==== Sys2Proof/Machine/Spsc.lean ====
section
/-! DEFINITION. The SPSC family (40_spsc.md): the steps `P_CHECK` to `C_ADV`, and the commands `SPSC.ENQ` and `SPSC.DEQ`
as paths through them (R127). -/

namespace Sys2Proof.Machine

/-- `P_CHECK` (R124): `if adv(wi) == ri: complete(P, 0, FULL) else: P.st <- XFER`. -/
def pCheck (s : State) : Res :=
  if s.spscFull then .next (complete false .full s) else .next (s.goto .xfer)

/-- `P_WRITE` (R125): `MemWrite(wi, P.data); P.st <- ADV`. -/
def pWrite (s : State) : Res :=
  match memWrite s s.wi s.cur.data with
  | .ok s' => .next (s'.goto .adv)
  | .error f => .fault f

/-- `P_ADV` (R126): `wi <- adv(wi); complete(P, 1, NONE)`. -/
def pAdv (s : State) : Res :=
  .next (complete true .none { s with wi := adv s.cfg s.wi })

/-- `C_CHECK` (R128): `if wi == ri: complete(C, 0, EMPTY) else: C.st <- XFER`. -/
def cCheck (s : State) : Res :=
  if s.spscEmpty then .next (complete false .empty s) else .next (s.goto .xfer)

/-- `C_READ` (R129): `C.rsp_data <- MemRead(ri); C.st <- ADV`. -/
def cRead (s : State) : Res :=
  match memRead s s.ri with
  | .ok v => .next ((s.updPort s.me fun q => { q with rspData := v }).goto .adv)
  | .error f => .fault f

/-- `C_ADV` (R130): `ri <- adv(ri); complete(C, 1, NONE)`. -/
def cAdv (s : State) : Res :=
  .next (complete true .none { s with ri := adv s.cfg s.ri })

/-- `SPSC.ENQ` (R121): `ISSUE`, `P_CHECK`, `P_WRITE`, `P_ADV`, `ACCEPT`. -/
def execSpscEnq (data : Nat) (timeout : Nat) (s : State) : Res :=
  match s.sel.act with
  | .issue _ => issue (opOf false false .enq) data timeout .check s
  | .accept => accept s
  | .move _ _ =>
    match s.cur.st with
    | .check => pCheck s
    | .xfer => pWrite s
    | .adv => pAdv s
    | _ => stall s

/-- `SPSC.DEQ` (R122): `ISSUE`, `C_CHECK`, `C_READ`, `C_ADV`, `ACCEPT`. -/
def execSpscDeq (data : Nat) (timeout : Nat) (s : State) : Res :=
  match s.sel.act with
  | .issue _ => issue (opOf false false .deq) data timeout .check s
  | .accept => accept s
  | .move _ _ =>
    match s.cur.st with
    | .check => cCheck s
    | .xfer => cRead s
    | .adv => cAdv s
    | _ => stall s

end Sys2Proof.Machine
end

