-- ==== Sys2Proof/Machine/Dispatch.lean ====
section
/-! DEFINITION. One arm per command. `exec i s` is the step that command `i`, presented to or in flight on the port in
turn, takes at that turn (log 15). -/

namespace Sys2Proof.Machine

def exec (i : Instr) (s : State) : Host.Outcome State Fault Refusal :=
  match i with
  | .spscEnq data timeout => Sys2Proof.Machine.execSpscEnq data timeout s
  | .spscDeq data timeout => Sys2Proof.Machine.execSpscDeq data timeout s
  | .mpmcEnq data timeout => Sys2Proof.Machine.execMpmcEnq data timeout s
  | .mpmcDeq data timeout => Sys2Proof.Machine.execMpmcDeq data timeout s
  | .mpmcEnqt data timeout => Sys2Proof.Machine.execMpmcEnqt data timeout s
  | .mpmcDeqt data timeout => Sys2Proof.Machine.execMpmcDeqt data timeout s
  | .reserved low data timeout => Sys2Proof.Machine.execReserved low data timeout s
  | .spscIllegalTimed dir data timeout => Sys2Proof.Machine.execSpscIllegalTimed dir data timeout s
  | .spscIllegalDeqOnP data timeout => Sys2Proof.Machine.execSpscIllegalDeqOnP data timeout s
  | .spscIllegalEnqOnC data timeout => Sys2Proof.Machine.execSpscIllegalEnqOnC data timeout s

end Sys2Proof.Machine
end

