-- ==== Sys2Proof/Machine/Schedule.lean ====
section
/-! DEFINITION. What happens next: the event the machine takes (R9, R10), where a command word enters, and the reference
synchronous timing as an order of events (R298). -/

namespace Sys2Proof.Machine

/-- The next event: the first of the script, or, beyond it, a free value (log 1). -/
def State.nextEvent (s : State) : Event :=
  match s.script with
  | [] => Config.freeEvent s.seq
  | e :: _ => e

/-- The state with its next event taken off the script and the step counted. -/
def State.takeEvent (s : State) : State := { s with script := s.script.tail, seq := s.seq + 1 }

/-- The state with the turn given to port `p` for the move `a`. -/
def State.withTurn (s : State) (p : Nat) (a : Act) : State := { s with sel := { port := p, act := a } }

/-- The refusal of a word the decoder refuses. -/
def refusalOf : DecodeError → Refusal
  | .noSuchPort => .noSuchPort
  | .wordTooWide => .wordTooWide

/-- The first port whose `cmd_ready` is 1, or port 0 when none is. -/
def State.firstReadyPort (s : State) : Nat :=
  (s.ports.findIdx? fun q => q.st == .idle).getD 0

/-- The state in which the next event is the host's presenting the command word `cw` at the first ready port. -/
def State.present (s : State) (cw : Nat) : State :=
  { s with script := .turn s.firstReadyPort (.issue cw) :: s.script }

/-- The reference synchronous timing (R298, optional: "no rule depends on it"): the port steps and the tick of one cycle of
`clk`. `order` is the arbiter's: each port whose state has an enabled step once, in the order it picks and with the choices
it makes; `now` advances where the cycle is one in which it does ("once every `TICK_DIV` cycles"). R298 leaves two points of
a cycle open, and both are settled here as the model's DESIGN CHOICE, on which no step depends: where in its cycle the tick
falls, here after all the port turns (log 22); and whether and where a host's `ISSUE` and `ACCEPT`, and `RESET`, fall within
a cycle, here nowhere, so that a script has them between the events of one cycle and those of the next (log 23). -/
def cycleEvents (order : List (Nat × Bool × Nat)) (tickDue : Bool) : List Event :=
  order.map (fun t => .turn t.1 (.move t.2.1 t.2.2)) ++ (if tickDue then [.tick] else [])

end Sys2Proof.Machine
end

