-- ==== Sys2Proof/Machine/Step.lean ====
section
/-! DEFINITION. One step of the machine: one turn of one agent (R10, R13). A turn at a port reads the command word in front
of it, decodes it for that instance and port (R101), and runs the command's step; `TICK` and `RESET` are turns of their
own. -/

namespace Sys2Proof.Machine

/-- One step. -/
def step (s : State) : Host.Outcome State Fault Refusal :=
  if s.cfg.Legal then
    match s.nextEvent with
    | .tick => tick s.takeEvent
    | .reset => reset s.takeEvent
    | .turn p a =>
      match decode s.cfg p (s.takeEvent.withTurn p a).commandWord with
      | .ok i => exec i (s.takeEvent.withTurn p a)
      | .error e => .refused (refusalOf e)
  else .refused .illegalConfiguration

/-- `s` with the command word `w` where `step` takes its next command: the next event is a host's presenting it at the
first ready port (log 14). -/
def State.withFetchWord (s : State) (nbits w : Nat) : State := s.present (w % 2 ^ nbits)

end Sys2Proof.Machine
end

