-- ==== Sys2Proof/Safety.lean ====
section
/-! DEFINITION. The terms claims are made in: what a consistent state is (10_state.md section 9), the queue contents (R41,
R50), what enters and leaves at a step (R70), runs of one command, the end of a run and its observable result (R299). -/

namespace Sys2Proof.Machine

/-! ### Runs -/

/-- The turns `acts` given one after another to the port in turn of `s`, each taken by command `i`. -/
def runActs (i : Instr) : List Act → State → Res
  | [], s => .next s
  | a :: as, s =>
    match exec i (s.withTurn s.me a) with
    | .next s' => runActs i as s'
    | .fault f => .fault f
    | .refused r => .refused r

/-- "THE RUN HAS ENDED when every port is `IDLE`, every issued command has had its response accepted, `owner = NONE` and
both wait sets are empty" (R299); a port is `IDLE` only once its response has been accepted (R131, R168). -/
abbrev State.runEnded (s : State) : Prop :=
  (∀ q ∈ s.ports, q.st = .idle) ∧ s.owner = none ∧ s.waitRTR = [] ∧ s.waitRTW = []

/-- A command: "the triple `(op, data, timeout)`" (R90). -/
structure Command where
  op : Op
  data : Nat
  timeout : Nat
  deriving DecidableEq, Repr

/-- The triple of a decoded command. -/
def commandOf (i : Instr) : Command := { op := i.op, data := i.data, timeout := i.timeout }

/-- The triple in the latches of a port. -/
def Port.command (q : Port) : Command := { op := q.op, data := q.data, timeout := q.timeout }

/-- One entry of the observable result: "`(command, ok, cause, data if a successful dequeue)`" (R299). -/
structure Result where
  command : Command
  ok : Bool
  cause : Cause
  data : Option Nat
  deriving DecidableEq, Repr

/-- The command that the next step accepts from the host of port `p`, if it is an `ISSUE` there (R91, R123, R150). -/
def State.issuedAt (s : State) (p : Nat) : Option Command :=
  match s.nextEvent with
  | .turn r (.issue cw) =>
    if r = p ∧ s.cmdReady p = true then
      match decode s.cfg p cw with
      | .ok i => some (commandOf i)
      | .error _ => none
    else none
  | _ => none

/-- What the host of port `p`, whose last command was `c`, has when the next step accepts its response (R131, R168), if it
is an `ACCEPT` there. -/
def State.resultAt (s : State) (p : Nat) (c : Command) : Option Result :=
  match s.nextEvent with
  | .turn r .accept =>
    if r = p ∧ s.rspValid p = true then
      some { command := c, ok := (s.portAt p).rspOk, cause := (s.portAt p).rspCause,
             data := if (s.portAt p).carriesElement then some (s.portAt p).rspData else none }
    else none
  | _ => none

/-- The commands accepted at port `p` in the next `k` steps, in order. -/
def State.commandsIssued (p : Nat) : Nat → State → List Command
  | 0, _ => []
  | k + 1, s =>
    match step s with
    | .next s' => (s.issuedAt p).toList ++ State.commandsIssued p k s'
    | .fault _ => []
    | .refused _ => []

/-- The entries of port `p` for the next `k` steps, in order, where `c` is the last command that its host issued. The
command is the one issued, not the latches: an SPSC port latches no `timeout` (R123). -/
def State.resultsAfter (p : Nat) : Command → Nat → State → List Result
  | _, 0, _ => []
  | c, k + 1, s =>
    match step s with
    | .next s' => (s.resultAt p c).toList ++ State.resultsAfter p ((s.issuedAt p).getD c) k s'
    | .fault _ => []
    | .refused _ => []

/-- The entries of port `p` for the `k` steps from `s`. A command in flight in `s` is the one in the latches. -/
def State.results (s : State) (p : Nat) (k : Nat) : List Result :=
  State.resultsAfter p (s.portAt p).command k s

/-! ### The queue -/

/-- The elements held, oldest first (R41, R50): the values of the slots `ri, adv(ri), ...`, `count` of them. -/
def State.contents (s : State) : List Nat :=
  (List.range s.count).filterMap fun k => slotAt s.storage ((s.ri + k) % s.cfg.capacity)

/-- The observable result of a run (R299): "per port, the sequence of `(command, ok, cause, data if a successful dequeue)`,
together with the final `size` (or `spsc_count`) and the ordered contents of the queue". -/
structure Observable where
  /-- The entries of each port, by port number. -/
  results : List (List Result)
  /-- `size`, or `spsc_count`. -/
  size : Nat
  /-- Oldest first (R41, R50). -/
  contents : List Nat
  deriving DecidableEq, Repr

/-- The observable result of the `k` steps from `s`, if the run has ended after them (R299). -/
def State.observable (s : State) (k : Nat) : Option Observable :=
  match Sys2Proof.core.run k s with
  | .next t =>
    if State.runEnded t then
      some { results := (List.range s.cfg.numPorts).map fun p => s.results p k, size := State.count t,
             contents := State.contents t }
    else none
  | .fault _ => none
  | .refused _ => none

/-- The elements that the successful enqueues among `rs` handed in. -/
def enqueued (rs : List Result) : List Nat :=
  rs.filterMap fun r => if r.ok && opDir r.command.op == .enq then some r.command.data else none

/-- The elements that the successful dequeues among `rs` handed out. -/
def dequeued (rs : List Result) : List Nat := rs.filterMap fun r => r.data

/-- The element that the next step puts into the queue, if it is the linearization point of an enqueue (R70): `P_ADV`, or
`DO_ENQ`. -/
def State.entering (s : State) : Option Nat :=
  match s.nextEvent with
  | .turn p (.move _ _) =>
    match s.cfg.variant with
    | .spsc => if p = portP ∧ (s.portAt p).st = .adv then some (s.portAt p).data else none
    | .mpmc => if (s.portAt p).st = .xfer ∧ opDir (s.portAt p).op = .enq then some (s.portAt p).data else none
  | _ => none

/-- The element that the next step takes out of the queue, if it is the linearization point of a dequeue (R70): `C_ADV`,
whose element the port read before, or `DO_DEQ`, which reads slot `ri`. -/
def State.leaving (s : State) : Option Nat :=
  match s.nextEvent with
  | .turn p (.move _ _) =>
    match s.cfg.variant with
    | .spsc => if p = portC ∧ (s.portAt p).st = .adv then some (s.portAt p).rspData else none
    | .mpmc => if (s.portAt p).st = .xfer ∧ opDir (s.portAt p).op = .deq then slotAt s.storage s.ri else none
  | _ => none

/-- The elements that enter in `k` steps, in order. -/
def State.entered : Nat → State → List Nat
  | 0, _ => []
  | k + 1, s =>
    s.entering.toList ++
      (match step s with
       | .next s' => State.entered k s'
       | .fault _ => []
       | .refused _ => [])

/-- The elements that leave in `k` steps, in order. -/
def State.left : Nat → State → List Nat
  | 0, _ => []
  | k + 1, s =>
    s.leaving.toList ++
      (match step s with
       | .next s' => State.left k s'
       | .fault _ => []
       | .refused _ => [])

/-- None of the next `k` steps is a `RESET`. -/
def State.noReset : Nat → State → Prop
  | 0, _ => True
  | k + 1, s =>
    s.nextEvent ≠ .reset ∧
      (match step s with
       | .next s' => State.noReset k s'
       | .fault _ => True
       | .refused _ => True)

/-! ### What a step leaves as it was -/

/-- The turn is a step of the port in turn (R10), which exists and stands in `st`. -/
abbrev State.turnIn (s : State) (st : PState) : Prop :=
  s.me < s.ports.length ∧ s.cur.st = st ∧ ∃ alt wake, s.sel.act = .move alt wake

/-- `wi`, `ri`, `size` and every slot are as they were. -/
abbrev State.queueKept (s t : State) : Prop :=
  t.wi = s.wi ∧ t.ri = s.ri ∧ t.size = s.size ∧ ∀ j, slotAt t.storage j = slotAt s.storage j

/-- Both wait sets are as they were. -/
abbrev State.waitersKept (s t : State) : Prop := t.waitRTR = s.waitRTR ∧ t.waitRTW = s.waitRTW

/-- The parameters, the time base and the model's own record of the schedule are as they were. -/
abbrev State.restKept (s t : State) : Prop :=
  t.cfg = s.cfg ∧ t.now = s.now ∧ t.sel = s.sel ∧ t.script = s.script ∧ t.seq = s.seq

/-- The record of port `p` is now `q`; every other port's record is what it was. -/
abbrev State.portBecomes (s t : State) (p : Nat) (q : Port) : Prop :=
  t.ports.length = s.ports.length ∧ ∀ r, t.portAt r = if r = p then q else s.portAt r

/-- Nothing changed but the record of the port in turn, which is now `q`. -/
abbrev State.onlyPort (s t : State) (q : Port) : Prop :=
  s.queueKept t ∧ t.owner = s.owner ∧ s.waitersKept t ∧ s.restKept t ∧ s.portBecomes t s.me q

/-- The same, but `owner` is now `o`. -/
abbrev State.portAndOwner (s t : State) (o : Option Nat) (q : Port) : Prop :=
  s.queueKept t ∧ t.owner = o ∧ s.waitersKept t ∧ s.restKept t ∧ s.portBecomes t s.me q

/-- The port's record after `complete(p, ok, cause)` (R14). -/
abbrev Port.completed (q : Port) (ok : Bool) (cause : Cause) : Port :=
  { q with rspOk := ok, rspCause := cause, st := .done }

/-! ### Consistent states -/

/-- The states in which an MPMC port holds the lock (R32, R45). -/
def PState.holdsLock : PState → Bool
  | .elapsed => true
  | .pred => true
  | .xfer => true
  | .rel => true
  | .idle => false
  | .check => false
  | .adv => false
  | .done => false
  | .acqTry => false
  | .acqTimed => false
  | .cwait => false
  | .reacq => false
  | .sig => false

/-- Which command can end with which cause (R242). -/
def causeAllowed : Instr → Cause → Bool
  | .spscEnq _ _, c => c == .none || c == .full
  | .spscDeq _ _, c => c == .none || c == .empty
  | .mpmcEnq _ _, c => c == .none || c == .full || c == .lockBusy
  | .mpmcDeq _ _, c => c == .none || c == .empty || c == .lockBusy
  | .mpmcEnqt _ _, c => c == .none || c == .timeoutWait || c == .timeoutLock
  | .mpmcDeqt _ _, c => c == .none || c == .timeoutWait || c == .timeoutLock
  | .reserved _ _ _, c => c == .illegalOp
  | .spscIllegalTimed _ _ _, c => c == .illegalOp
  | .spscIllegalDeqOnP _ _, c => c == .illegalOp
  | .spscIllegalEnqOnC _ _, c => c == .illegalOp

/-- The command latched at port `p` (R101). -/
def State.latched (s : State) (p : Nat) : Instr :=
  decodeFields s.cfg.variant p (s.portAt p).op (s.portAt p).data (s.portAt p).timeout

/-- Every quantity is in its range (R8, R20, R21, R30), and the storage listing is canonical. -/
structure State.Typed (s : State) : Prop where
  legal : s.cfg.Legal
  port_count : s.ports.length = s.cfg.numPorts
  wi_lt : s.wi < s.cfg.capacity
  ri_lt : s.ri < s.cfg.capacity
  storage_wf : Memory.wf s.storage
  storage_range : ∀ e ∈ s.storage, e.1 < s.cfg.capacity ∧ e.2 < 2 ^ s.cfg.dw
  data_lt : ∀ p, (s.portAt p).data < 2 ^ s.cfg.dw
  timeout_lt : ∀ p, (s.portAt p).timeout < 2 ^ s.cfg.tow
  rspData_lt : ∀ p, (s.portAt p).rspData < 2 ^ s.cfg.dw

/-- The response of a completed command (R97, R242): `cause = 0` exactly when `ok = 1`, and the cause is one its command
can end with. -/
structure State.Responses (s : State) : Prop where
  ok_iff : ∀ p, (s.portAt p).st = .done → ((s.portAt p).rspOk = true ↔ (s.portAt p).rspCause = .none)
  allowed : ∀ p, (s.portAt p).st = .done → causeAllowed (s.latched p) (s.portAt p).rspCause = true

/-- The invariants of an SPSC instance (R40 to R44), and that it has none of the MPMC state (R23). -/
structure State.SpscInv (s : State) : Prop where
  states : ∀ p, (s.portAt p).st.spscCode.isSome = true
  roles : ∀ p, (s.portAt p).inFlight = true →
    (p = portP ∧ (s.portAt p).op = 0#3) ∨ (p = portC ∧ (s.portAt p).op = 1#3)
  guard_P : (s.portAt portP).st = .xfer ∨ (s.portAt portP).st = .adv → adv s.cfg s.wi ≠ s.ri
  guard_C : (s.portAt portC).st = .xfer ∨ (s.portAt portC).st = .adv → s.wi ≠ s.ri
  written : (s.portAt portP).st = .adv → slotAt s.storage s.wi = some (s.portAt portP).data
  read : (s.portAt portC).st = .adv → slotAt s.storage s.ri = some (s.portAt portC).rspData
  holds : ∀ k, k < s.spscCount → (slotAt s.storage ((s.ri + k) % s.cfg.capacity)).isSome = true
  no_mpmc_state : s.owner = none ∧ s.waitRTR = [] ∧ s.waitRTW = [] ∧ s.size = 0

/-- The times of the command in flight at an MPMC port (R170, R213, R215, R221, R293). -/
structure Port.TimesOk (c : Config) (now : Nat) (q : Port) : Prop where
  start_le : q.st ≠ .idle → q.start ≤ now
  unwrapped : q.inFlight = true → now - q.start < 2 ^ c.tw - 2 ^ c.tow
  granted : q.st = .elapsed → q.start ≤ q.t1 ∧ q.t1 ≤ now
  budget : opTimed q.op = true →
    q.st = .pred ∨ q.st = .cwait ∨ q.st = .reacq ∨ q.st = .xfer ∨ q.st = .rel ∨ q.st = .sig →
    q.start ≤ q.t1 ∧ q.t1 ≤ now ∧ q.t1 - q.start < q.timeout ∧
      q.deadline = deadlineOf (c.legacyDeqBudget && opDir q.op == .deq) q.start q.t1 q.timeout
  late : opTimed q.op = true → opReserved q.op = false → q.st = .done → q.rspOk = false →
    q.start + q.timeout ≤ now

/-- The invariants of an MPMC instance (R45, R46, R47, R50). -/
structure State.MpmcInv (s : State) : Prop where
  states : ∀ p, (s.portAt p).st.mpmcCode.isSome = true
  unreserved : ∀ p, (s.portAt p).inFlight = true → opReserved (s.portAt p).op = false
  nonblocking : ∀ p, (s.portAt p).st = .acqTry → opTimed (s.portAt p).op = false
  timed : ∀ p, (s.portAt p).st = .acqTimed ∨ (s.portAt p).st = .elapsed ∨ (s.portAt p).st = .cwait ∨
    (s.portAt p).st = .reacq → opTimed (s.portAt p).op = true
  lock : ∀ p, s.owner = some p ↔ (s.portAt p).st.holdsLock = true
  waits : ∀ c p, p ∈ s.waitSet c ↔ (s.portAt p).st = .cwait ∧ waitsOn (opDir (s.portAt p).op) = c
  waits_sorted : ∀ c, (s.waitSet c).Pairwise (· < ·)
  size_le : s.size ≤ s.cfg.capacity
  index : (s.ri + s.size) % s.cfg.capacity = s.wi
  transfer : ∀ p, (s.portAt p).st = .xfer → s.pred (opDir (s.portAt p).op) = true
  holds : ∀ k, k < s.size → (slotAt s.storage ((s.ri + k) % s.cfg.capacity)).isSome = true
  times : ∀ p, (s.portAt p).TimesOk s.cfg s.now

/-- A consistent state: what every reachable state is. -/
structure State.Inv (s : State) : Prop where
  typed : s.Typed
  responses : s.Responses
  spsc : s.cfg.variant = .spsc → s.SpscInv
  mpmc : s.cfg.variant = .mpmc → s.MpmcInv

end Sys2Proof.Machine
end

