-- ==== Sys2Proof/Certificates/Slice0/Obligations.lean ====
section
/-! DEFINITION. The statements for the provers. Each docstring says which rules of spec/ the statement formalises, and
which log entries where it also rests on a choice of the model. -/

open Sys2Proof Sys2Proof.Machine

/-! ## Encoding -/

/-- R104, both tables, at the default widths (R8), on an MPMC port and, for the commands without a timeout, on the SPSC
port that executes them; the response words show 0 where the data is unspecified, as the table does. -/
def Obligations.WorkedEncodings : Prop :=
  (decode Config.default 1 0x000000000000003D8 = .ok (.mpmcEnq 123 0) ∧
   decode Config.default 1 0x00000000000000E40 = .ok (.mpmcEnq 456 0) ∧
   decode Config.default 1 0x00000000000000001 = .ok (.mpmcDeq 0 0) ∧
   decode Config.default 2 0x000001F4000000E42 = .ok (.mpmcEnqt 456 1000) ∧
   decode Config.default 0 0x000003E8000000003 = .ok (.mpmcDeqt 0 2000) ∧
   decode Config.default 0 0x00000000000000004 = .ok (.reserved 0#2 0 0) ∧
   decode { Config.default with variant := .spsc } portP 0x000000000000003D8 = .ok (.spscEnq 123 0) ∧
   decode { Config.default with variant := .spsc } portC 0x00000000000000001 = .ok (.spscDeq 0 0)) ∧
  (encode Config.default (.mpmcEnq 123 0) = 0x000000000000003D8 ∧
   encode Config.default (.mpmcEnq 456 0) = 0x00000000000000E40 ∧
   encode Config.default (.mpmcDeq 0 0) = 0x00000000000000001 ∧
   encode Config.default (.mpmcEnqt 456 1000) = 0x000001F4000000E42 ∧
   encode Config.default (.mpmcDeqt 0 2000) = 0x000003E8000000003 ∧
   encode Config.default (.reserved 0#2 0 0) = 0x00000000000000004) ∧
  (packResponse Config.default true .none 0 = 0x000000001 ∧
   packResponse Config.default true .none 123 = 0x0000007B1 ∧
   packResponse Config.default false .full 0 = 0x000000002 ∧
   packResponse Config.default false .empty 0 = 0x000000004 ∧
   packResponse Config.default false .timeoutWait 0 = 0x000000006 ∧
   packResponse Config.default false .timeoutLock 0 = 0x000000008 ∧
   packResponse Config.default false .lockBusy 0 = 0x00000000A ∧
   packResponse Config.default false .illegalOp 0 = 0x00000000C)

/-- R95, R101: every well-formed command of every row, for every instance, port and operand value, is read back whole from
its word. -/
def Obligations.DecodeOfEncode : Prop :=
  ∀ (c : Config) (p : Nat) (i : Instr), i.wellFormed c p = true → decode c p (encode c i) = .ok i

/-- R95, R99, R101: each word has one meaning. What the decoder reads is well formed, and its word is the word read. -/
def Obligations.EncodeOfDecode : Prop :=
  ∀ (c : Config) (p w : Nat) (i : Instr), decode c p w = .ok i → i.wellFormed c p = true ∧ encode c i = w

/-- R98, R99, R101: the opcode map by variant and port. Every word of `CW`'s width is a command at every port: op 4 to 7 is
reserved; ENQ and DEQ execute on the SPSC port of their role and are illegal on the other; ENQT and DEQT are illegal on SPSC;
an MPMC port executes all four. -/
def Obligations.OpcodeMap : Prop :=
  ∀ (c : Config) (p w : Nat), p < c.numPorts → w < 2 ^ c.commandWidth →
    (4 ≤ w % 8 →
      ∃ low : BitVec 2, low.toNat = w % 8 - 4 ∧
        decode c p w = .ok (.reserved low (wordData c w) (wordTimeout c w))) ∧
    (c.variant = .mpmc →
      (w % 8 = 0 → decode c p w = .ok (.mpmcEnq (wordData c w) (wordTimeout c w))) ∧
      (w % 8 = 1 → decode c p w = .ok (.mpmcDeq (wordData c w) (wordTimeout c w))) ∧
      (w % 8 = 2 → decode c p w = .ok (.mpmcEnqt (wordData c w) (wordTimeout c w))) ∧
      (w % 8 = 3 → decode c p w = .ok (.mpmcDeqt (wordData c w) (wordTimeout c w)))) ∧
    (c.variant = .spsc →
      (w % 8 = 2 → decode c p w = .ok (.spscIllegalTimed .enq (wordData c w) (wordTimeout c w))) ∧
      (w % 8 = 3 → decode c p w = .ok (.spscIllegalTimed .deq (wordData c w) (wordTimeout c w))) ∧
      (p = portP →
        (w % 8 = 0 → decode c p w = .ok (.spscEnq (wordData c w) (wordTimeout c w))) ∧
        (w % 8 = 1 → decode c p w = .ok (.spscIllegalDeqOnP (wordData c w) (wordTimeout c w)))) ∧
      (p = portC →
        (w % 8 = 0 → decode c p w = .ok (.spscIllegalEnqOnC (wordData c w) (wordTimeout c w))) ∧
        (w % 8 = 1 → decode c p w = .ok (.spscDeq (wordData c w) (wordTimeout c w)))))

/-- R95, R97: the fields of the response word a port presents. Bit 0 is `ok`, bits 3..1 the cause code, bits `DW+3..4` the
dequeued element where the response carries one; no bit lies above them. -/
def Obligations.ResponseWordFields : Prop :=
  ∀ (s : State) (p : Nat),
    (bitField (s.responseWord p) 0 1 = 1 ↔ (s.portAt p).rspOk = true) ∧
    bitField (s.responseWord p) 1 3 = (s.portAt p).rspCause.code.toNat ∧
    ((s.portAt p).rspOk = true → opDir (s.portAt p).op = .deq → (s.portAt p).rspData < 2 ^ s.cfg.dw →
      bitField (s.responseWord p) 4 s.cfg.dw = (s.portAt p).rspData) ∧
    s.responseWord p < 2 ^ s.cfg.responseWidth

/-! ## Reset, and the step -/

/-- R38, R280: the reset state of every instance, at every reading of the time base. `State.reset` is the one of log 3 and
log 6. -/
def Obligations.ResetValues : Prop :=
  State.reset = State.resetFor Config.default 0 ∧
  ∀ (c : Config) (now : Nat), c.Legal →
    (State.resetFor c now).cfg = c ∧ (State.resetFor c now).now = now ∧
    (State.resetFor c now).wi = 0 ∧ (State.resetFor c now).ri = 0 ∧ (State.resetFor c now).size = 0 ∧
    (∀ j, slotAt (State.resetFor c now).storage j = none) ∧
    (State.resetFor c now).owner = none ∧
    (State.resetFor c now).waitRTR = [] ∧ (State.resetFor c now).waitRTW = [] ∧
    (State.resetFor c now).ports.length = c.numPorts ∧
    (∀ p, ((State.resetFor c now).portAt p).st = .idle) ∧
    (∀ p, (State.resetFor c now).cmdReady p = true ∧ (State.resetFor c now).rspValid p = false) ∧
    (State.resetFor c now).empty = true ∧
    ((State.resetFor c now).full = true ↔ c.variant = .spsc ∧ c.capacity = 1) ∧
    (c.variant = .spsc → capVector c = 0b001#3) ∧ (c.variant = .mpmc → capVector c = 0b111#3)

/-- R49, R280, R281, R285: `RESET` with every port `IDLE` leaves the reset state, whatever was there, and the time base as it
is. With a port not `IDLE` the model refuses the run. -/
def Obligations.ResetStep : Prop :=
  ∀ s : State, s.cfg.Legal → s.nextEvent = .reset →
    ((∀ q ∈ s.ports, q.st = .idle) →
      ∃ t, step s = .next t ∧ t.cfg = s.cfg ∧ t.now = s.now ∧ t.wi = 0 ∧ t.ri = 0 ∧ t.size = 0 ∧
        (∀ j, slotAt t.storage j = none) ∧ t.owner = none ∧ t.waitRTR = [] ∧ t.waitRTW = [] ∧
        t.ports.length = s.cfg.numPorts ∧ ∀ p, (t.portAt p).st = .idle) ∧
    ((∃ q ∈ s.ports, q.st ≠ .idle) → step s = .refused .resetInFlight)

/-- R283, U2, "a model refuses to build one": an instance whose parameters are not legal takes no step, and `CAPACITY = 0` is
one of them. What is no command, a port the instance does not have (R91, R256) or a word with a bit above `CW` (R95), is
refused by the model's choice (log 13). -/
def Obligations.RefusedTurns : Prop :=
  (∀ s : State, (¬ s.cfg.Legal → step s = .refused .illegalConfiguration) ∧ (s.cfg.capacity = 0 → ¬ s.cfg.Legal)) ∧
  ∀ (s : State) (p cw : Nat), s.cfg.Legal → s.nextEvent = .turn p (.issue cw) →
    (s.cfg.numPorts ≤ p → step s = .refused .noSuchPort) ∧
    (p < s.cfg.numPorts → 2 ^ s.cfg.commandWidth ≤ cw → step s = .refused .wordTooWide)

/-- R165, R293: `TICK` adds 1 to `now` and changes nothing else of the machine. It is refused only on an MPMC instance, after
which some command would have been in flight for `2^TW - 2^TOW` ticks or more (log 11). -/
def Obligations.TickStep : Prop :=
  ∀ s : State, s.cfg.Legal → s.nextEvent = .tick →
    ((s.cfg.variant = .mpmc ∧ ∃ q ∈ s.ports, q.inFlight = true ∧ 2 ^ s.cfg.tw - 2 ^ s.cfg.tow ≤ s.now + 1 - q.start) →
      step s = .refused .timeBaseWrap) ∧
    (¬ (s.cfg.variant = .mpmc ∧
        ∃ q ∈ s.ports, q.inFlight = true ∧ 2 ^ s.cfg.tw - 2 ^ s.cfg.tow ≤ s.now + 1 - q.start) →
      ∃ t, step s = .next t ∧ t.now = s.now + 1 ∧ s.queueKept t ∧ t.owner = s.owner ∧ s.waitersKept t ∧
        t.cfg = s.cfg ∧ t.ports = s.ports)

/-- R9, R10, R101: a turn at a port runs the command that the word in front of it decodes to: the word presented on an
`ISSUE`, else the word of the latched fields. Around it, the event is taken off the schedule and the turn given to the port
(log 1, log 15). -/
def Obligations.StepRunsDecodedCommand : Prop :=
  ∀ (s : State) (p : Nat) (a : Act) (i : Instr), s.cfg.Legal → s.nextEvent = .turn p a →
    (∀ cw, a = .issue cw → decode s.cfg p cw = .ok i) →
    ((∀ cw, a ≠ .issue cw) →
      decode s.cfg p
        (packCommand s.cfg (s.portAt p).op (s.portAt p).data (s.portAt p).timeout) = .ok i) →
    step s = exec i { s with script := s.script.tail, seq := s.seq + 1, sel := { port := p, act := a } }

/-- R91, R101: in a consistent state every turn but an `ISSUE` runs the command latched at the port; the word is not looked
at again. -/
def Obligations.LatchedCommandRuns : Prop :=
  ∀ (s : State) (p : Nat) (a : Act), s.Inv → p < s.cfg.numPorts → s.nextEvent = .turn p a → (∀ cw, a ≠ .issue cw) →
    step s = exec (s.latched p) { s with script := s.script.tail, seq := s.seq + 1, sel := { port := p, act := a } }

/-- The model's choice (log 14): the word of `withFetchWord` is what the next step issues, at the first ready port. -/
def Obligations.FetchWordRuns : Prop :=
  ∀ (s : State) (nbits w : Nat) (i : Instr), s.cfg.Legal → decode s.cfg s.firstReadyPort (w % 2 ^ nbits) = .ok i →
    (∃ q ∈ s.ports, q.st = .idle) →
    (s.portAt s.firstReadyPort).st = .idle ∧ s.firstReadyPort < s.ports.length ∧
    step (s.withFetchWord nbits w) =
      exec i { s with seq := s.seq + 1, sel := { port := s.firstReadyPort, act := .issue (w % 2 ^ nbits) } }

/-! ## Issue and accept: every command -/

/-- R123, R150: `ISSUE` of a command that is executed. On SPSC `op` and `data` are latched and the port goes to `CHECK`; on
MPMC also `timeout` and `start <- now`, and the port goes to `ACQ_TRY` or `ACQ_TIMED`; nothing else changes. Which draw a
free response value shows (log 7) is left open. -/
def Obligations.IssueLatches : Prop :=
  (∀ (s : State) (cw data timeout : Nat), s.cfg.variant = .spsc → s.me < s.ports.length → s.sel.act = .issue cw →
    s.cur.st = .idle →
    (∃ t n, exec (.spscEnq data timeout) s = .next t ∧
      s.onlyPort t { s.cur with op := 0#3, data := data, st := .check, draw := n }) ∧
    (∃ t n, exec (.spscDeq data timeout) s = .next t ∧
      s.onlyPort t { s.cur with op := 1#3, data := data, st := .check, draw := n })) ∧
  (∀ (s : State) (cw data timeout : Nat), s.cfg.variant = .mpmc → s.me < s.ports.length → s.sel.act = .issue cw →
    s.cur.st = .idle →
    (∃ t n, exec (.mpmcEnq data timeout) s = .next t ∧
      s.onlyPort t { s.cur with op := 0#3, data := data, timeout := timeout, start := s.now, st := .acqTry, draw := n }) ∧
    (∃ t n, exec (.mpmcDeq data timeout) s = .next t ∧
      s.onlyPort t { s.cur with op := 1#3, data := data, timeout := timeout, start := s.now, st := .acqTry, draw := n }) ∧
    (∃ t n, exec (.mpmcEnqt data timeout) s = .next t ∧
      s.onlyPort t { s.cur with op := 2#3, data := data, timeout := timeout, start := s.now, st := .acqTimed, draw := n }) ∧
    (∃ t n, exec (.mpmcDeqt data timeout) s = .next t ∧
      s.onlyPort t { s.cur with op := 3#3, data := data, timeout := timeout, start := s.now, st := .acqTimed, draw := n }))

/-- R99, R123, R150: `ISSUE` of an illegal command. It is accepted, completes at once with `ok = 0` and `ILLEGAL_OP`, and
changes no queue state, no lock and no wait set. -/
def Obligations.IllegalIssue : Prop :=
  ∀ (s : State) (cw data timeout : Nat), s.me < s.ports.length → s.sel.act = .issue cw → s.cur.st = .idle →
    (s.cfg.variant = .spsc →
      (∀ dir : Dir, ∃ t n, exec (.spscIllegalTimed dir data timeout) s = .next t ∧
        s.onlyPort t ({ s.cur with op := if dir = Dir.enq then 2#3 else 3#3, data := data, draw := n }.completed
          false .illegalOp)) ∧
      (∃ t n, exec (.spscIllegalDeqOnP data timeout) s = .next t ∧
        s.onlyPort t ({ s.cur with op := 1#3, data := data, draw := n }.completed false .illegalOp)) ∧
      (∃ t n, exec (.spscIllegalEnqOnC data timeout) s = .next t ∧
        s.onlyPort t ({ s.cur with op := 0#3, data := data, draw := n }.completed false .illegalOp)) ∧
      (∀ low : BitVec 2, ∃ t n, exec (.reserved low data timeout) s = .next t ∧
        s.onlyPort t ({ s.cur with op := BitVec.ofNat 3 (4 + low.toNat), data := data, draw := n }.completed
          false .illegalOp))) ∧
    (s.cfg.variant = .mpmc →
      ∀ low : BitVec 2, ∃ t n, exec (.reserved low data timeout) s = .next t ∧
        s.onlyPort t ({ s.cur with
          op := BitVec.ofNat 3 (4 + low.toNat), data := data, timeout := timeout, start := s.now, draw := n }.completed
          false .illegalOp))

/-- R131, R168, R248: `ACCEPT` of every command returns the port from `DONE` to `IDLE`; the latches keep their values and
nothing else changes. -/
def Obligations.AcceptReturnsToIdle : Prop :=
  ∀ (i : Instr) (s : State), s.me < s.ports.length → s.sel.act = .accept → s.cur.st = .done →
    ∃ t, exec i s = .next t ∧ s.onlyPort t { s.cur with st := .idle }

/-- A turn in which its agent has no enabled step changes nothing: that it is a step at all is the model's choice (log 2).
A command presented to a port that is not `IDLE` is not accepted (R91); `ACCEPT` needs `DONE` (R131, R168); no port steps in
`IDLE` or `DONE`; no step of a port belongs to an illegal command (R99); the guards of R153, R154, R155, R162 and R163. -/
def Obligations.DisabledTurnsChangeNothing : Prop :=
  ∀ (i : Instr) (s : State),
    ((∃ cw, s.sel.act = .issue cw) → s.cur.st ≠ .idle → exec i s = .next s) ∧
    (s.sel.act = .accept → s.cur.st ≠ .done → exec i s = .next s) ∧
    (∀ alt wake, s.sel.act = .move alt wake →
      (s.cur.st = .idle ∨ s.cur.st = .done → exec i s = .next s) ∧
      (∀ data timeout,
        ((∃ low, i = .reserved low data timeout) ∨ (∃ dir, i = .spscIllegalTimed dir data timeout) ∨
          i = .spscIllegalDeqOnP data timeout ∨ i = .spscIllegalEnqOnC data timeout → exec i s = .next s) ∧
        (i = .mpmcEnqt data timeout ∨ i = .mpmcDeqt data timeout →
          (s.cur.st = .acqTimed → alt = false → s.owner ≠ none → exec i s = .next s) ∧
          (s.cur.st = .acqTimed → alt = true → s.now - s.cur.start < s.cur.timeout → exec i s = .next s) ∧
          (s.cur.st = .reacq → s.owner ≠ none → exec i s = .next s) ∧
          (s.cur.st = .cwait → alt = false → s.now < s.cur.deadline → exec i s = .next s) ∧
          (s.cur.st = .cwait → alt = true → s.cfg.spuriousWake = false → exec i s = .next s))))

/-! ## SPSC: the steps -/

/-- R124, R125, R126: `P_CHECK` fails `FULL` or goes on; `P_WRITE` stores the latched element in slot `wi` and moves no index;
`P_ADV` advances `wi`, touches no slot and completes with success. -/
def Obligations.SpscEnqSteps : Prop :=
  (∀ (s : State) (data timeout : Nat), s.turnIn .check →
    ((s.wi + 1) % s.cfg.capacity = s.ri →
      ∃ t, exec (.spscEnq data timeout) s = .next t ∧ s.onlyPort t (s.cur.completed false .full)) ∧
    ((s.wi + 1) % s.cfg.capacity ≠ s.ri →
      ∃ t, exec (.spscEnq data timeout) s = .next t ∧ s.onlyPort t { s.cur with st := .xfer })) ∧
  (∀ (s : State) (data timeout : Nat),
    (s.turnIn .xfer → s.wi < s.cfg.capacity →
      ∃ t, exec (.spscEnq data timeout) s = .next t ∧ slotAt t.storage s.wi = some s.cur.data ∧
        (∀ j, j ≠ s.wi → slotAt t.storage j = slotAt s.storage j) ∧
        t.wi = s.wi ∧ t.ri = s.ri ∧ t.size = s.size ∧ t.owner = s.owner ∧ s.waitersKept t ∧ s.restKept t ∧
        s.portBecomes t s.me { s.cur with st := .adv }) ∧
    (s.turnIn .adv →
      ∃ t, exec (.spscEnq data timeout) s = .next t ∧ t.wi = (s.wi + 1) % s.cfg.capacity ∧ t.ri = s.ri ∧
        t.size = s.size ∧ (∀ j, slotAt t.storage j = slotAt s.storage j) ∧ t.owner = s.owner ∧ s.waitersKept t ∧
        s.restKept t ∧ s.portBecomes t s.me (s.cur.completed true .none)))

/-- R128, R129, R130, R66: `C_CHECK` fails `EMPTY` or goes on; `C_READ` reads slot `ri`, which keeps its value, and moves no
index; `C_ADV` advances `ri` and completes with success. -/
def Obligations.SpscDeqSteps : Prop :=
  (∀ (s : State) (data timeout : Nat), s.turnIn .check →
    (s.wi = s.ri →
      ∃ t, exec (.spscDeq data timeout) s = .next t ∧ s.onlyPort t (s.cur.completed false .empty)) ∧
    (s.wi ≠ s.ri →
      ∃ t, exec (.spscDeq data timeout) s = .next t ∧ s.onlyPort t { s.cur with st := .xfer })) ∧
  (∀ (s : State) (data timeout v : Nat),
    (s.turnIn .xfer → s.ri < s.cfg.capacity → slotAt s.storage s.ri = some v →
      ∃ t, exec (.spscDeq data timeout) s = .next t ∧ s.onlyPort t { s.cur with rspData := v, st := .adv }) ∧
    (s.turnIn .adv →
      ∃ t, exec (.spscDeq data timeout) s = .next t ∧ t.ri = (s.ri + 1) % s.cfg.capacity ∧ t.wi = s.wi ∧
        t.size = s.size ∧ (∀ j, slotAt t.storage j = slotAt s.storage j) ∧ t.owner = s.owner ∧ s.waitersKept t ∧
        s.restKept t ∧ s.portBecomes t s.me (s.cur.completed true .none)))

/-! ## MPMC: the steps -/

/-- R152 to R156: the lock steps. `LOCK_TRY` of the nonblocking commands takes a free lock or fails `LOCK_BUSY`; `LOCK_TIMED`
of the timed ones is granted a free lock, whatever the time, or expires without touching it; `LOCK_REACQ` takes a free lock;
`UNLOCK` of all four releases it. -/
def Obligations.LockSteps : Prop :=
  (∀ (i : Instr) (s : State) (data timeout : Nat), i = .mpmcEnq data timeout ∨ i = .mpmcDeq data timeout →
    s.turnIn .acqTry →
    (s.owner = none →
      ∃ t, exec i s = .next t ∧ s.portAndOwner t (some s.me) { s.cur with st := .pred }) ∧
    (s.owner ≠ none → ∃ t, exec i s = .next t ∧ s.onlyPort t (s.cur.completed false .lockBusy))) ∧
  (∀ (i : Instr) (s : State) (data timeout wake : Nat), i = .mpmcEnqt data timeout ∨ i = .mpmcDeqt data timeout →
    s.me < s.ports.length → s.cur.st = .acqTimed →
    (s.sel.act = .move false wake → s.owner = none →
      ∃ t, exec i s = .next t ∧ s.portAndOwner t (some s.me) { s.cur with t1 := s.now, st := .elapsed }) ∧
    (s.sel.act = .move true wake → s.cur.timeout ≤ s.now - s.cur.start →
      ∃ t, exec i s = .next t ∧ s.onlyPort t (s.cur.completed false .timeoutLock))) ∧
  (∀ (i : Instr) (s : State) (data timeout : Nat), i = .mpmcEnqt data timeout ∨ i = .mpmcDeqt data timeout →
    s.turnIn .reacq → s.owner = none →
    ∃ t, exec i s = .next t ∧ s.portAndOwner t (some s.me) { s.cur with st := .pred }) ∧
  (∀ (i : Instr) (s : State) (data timeout : Nat),
    i = .mpmcEnq data timeout ∨ i = .mpmcDeq data timeout ∨ i = .mpmcEnqt data timeout ∨ i = .mpmcDeqt data timeout →
    s.turnIn .rel → ∃ t, exec i s = .next t ∧ s.portAndOwner t none { s.cur with st := .sig })

/-- R157: `ELAPSED` of the timed commands: late, or with the deadline `t1 + (timeout - elapsed)`, or, for a DEQT with
`LEGACY_DEQ_BUDGET = true`, `t1 + timeout`. -/
def Obligations.ElapsedJudged : Prop :=
  ∀ (s : State) (data timeout : Nat), s.turnIn .elapsed →
    (s.cur.timeout ≤ s.cur.t1 - s.cur.start →
      (∃ t, exec (.mpmcEnqt data timeout) s = .next t ∧
        s.portAndOwner t none (s.cur.completed false .timeoutLock)) ∧
      (∃ t, exec (.mpmcDeqt data timeout) s = .next t ∧
        s.portAndOwner t none (s.cur.completed false .timeoutLock))) ∧
    (s.cur.t1 - s.cur.start < s.cur.timeout →
      (∃ t, exec (.mpmcEnqt data timeout) s = .next t ∧
        s.onlyPort t { s.cur with
          deadline := s.cur.t1 + (s.cur.timeout - (s.cur.t1 - s.cur.start)), st := .pred }) ∧
      (s.cfg.legacyDeqBudget = false → ∃ t, exec (.mpmcDeqt data timeout) s = .next t ∧
        s.onlyPort t { s.cur with
          deadline := s.cur.t1 + (s.cur.timeout - (s.cur.t1 - s.cur.start)), st := .pred }) ∧
      (s.cfg.legacyDeqBudget = true → ∃ t, exec (.mpmcDeqt data timeout) s = .next t ∧
        s.onlyPort t { s.cur with deadline := s.cur.t1 + s.cur.timeout, st := .pred }))

/-- R158, first and second branch: `PRED` of the nonblocking commands. A true predicate goes on with the lock held; a false
one releases the lock and fails with `FULL` or `EMPTY`. -/
def Obligations.PredNonblocking : Prop :=
  ∀ (s : State) (data timeout : Nat), s.turnIn .pred →
    (s.size < s.cfg.capacity →
      ∃ t, exec (.mpmcEnq data timeout) s = .next t ∧ s.onlyPort t { s.cur with st := .xfer }) ∧
    (¬ s.size < s.cfg.capacity →
      ∃ t, exec (.mpmcEnq data timeout) s = .next t ∧ s.portAndOwner t none (s.cur.completed false .full)) ∧
    (0 < s.size →
      ∃ t, exec (.mpmcDeq data timeout) s = .next t ∧ s.onlyPort t { s.cur with st := .xfer }) ∧
    (s.size = 0 →
      ∃ t, exec (.mpmcDeq data timeout) s = .next t ∧ s.portAndOwner t none (s.cur.completed false .empty))

/-- R158, R160, R217: `PRED` of the timed commands. The predicate is tested before the deadline; a false one at or after the
deadline fails; before it, the port releases the lock and enters its wait set in the one step. -/
def Obligations.PredTimed : Prop :=
  ∀ (s : State) (data timeout : Nat), s.turnIn .pred →
    (s.size < s.cfg.capacity →
      ∃ t, exec (.mpmcEnqt data timeout) s = .next t ∧ s.onlyPort t { s.cur with st := .xfer }) ∧
    (¬ s.size < s.cfg.capacity → s.cur.deadline ≤ s.now →
      ∃ t, exec (.mpmcEnqt data timeout) s = .next t ∧ s.portAndOwner t none (s.cur.completed false .timeoutWait)) ∧
    (¬ s.size < s.cfg.capacity → s.now < s.cur.deadline →
      ∃ t, exec (.mpmcEnqt data timeout) s = .next t ∧ s.queueKept t ∧ t.owner = none ∧ t.waitRTR = s.waitRTR ∧
        (∀ r, r ∈ t.waitRTW ↔ r = s.me ∨ r ∈ s.waitRTW) ∧ s.restKept t ∧
        s.portBecomes t s.me { s.cur with st := .cwait }) ∧
    (0 < s.size →
      ∃ t, exec (.mpmcDeqt data timeout) s = .next t ∧ s.onlyPort t { s.cur with st := .xfer }) ∧
    (s.size = 0 → s.cur.deadline ≤ s.now →
      ∃ t, exec (.mpmcDeqt data timeout) s = .next t ∧ s.portAndOwner t none (s.cur.completed false .timeoutWait)) ∧
    (s.size = 0 → s.now < s.cur.deadline →
      ∃ t, exec (.mpmcDeqt data timeout) s = .next t ∧ s.queueKept t ∧ t.owner = none ∧ t.waitRTW = s.waitRTW ∧
        (∀ r, r ∈ t.waitRTR ↔ r = s.me ∨ r ∈ s.waitRTR) ∧ s.restKept t ∧
        s.portBecomes t s.me { s.cur with st := .cwait })

/-- R162, R163: a waiting port leaves its wait set at its deadline, or, where `SPURIOUS_WAKE = true`, for no reason. -/
def Obligations.WaitExits : Prop :=
  ∀ (s : State) (data timeout wake : Nat), s.me < s.ports.length → s.cur.st = .cwait →
    (s.sel.act = .move false wake ∧ s.cur.deadline ≤ s.now ∨
      s.sel.act = .move true wake ∧ s.cfg.spuriousWake = true) →
    (∃ t, exec (.mpmcEnqt data timeout) s = .next t ∧ s.queueKept t ∧ t.owner = s.owner ∧ t.waitRTR = s.waitRTR ∧
      (∀ r, r ∈ t.waitRTW ↔ r ∈ s.waitRTW ∧ r ≠ s.me) ∧ s.restKept t ∧
      s.portBecomes t s.me { s.cur with st := .reacq }) ∧
    (∃ t, exec (.mpmcDeqt data timeout) s = .next t ∧ s.queueKept t ∧ t.owner = s.owner ∧ t.waitRTW = s.waitRTW ∧
      (∀ r, r ∈ t.waitRTR ↔ r ∈ s.waitRTR ∧ r ≠ s.me) ∧ s.restKept t ∧
      s.portBecomes t s.me { s.cur with st := .reacq })

/-- R166: `DO_ENQ` of both enqueues. The stored slot is slot `wi`. -/
def Obligations.DoEnq : Prop :=
  ∀ (i : Instr) (s : State) (data timeout : Nat), i = .mpmcEnq data timeout ∨ i = .mpmcEnqt data timeout →
    s.turnIn .xfer → s.wi < s.cfg.capacity →
    ∃ t, exec i s = .next t ∧ slotAt t.storage s.wi = some s.cur.data ∧
      (∀ j, j ≠ s.wi → slotAt t.storage j = slotAt s.storage j) ∧
      t.wi = (s.wi + 1) % s.cfg.capacity ∧ t.size = s.size + 1 ∧ t.ri = s.ri ∧ t.owner = s.owner ∧ s.waitersKept t ∧
      s.restKept t ∧ s.portBecomes t s.me { s.cur with st := .rel }

/-- R167, R66: `DO_DEQ` of both dequeues. No slot changes. -/
def Obligations.DoDeq : Prop :=
  ∀ (i : Instr) (s : State) (data timeout v : Nat), i = .mpmcDeq data timeout ∨ i = .mpmcDeqt data timeout →
    s.turnIn .xfer → s.ri < s.cfg.capacity → slotAt s.storage s.ri = some v → 0 < s.size →
    ∃ t, exec i s = .next t ∧ (∀ j, slotAt t.storage j = slotAt s.storage j) ∧
      t.ri = (s.ri + 1) % s.cfg.capacity ∧ t.size + 1 = s.size ∧ t.wi = s.wi ∧ t.owner = s.owner ∧ s.waitersKept t ∧
      s.restKept t ∧ s.portBecomes t s.me { s.cur with rspData := v, st := .rel }

/-- R161, R164, R171: `SIGNAL`. An enqueue signals `waitRTR`, a dequeue `waitRTW`. With no waiter the signal is lost; else
exactly one member leaves the set and goes to `REACQ`; any member can be the one, by some `wake_choice`. -/
def Obligations.SignalStep : Prop :=
  ∀ (s : State) (data timeout : Nat), s.turnIn .sig →
    (∀ i, i = .mpmcEnq data timeout ∨ i = .mpmcEnqt data timeout →
      (s.waitRTR = [] → ∃ t, exec i s = .next t ∧ s.onlyPort t (s.cur.completed true .none)) ∧
      (s.waitRTR ≠ [] → (∀ w ∈ s.waitRTR, w < s.ports.length ∧ w ≠ s.me) →
        (∃ t w, exec i s = .next t ∧ w ∈ s.waitRTR ∧ (∀ r, r ∈ t.waitRTR ↔ r ∈ s.waitRTR ∧ r ≠ w) ∧
          t.waitRTW = s.waitRTW ∧ s.queueKept t ∧ t.owner = s.owner ∧ s.restKept t ∧
          ∀ r, t.portAt r = if r = s.me then s.cur.completed true .none
            else if r = w then { s.portAt w with st := .reacq } else s.portAt r) ∧
        ∀ w ∈ s.waitRTR, ∃ wake t, exec i (s.withTurn s.me (.move false wake)) = .next t ∧
          (t.portAt w).st = .reacq ∧ w ∉ t.waitRTR)) ∧
    (∀ i, i = .mpmcDeq data timeout ∨ i = .mpmcDeqt data timeout →
      (s.waitRTW = [] → ∃ t, exec i s = .next t ∧ s.onlyPort t (s.cur.completed true .none)) ∧
      (s.waitRTW ≠ [] → (∀ w ∈ s.waitRTW, w < s.ports.length ∧ w ≠ s.me) →
        (∃ t w, exec i s = .next t ∧ w ∈ s.waitRTW ∧ (∀ r, r ∈ t.waitRTW ↔ r ∈ s.waitRTW ∧ r ≠ w) ∧
          t.waitRTR = s.waitRTR ∧ s.queueKept t ∧ t.owner = s.owner ∧ s.restKept t ∧
          ∀ r, t.portAt r = if r = s.me then s.cur.completed true .none
            else if r = w then { s.portAt w with st := .reacq } else s.portAt r) ∧
        ∀ w ∈ s.waitRTW, ∃ wake t, exec i (s.withTurn s.me (.move false wake)) = .next t ∧
          (t.portAt w).st = .reacq ∧ w ∉ t.waitRTW))

/-! ## Frames: what a turn of a command leaves as it was -/

/-- SPSC. ENQ moves `wi` only in `ADV` and stores only in `XFER`, to slot `wi`; DEQ moves `ri` only in `ADV`, stores
nothing, and writes `rsp_data` only in `XFER`; no other port, no other latch (R33, R123 to R131). -/
def Obligations.FrameSpsc : Prop :=
  ∀ (i : Instr) (s t : State) (data timeout : Nat), i = .spscEnq data timeout ∨ i = .spscDeq data timeout →
    s.cfg.variant = .spsc → s.me < s.ports.length → exec i s = .next t →
    t.size = s.size ∧ t.owner = s.owner ∧ s.waitersKept t ∧ s.restKept t ∧ t.ports.length = s.ports.length ∧
    (∀ r, r ≠ s.me → t.portAt r = s.portAt r) ∧
    (t.portAt s.me).timeout = s.cur.timeout ∧ (t.portAt s.me).start = s.cur.start ∧
    (t.portAt s.me).t1 = s.cur.t1 ∧ (t.portAt s.me).deadline = s.cur.deadline ∧
    ((t.portAt s.me).rspOk ≠ s.cur.rspOk ∨ (t.portAt s.me).rspCause ≠ s.cur.rspCause →
      s.cur.st ≠ .done ∧ (t.portAt s.me).st = .done) ∧
    ((∀ cw, s.sel.act ≠ .issue cw) → (t.portAt s.me).op = s.cur.op ∧ (t.portAt s.me).data = s.cur.data) ∧
    (i = .spscEnq data timeout →
      t.ri = s.ri ∧ (t.wi ≠ s.wi → s.cur.st = .adv ∧ ∃ alt wake, s.sel.act = .move alt wake) ∧
      (t.portAt s.me).rspData = s.cur.rspData ∧
      (s.cur.st = .xfer → (∃ alt wake, s.sel.act = .move alt wake) →
        ∀ j, j ≠ s.wi → slotAt t.storage j = slotAt s.storage j) ∧
      (¬ (s.cur.st = .xfer ∧ ∃ alt wake, s.sel.act = .move alt wake) →
        ∀ j, slotAt t.storage j = slotAt s.storage j)) ∧
    (i = .spscDeq data timeout →
      t.wi = s.wi ∧ (t.ri ≠ s.ri → s.cur.st = .adv ∧ ∃ alt wake, s.sel.act = .move alt wake) ∧
      ((t.portAt s.me).rspData ≠ s.cur.rspData → s.cur.st = .xfer ∧ ∃ alt wake, s.sel.act = .move alt wake) ∧
      ∀ j, slotAt t.storage j = slotAt s.storage j)

/-- MPMC enqueues. `wi` and `size` move and a slot is stored to, slot `wi`, only in `XFER`; `ri` and `rsp_data` never; the
only other port that changes is one that a `SIGNAL` wakes; `t1` and `deadline` change only in a timed command's `ACQ_TIMED`
and `ELAPSED` (R30, R33, R150 to R168). -/
def Obligations.FrameMpmcEnqueue : Prop :=
  ∀ (i : Instr) (s t : State) (data timeout : Nat), i = .mpmcEnq data timeout ∨ i = .mpmcEnqt data timeout →
    s.me < s.ports.length → exec i s = .next t →
    t.ri = s.ri ∧ s.restKept t ∧ t.ports.length = s.ports.length ∧ (t.portAt s.me).rspData = s.cur.rspData ∧
    (∀ r, r ≠ s.me → t.portAt r = s.portAt r ∨
      (s.cur.st = .sig ∧ r ∈ s.waitRTR ∧ t.portAt r = { s.portAt r with st := .reacq })) ∧
    (t.waitRTR ≠ s.waitRTR → s.cur.st = .sig) ∧
    (t.waitRTW ≠ s.waitRTW → i = .mpmcEnqt data timeout ∧ (s.cur.st = .pred ∨ s.cur.st = .cwait)) ∧
    (t.owner ≠ s.owner → s.cur.st = .acqTry ∨ s.cur.st = .acqTimed ∨ s.cur.st = .reacq ∨ s.cur.st = .elapsed ∨
      s.cur.st = .pred ∨ s.cur.st = .rel) ∧
    ((t.portAt s.me).rspOk ≠ s.cur.rspOk ∨ (t.portAt s.me).rspCause ≠ s.cur.rspCause →
      s.cur.st ≠ .done ∧ (t.portAt s.me).st = .done) ∧
    (t.wi ≠ s.wi ∨ t.size ≠ s.size → s.cur.st = .xfer ∧ ∃ alt wake, s.sel.act = .move alt wake) ∧
    ((∀ cw, s.sel.act ≠ .issue cw) →
      (t.portAt s.me).op = s.cur.op ∧ (t.portAt s.me).data = s.cur.data ∧
      (t.portAt s.me).timeout = s.cur.timeout ∧ (t.portAt s.me).start = s.cur.start) ∧
    ((t.portAt s.me).t1 ≠ s.cur.t1 → i = .mpmcEnqt data timeout ∧ s.cur.st = .acqTimed) ∧
    ((t.portAt s.me).deadline ≠ s.cur.deadline → i = .mpmcEnqt data timeout ∧ s.cur.st = .elapsed) ∧
    (s.cur.st = .xfer → (∃ alt wake, s.sel.act = .move alt wake) →
      ∀ j, j ≠ s.wi → slotAt t.storage j = slotAt s.storage j) ∧
    (¬ (s.cur.st = .xfer ∧ ∃ alt wake, s.sel.act = .move alt wake) → ∀ j, slotAt t.storage j = slotAt s.storage j)

/-- MPMC dequeues. `ri`, `size` and `rsp_data` change only in `XFER`; `wi` and the slots never (R30, R33, R66, R150 to
R168). -/
def Obligations.FrameMpmcDequeue : Prop :=
  ∀ (i : Instr) (s t : State) (data timeout : Nat), i = .mpmcDeq data timeout ∨ i = .mpmcDeqt data timeout →
    s.me < s.ports.length → exec i s = .next t →
    t.wi = s.wi ∧ (∀ j, slotAt t.storage j = slotAt s.storage j) ∧ s.restKept t ∧
    t.ports.length = s.ports.length ∧
    (∀ r, r ≠ s.me → t.portAt r = s.portAt r ∨
      (s.cur.st = .sig ∧ r ∈ s.waitRTW ∧ t.portAt r = { s.portAt r with st := .reacq })) ∧
    (t.waitRTW ≠ s.waitRTW → s.cur.st = .sig) ∧
    (t.waitRTR ≠ s.waitRTR → i = .mpmcDeqt data timeout ∧ (s.cur.st = .pred ∨ s.cur.st = .cwait)) ∧
    (t.owner ≠ s.owner → s.cur.st = .acqTry ∨ s.cur.st = .acqTimed ∨ s.cur.st = .reacq ∨ s.cur.st = .elapsed ∨
      s.cur.st = .pred ∨ s.cur.st = .rel) ∧
    ((t.portAt s.me).rspOk ≠ s.cur.rspOk ∨ (t.portAt s.me).rspCause ≠ s.cur.rspCause →
      s.cur.st ≠ .done ∧ (t.portAt s.me).st = .done) ∧
    (t.ri ≠ s.ri ∨ t.size ≠ s.size ∨ (t.portAt s.me).rspData ≠ s.cur.rspData →
      s.cur.st = .xfer ∧ ∃ alt wake, s.sel.act = .move alt wake) ∧
    ((∀ cw, s.sel.act ≠ .issue cw) →
      (t.portAt s.me).op = s.cur.op ∧ (t.portAt s.me).data = s.cur.data ∧
      (t.portAt s.me).timeout = s.cur.timeout ∧ (t.portAt s.me).start = s.cur.start) ∧
    ((t.portAt s.me).t1 ≠ s.cur.t1 → i = .mpmcDeqt data timeout ∧ s.cur.st = .acqTimed) ∧
    ((t.portAt s.me).deadline ≠ s.cur.deadline → i = .mpmcDeqt data timeout ∧ s.cur.st = .elapsed)

/-- Illegal commands. Nothing but the port's own record ever changes, and of it neither `rsp_data`, `t1` nor `deadline`; `op`
and `data` only at `ISSUE`, `timeout` and `start` only there and only on MPMC (R99, R123, R150). -/
def Obligations.FrameIllegal : Prop :=
  ∀ (i : Instr) (s t : State) (data timeout : Nat),
    (∃ low, i = .reserved low data timeout) ∨ (∃ dir, i = .spscIllegalTimed dir data timeout) ∨
      i = .spscIllegalDeqOnP data timeout ∨ i = .spscIllegalEnqOnC data timeout →
    s.me < s.ports.length → exec i s = .next t →
    s.queueKept t ∧ t.owner = s.owner ∧ s.waitersKept t ∧ s.restKept t ∧ t.ports.length = s.ports.length ∧
    (∀ r, r ≠ s.me → t.portAt r = s.portAt r) ∧
    (t.portAt s.me).rspData = s.cur.rspData ∧ (t.portAt s.me).t1 = s.cur.t1 ∧
    (t.portAt s.me).deadline = s.cur.deadline ∧
    ((t.portAt s.me).rspOk ≠ s.cur.rspOk ∨ (t.portAt s.me).rspCause ≠ s.cur.rspCause →
      s.cur.st ≠ .done ∧ (t.portAt s.me).st = .done) ∧
    ((∀ cw, s.sel.act ≠ .issue cw) → (t.portAt s.me).op = s.cur.op ∧ (t.portAt s.me).data = s.cur.data) ∧
    ((∀ cw, s.sel.act ≠ .issue cw) ∨ s.cfg.variant = .spsc →
      (t.portAt s.me).timeout = s.cur.timeout ∧ (t.portAt s.me).start = s.cur.start)

/-! ## Whole commands, one at a time -/

/-- R135, R133, R121, R122: an SPSC command whose port takes its turns undisturbed, against the abstract queue. ENQ appends
in three steps if fewer than `CAPACITY - 1` elements are held, else fails `FULL` in one; DEQ removes and returns the head in
three steps, or fails `EMPTY` in one. The other port may be in any state. -/
def Obligations.SpscSequential : Prop :=
  ∀ (s : State) (cw data timeout : Nat) (alt : Bool) (wake : Nat), s.Inv → s.cfg.variant = .spsc → s.cur.st = .idle →
    (s.me = portP →
      (s.contents.length < s.cfg.capacity - 1 →
        ∃ t, runActs (.spscEnq data timeout)
            [.issue cw, .move alt wake, .move alt wake, .move alt wake] s = .next t ∧
          (t.portAt portP).st = .done ∧ (t.portAt portP).rspOk = true ∧ (t.portAt portP).rspCause = .none ∧
          t.contents = s.contents ++ [data] ∧ t.portAt portC = s.portAt portC) ∧
      (s.cfg.capacity - 1 ≤ s.contents.length →
        ∃ t, runActs (.spscEnq data timeout) [.issue cw, .move alt wake] s = .next t ∧
          (t.portAt portP).st = .done ∧ (t.portAt portP).rspOk = false ∧ (t.portAt portP).rspCause = .full ∧
          t.contents = s.contents ∧ t.portAt portC = s.portAt portC)) ∧
    (s.me = portC →
      (∀ v rest, s.contents = v :: rest →
        ∃ t, runActs (.spscDeq data timeout)
            [.issue cw, .move alt wake, .move alt wake, .move alt wake] s = .next t ∧
          (t.portAt portC).st = .done ∧ (t.portAt portC).rspOk = true ∧ (t.portAt portC).rspCause = .none ∧
          (t.portAt portC).rspData = v ∧ t.contents = rest ∧ t.portAt portP = s.portAt portP) ∧
      (s.contents = [] →
        ∃ t, runActs (.spscDeq data timeout) [.issue cw, .move alt wake] s = .next t ∧
          (t.portAt portC).st = .done ∧ (t.portAt portC).rspOk = false ∧ (t.portAt portC).rspCause = .empty ∧
          t.contents = [] ∧ t.portAt portP = s.portAt portP))

/-- R193, R196, R191, R192, R194: an MPMC nonblocking command whose port takes its turns undisturbed. With the lock free it
is the abstract queue's operation, in five steps on success, two on `FULL` or `EMPTY`; with the lock held it fails
`LOCK_BUSY` in one. -/
def Obligations.MpmcNonblockingSequential : Prop :=
  ∀ (s : State) (cw data timeout : Nat) (alt : Bool) (wake : Nat), s.Inv → s.cfg.variant = .mpmc →
    s.me < s.cfg.numPorts → s.cur.st = .idle →
    (s.owner = none →
      (s.contents.length < s.cfg.capacity →
        ∃ t, runActs (.mpmcEnq data timeout) (.issue cw :: List.replicate 5 (.move alt wake)) s = .next t ∧
          (t.portAt s.me).st = .done ∧ (t.portAt s.me).rspOk = true ∧ (t.portAt s.me).rspCause = .none ∧
          t.contents = s.contents ++ [data] ∧ t.owner = none) ∧
      (s.cfg.capacity ≤ s.contents.length →
        ∃ t, runActs (.mpmcEnq data timeout) [.issue cw, .move alt wake, .move alt wake] s = .next t ∧
          (t.portAt s.me).st = .done ∧ (t.portAt s.me).rspOk = false ∧ (t.portAt s.me).rspCause = .full ∧
          t.contents = s.contents ∧ t.owner = none) ∧
      (∀ v rest, s.contents = v :: rest →
        ∃ t, runActs (.mpmcDeq data timeout) (.issue cw :: List.replicate 5 (.move alt wake)) s = .next t ∧
          (t.portAt s.me).st = .done ∧ (t.portAt s.me).rspOk = true ∧ (t.portAt s.me).rspCause = .none ∧
          (t.portAt s.me).rspData = v ∧ t.contents = rest ∧ t.owner = none) ∧
      (s.contents = [] →
        ∃ t, runActs (.mpmcDeq data timeout) [.issue cw, .move alt wake, .move alt wake] s = .next t ∧
          (t.portAt s.me).st = .done ∧ (t.portAt s.me).rspOk = false ∧ (t.portAt s.me).rspCause = .empty ∧
          t.contents = [] ∧ t.owner = none)) ∧
    (s.owner ≠ none →
      ∀ i, i = .mpmcEnq data timeout ∨ i = .mpmcDeq data timeout →
        ∃ t, runActs i [.issue cw, .move alt wake] s = .next t ∧
          (t.portAt s.me).st = .done ∧ (t.portAt s.me).rspOk = false ∧ (t.portAt s.me).rspCause = .lockBusy ∧
          t.contents = s.contents ∧ t.owner = s.owner)

/-- R223, R211, R212, R227: a timed command whose port takes its turns undisturbed, with the lock free and a timeout of at
least one tick. If its predicate holds it transfers and completes in six steps; if not, after three it waits, holding
nothing, with the deadline `start + timeout`. -/
def Obligations.TimedSequential : Prop :=
  ∀ (s : State) (cw data timeout wake : Nat), s.Inv → s.cfg.variant = .mpmc → s.me < s.cfg.numPorts →
    s.cur.st = .idle → s.owner = none → 1 ≤ timeout →
    (s.contents.length < s.cfg.capacity →
      ∃ t, runActs (.mpmcEnqt data timeout) (.issue cw :: List.replicate 6 (.move false wake)) s = .next t ∧
        (t.portAt s.me).st = .done ∧ (t.portAt s.me).rspOk = true ∧ (t.portAt s.me).rspCause = .none ∧
        t.contents = s.contents ++ [data] ∧ t.owner = none) ∧
    (∀ v rest, s.contents = v :: rest →
      ∃ t, runActs (.mpmcDeqt data timeout) (.issue cw :: List.replicate 6 (.move false wake)) s = .next t ∧
        (t.portAt s.me).st = .done ∧ (t.portAt s.me).rspOk = true ∧ (t.portAt s.me).rspCause = .none ∧
        (t.portAt s.me).rspData = v ∧ t.contents = rest ∧ t.owner = none) ∧
    (s.cfg.capacity ≤ s.contents.length →
      ∃ t, runActs (.mpmcEnqt data timeout) (.issue cw :: List.replicate 3 (.move false wake)) s = .next t ∧
        (t.portAt s.me).st = .cwait ∧ (t.portAt s.me).deadline = s.now + timeout ∧ s.me ∈ t.waitRTW ∧
        t.contents = s.contents ∧ t.owner = none) ∧
    (s.contents = [] →
      ∃ t, runActs (.mpmcDeqt data timeout) (.issue cw :: List.replicate 3 (.move false wake)) s = .next t ∧
        (t.portAt s.me).st = .cwait ∧ (t.portAt s.me).deadline = s.now + timeout ∧ s.me ∈ t.waitRTR ∧
        t.contents = [] ∧ t.owner = none)

/-- R226: a timed command with `timeout = 0` fails with `TIMEOUT_LOCK` even with the lock free and its predicate true,
whichever of the two enabled steps is taken, and in no consistent state has one come past `ELAPSED`. -/
def Obligations.TimeoutZeroFails : Prop :=
  (∀ (i : Instr) (s : State) (cw data wake : Nat), i = .mpmcEnqt data 0 ∨ i = .mpmcDeqt data 0 →
    s.Inv → s.cfg.variant = .mpmc → s.me < s.cfg.numPorts → s.cur.st = .idle →
    (∃ t, runActs i [.issue cw, .move true wake] s = .next t ∧ (t.portAt s.me).st = .done ∧
      (t.portAt s.me).rspOk = false ∧ (t.portAt s.me).rspCause = .timeoutLock ∧ t.contents = s.contents) ∧
    (s.owner = none →
      ∃ t, runActs i [.issue cw, .move false wake, .move false wake] s = .next t ∧ (t.portAt s.me).st = .done ∧
        (t.portAt s.me).rspOk = false ∧ (t.portAt s.me).rspCause = .timeoutLock ∧ t.contents = s.contents ∧
        t.owner = none)) ∧
  (∀ (s : State) (p : Nat), s.Inv → s.cfg.variant = .mpmc → opTimed (s.portAt p).op = true →
    (s.portAt p).inFlight = true → (s.portAt p).timeout = 0 →
    (s.portAt p).st = .acqTimed ∨ (s.portAt p).st = .elapsed)

/-- R162, R164, R214, R217, R229: how a wait ends. A woken port that gets the lock while its predicate holds completes with
success, whatever its deadline: a dequeuer with the oldest element, an enqueuer with its element stored. A waiting port whose
deadline has passed, whose predicate is still false and which gets the lock ends with `TIMEOUT_WAIT` after its three steps,
out of its wait set, the queue and the lock as they were. -/
def Obligations.WaitEnds : Prop :=
  (∀ (s : State) (data timeout wake : Nat), s.Inv → s.cfg.variant = .mpmc → s.cur.st = .reacq → s.owner = none →
    (s.cur.op = 3#3 → ∀ v rest, s.contents = v :: rest →
      ∃ t, runActs (.mpmcDeqt data timeout) (List.replicate 5 (.move false wake)) s = .next t ∧
        (t.portAt s.me).st = .done ∧ (t.portAt s.me).rspOk = true ∧ (t.portAt s.me).rspData = v ∧
        t.contents = rest) ∧
    (s.cur.op = 2#3 → s.contents.length < s.cfg.capacity →
      ∃ t, runActs (.mpmcEnqt data timeout) (List.replicate 5 (.move false wake)) s = .next t ∧
        (t.portAt s.me).st = .done ∧ (t.portAt s.me).rspOk = true ∧ t.contents = s.contents ++ [s.cur.data])) ∧
  (∀ (i : Instr) (s : State) (data timeout wake : Nat), s.Inv → s.cfg.variant = .mpmc → s.cur.st = .cwait →
    s.owner = none → s.cur.deadline ≤ s.now →
    (i = .mpmcEnqt data timeout ∧ s.cur.op = 2#3 ∧ s.size = s.cfg.capacity ∨
      i = .mpmcDeqt data timeout ∧ s.cur.op = 3#3 ∧ s.size = 0) →
    ∃ t, runActs i (List.replicate 3 (.move false wake)) s = .next t ∧
      (t.portAt s.me).st = .done ∧ (t.portAt s.me).rspOk = false ∧ (t.portAt s.me).rspCause = .timeoutWait ∧
      t.contents = s.contents ∧ t.owner = none ∧ s.me ∉ t.waitRTW ∧ s.me ∉ t.waitRTR)

/-! ## The whole machine -/

/-- R21, R40 to R47, R50: the reset state of every legal instance is consistent. -/
def Obligations.InvAtReset : Prop :=
  State.reset.Inv ∧ ∀ (c : Config) (now : Nat), c.Legal → (State.resetFor c now).Inv

/-- R21, R40 to R47, R50, R170: every step, of every agent, from every consistent state leaves a consistent state. -/
def Obligations.InvKept : Prop :=
  ∀ s t : State, s.Inv → step s = .next t → t.Inv

/-- R22, R44, R50, R65: no consistent state has a step that faults, and a step is refused only for a word or port that does
not exist (log 13), a reset in flight (R285) or a time base that would wrap (R293). -/
def Obligations.StepNeverFaults : Prop :=
  ∀ s : State, s.Inv →
    (∀ f, step s ≠ .fault f) ∧
    ∀ r, step s = .refused r →
      (r = .noSuchPort ∧ ∃ p a, s.nextEvent = .turn p a ∧ s.cfg.numPorts ≤ p) ∨
      (r = .wordTooWide ∧ ∃ p cw, s.nextEvent = .turn p (.issue cw) ∧ 2 ^ s.cfg.commandWidth ≤ cw) ∨
      (r = .resetInFlight ∧ s.nextEvent = .reset ∧ ∃ q ∈ s.ports, q.st ≠ .idle) ∨
      (r = .timeBaseWrap ∧ s.nextEvent = .tick)

/-- R41, R50, R70: refinement of the abstract queue. At every step, what entered is appended, what left was the oldest:
an element enters only at `P_ADV` or `DO_ENQ`, and leaves only at `C_ADV` or `DO_DEQ`. -/
def Obligations.QueueRefinement : Prop :=
  ∀ s t : State, s.Inv → step s = .next t → s.nextEvent ≠ .reset →
    s.contents ++ s.entering.toList = s.leaving.toList ++ t.contents

/-- R71: over any number of steps without a reset, from any consistent state and under any schedule, the elements held
followed by those that entered, in order, are those that left, in order, followed by those held at the end. -/
def Obligations.Fifo : Prop :=
  ∀ (k : Nat) (s t : State), s.Inv → State.noReset k s → Sys2Proof.core.run k s = .next t →
    s.contents ++ State.entered k s = State.left k s ++ t.contents

/-- R72, R231: from an empty queue, what left is, in order, a first part of what entered (nothing fabricated, nothing
twice), and if as many left as entered the queue ends empty. -/
def Obligations.Conservation : Prop :=
  ∀ (k : Nat) (s t : State), s.Inv → State.noReset k s → Sys2Proof.core.run k s = .next t → s.count = 0 →
    State.left k s <+: State.entered k s ∧
    ((State.left k s).length = (State.entered k s).length → t.empty = true)

/-- R24, R25, R26, R42, R46: the number of elements held is `spsc_count` or `size`; an SPSC instance holds at most
`CAPACITY - 1`, an MPMC one at most `CAPACITY`. -/
def Obligations.CountOfContents : Prop :=
  ∀ s : State, s.Inv →
    s.contents.length = s.count ∧
    (s.cfg.variant = .spsc → s.count = (s.wi + s.cfg.capacity - s.ri) % s.cfg.capacity ∧
      s.count + 1 ≤ s.cfg.capacity) ∧
    (s.cfg.variant = .mpmc → s.count = s.size ∧ s.count ≤ s.cfg.capacity ∧
      (s.wi + s.cfg.capacity - s.ri) % s.cfg.capacity = s.size % s.cfg.capacity)

/-- R29, R151: the lock changes hands only by its holder's own release step and an acquire step of a port that finds it
free. -/
def Obligations.LockChangesHands : Prop :=
  ∀ s t : State, s.Inv → step s = .next t →
    (∀ p, s.owner = some p → t.owner ≠ some p →
      t.owner = none ∧ (∃ alt wake, s.nextEvent = .turn p (.move alt wake)) ∧
      ((s.portAt p).st = .elapsed ∨ (s.portAt p).st = .pred ∨ (s.portAt p).st = .rel)) ∧
    (∀ p, t.owner = some p → s.owner ≠ some p →
      s.owner = none ∧ (∃ alt wake, s.nextEvent = .turn p (.move alt wake)) ∧
      ((s.portAt p).st = .acqTry ∨ (s.portAt p).st = .acqTimed ∨ (s.portAt p).st = .reacq))

/-- R33, R27, R61: who writes the queue. SPSC: `wi` only P in `ADV`, `ri` only C in `ADV`, a slot only P in `XFER`, slot
`wi`. MPMC: only the port that holds the lock, in `XFER`; a slot only an enqueue, slot `wi`. -/
def Obligations.WriteOwnership : Prop :=
  ∀ s t : State, s.Inv → step s = .next t → s.nextEvent ≠ .reset →
    (s.cfg.variant = .spsc →
      (t.wi ≠ s.wi → (∃ alt wake, s.nextEvent = .turn portP (.move alt wake)) ∧ (s.portAt portP).st = .adv) ∧
      (t.ri ≠ s.ri → (∃ alt wake, s.nextEvent = .turn portC (.move alt wake)) ∧ (s.portAt portC).st = .adv) ∧
      (∀ j, slotAt t.storage j ≠ slotAt s.storage j →
        (∃ alt wake, s.nextEvent = .turn portP (.move alt wake)) ∧ (s.portAt portP).st = .xfer ∧ j = s.wi)) ∧
    (s.cfg.variant = .mpmc →
      (t.wi ≠ s.wi ∨ t.ri ≠ s.ri ∨ t.size ≠ s.size ∨ (∃ j, slotAt t.storage j ≠ slotAt s.storage j) →
        ∃ p alt wake, s.nextEvent = .turn p (.move alt wake) ∧ s.owner = some p ∧ (s.portAt p).st = .xfer ∧
          (t.wi ≠ s.wi → opDir (s.portAt p).op = .enq) ∧ (t.ri ≠ s.ri → opDir (s.portAt p).op = .deq) ∧
          ∀ j, slotAt t.storage j ≠ slotAt s.storage j → opDir (s.portAt p).op = .enq ∧ j = s.wi))

/-- R30, R161, R251: a turn at one port leaves every other port's record as it is, except that a `SIGNAL` may move one port
from `CWAIT` to `REACQ`. -/
def Obligations.PortIsolation : Prop :=
  ∀ (s t : State) (p r : Nat) (a : Act), s.Inv → step s = .next t → s.nextEvent = .turn p a → r ≠ p →
    t.portAt r = s.portAt r ∨
    ((∃ alt wake, a = .move alt wake) ∧ (s.portAt p).st = .sig ∧ (s.portAt r).st = .cwait ∧
      t.portAt r = { s.portAt r with st := .reacq })

/-- R49, R165, R284, R35, R256: only `TICK` changes `now`, by adding 1; no step changes a parameter or the number of
ports. -/
def Obligations.TimeAndParameters : Prop :=
  ∀ s t : State, s.Inv → step s = .next t →
    (s.nextEvent = .tick → t.now = s.now + 1) ∧ (s.nextEvent ≠ .tick → t.now = s.now) ∧
    t.cfg = s.cfg ∧ t.ports.length = s.ports.length

/-- R97, R240, R242, R299: every response that a host accepts, at any port in any run from a consistent state: `ok` exactly
when the cause is `NONE`, the cause one that R242 allows the command, an element exactly with a successful dequeue. -/
def Obligations.ObservedResponses : Prop :=
  ∀ (k : Nat) (s : State) (p : Nat), s.Inv → ∀ r ∈ s.results p k,
    (r.ok = true ↔ r.cause = .none) ∧
    causeAllowed (decodeFields s.cfg.variant p r.command.op r.command.data r.command.timeout) r.cause = true ∧
    (r.data.isSome = true ↔ r.ok = true ∧ opDir r.command.op = .deq)

/-- R215: a timed command never reports failure early, in both budget modes and under every schedule. -/
def Obligations.TimeoutLowerBound : Prop :=
  ∀ (s t : State) (p : Nat), s.Inv → s.cfg.variant = .mpmc → step s = .next t →
    (s.portAt p).st ≠ .done → (t.portAt p).st = .done → (t.portAt p).rspOk = false →
    (t.portAt p).op = 2#3 ∨ (t.portAt p).op = 3#3 →
    (t.portAt p).start + (t.portAt p).timeout ≤ s.now

/-- R213, R219, R221, R222: the deadline. Past `ELAPSED` it is `start + timeout`, or `t1 + timeout` for a DEQT with the legacy
budget, which is at most `start + 2*timeout - 1`; only the port's own `ELAPSED` step changes it. -/
def Obligations.DeadlineFixed : Prop :=
  ∀ (s t : State) (p : Nat), s.Inv → s.cfg.variant = .mpmc → step s = .next t → s.nextEvent ≠ .reset →
    ((t.portAt p).deadline ≠ (s.portAt p).deadline →
      (s.portAt p).st = .elapsed ∧ (t.portAt p).st = .pred ∧ ∃ alt wake, s.nextEvent = .turn p (.move alt wake)) ∧
    (opTimed (t.portAt p).op = true →
      (t.portAt p).st = .pred ∨ (t.portAt p).st = .cwait ∨ (t.portAt p).st = .reacq ∨ (t.portAt p).st = .xfer →
      ((t.cfg.legacyDeqBudget = false ∨ (t.portAt p).op = 2#3) →
        (t.portAt p).deadline = (t.portAt p).start + (t.portAt p).timeout) ∧
      (t.cfg.legacyDeqBudget = true → (t.portAt p).op = 3#3 →
        (t.portAt p).deadline = (t.portAt p).t1 + (t.portAt p).timeout ∧
        (t.portAt p).start + (t.portAt p).timeout ≤ (t.portAt p).deadline ∧
        (t.portAt p).deadline + 1 ≤ (t.portAt p).start + 2 * (t.portAt p).timeout))

/-- R127: the transition graph of an SPSC port. It moves only by its own turns and its host's, along these edges. -/
def Obligations.SpscTransitions : Prop :=
  ∀ (s t : State) (p : Nat), s.Inv → s.cfg.variant = .spsc → step s = .next t → s.nextEvent ≠ .reset →
    (t.portAt p).st = (s.portAt p).st ∨
      ((∃ cw, s.nextEvent = .turn p (.issue cw)) ∧ (s.portAt p).st = .idle ∧
        ((t.portAt p).st = .check ∨ (t.portAt p).st = .done ∧ (t.portAt p).rspCause = .illegalOp)) ∨
      (s.nextEvent = .turn p .accept ∧ (s.portAt p).st = .done ∧ (t.portAt p).st = .idle) ∨
      ((∃ alt wake, s.nextEvent = .turn p (.move alt wake)) ∧
        ((s.portAt p).st = .check ∧
            ((t.portAt p).st = .xfer ∨ (t.portAt p).st = .done ∧ (t.portAt p).rspOk = false) ∨
          (s.portAt p).st = .xfer ∧ (t.portAt p).st = .adv ∨
          (s.portAt p).st = .adv ∧ (t.portAt p).st = .done ∧ (t.portAt p).rspOk = true))

/-- R172: the transition graph of an MPMC port, edge by edge, with the condition each is taken under; there are no other
transitions. -/
def Obligations.MpmcTransitions : Prop :=
  ∀ (s t : State) (p : Nat), s.Inv → s.cfg.variant = .mpmc → step s = .next t → s.nextEvent ≠ .reset →
    (t.portAt p).st = (s.portAt p).st ∨
    ((∃ cw, s.nextEvent = .turn p (.issue cw)) ∧ (s.portAt p).st = .idle ∧
      ((t.portAt p).st = .done ∧ (t.portAt p).rspCause = .illegalOp ∧ opReserved (t.portAt p).op = true ∨
       (t.portAt p).st = .acqTry ∧ opReserved (t.portAt p).op = false ∧ opTimed (t.portAt p).op = false ∨
       (t.portAt p).st = .acqTimed ∧ opReserved (t.portAt p).op = false ∧ opTimed (t.portAt p).op = true)) ∨
    (s.nextEvent = .turn p .accept ∧ (s.portAt p).st = .done ∧ (t.portAt p).st = .idle) ∨
    ((∃ r alt wake, r ≠ p ∧ s.nextEvent = .turn r (.move alt wake) ∧ (s.portAt r).st = .sig) ∧
      (s.portAt p).st = .cwait ∧ (t.portAt p).st = .reacq) ∨
    ((∃ alt wake, s.nextEvent = .turn p (.move alt wake)) ∧
      ((s.portAt p).st = .acqTry ∧ s.owner = none ∧ (t.portAt p).st = .pred ∨
       (s.portAt p).st = .acqTry ∧ s.owner ≠ none ∧ (t.portAt p).st = .done ∧ (t.portAt p).rspCause = .lockBusy ∨
       (s.portAt p).st = .acqTimed ∧ s.owner = none ∧ (t.portAt p).st = .elapsed ∨
       (s.portAt p).st = .acqTimed ∧ (s.portAt p).timeout ≤ s.now - (s.portAt p).start ∧
         (t.portAt p).st = .done ∧ (t.portAt p).rspCause = .timeoutLock ∨
       (s.portAt p).st = .elapsed ∧ (s.portAt p).timeout ≤ (s.portAt p).t1 - (s.portAt p).start ∧
         (t.portAt p).st = .done ∧ (t.portAt p).rspCause = .timeoutLock ∨
       (s.portAt p).st = .elapsed ∧ (s.portAt p).t1 - (s.portAt p).start < (s.portAt p).timeout ∧
         (t.portAt p).st = .pred ∨
       (s.portAt p).st = .pred ∧ s.pred (opDir (s.portAt p).op) = true ∧ (t.portAt p).st = .xfer ∨
       (s.portAt p).st = .pred ∧ s.pred (opDir (s.portAt p).op) = false ∧ opTimed (s.portAt p).op = false ∧
         (t.portAt p).st = .done ∧ (t.portAt p).rspCause = failCause (opDir (s.portAt p).op) ∨
       (s.portAt p).st = .pred ∧ s.pred (opDir (s.portAt p).op) = false ∧ opTimed (s.portAt p).op = true ∧
         (s.portAt p).deadline ≤ s.now ∧ (t.portAt p).st = .done ∧ (t.portAt p).rspCause = .timeoutWait ∨
       (s.portAt p).st = .pred ∧ s.pred (opDir (s.portAt p).op) = false ∧ opTimed (s.portAt p).op = true ∧
         s.now < (s.portAt p).deadline ∧ (t.portAt p).st = .cwait ∨
       (s.portAt p).st = .cwait ∧ ((s.portAt p).deadline ≤ s.now ∨ s.cfg.spuriousWake = true) ∧
         (t.portAt p).st = .reacq ∨
       (s.portAt p).st = .reacq ∧ s.owner = none ∧ (t.portAt p).st = .pred ∨
       (s.portAt p).st = .xfer ∧ (t.portAt p).st = .rel ∨
       (s.portAt p).st = .rel ∧ (t.portAt p).st = .sig ∨
       (s.portAt p).st = .sig ∧ (t.portAt p).st = .done ∧ (t.portAt p).rspOk = true ∧
         (t.portAt p).rspCause = .none))

/-- R120, R190, R193, R297: every turn of a port whose command is nonblocking, or is timed and neither waits for the lock nor
for its condition, moves the command on. -/
def Obligations.UnguardedStepsProgress : Prop :=
  ∀ (s : State) (p : Nat) (alt : Bool) (wake : Nat), s.Inv → s.nextEvent = .turn p (.move alt wake) →
    (s.portAt p).inFlight = true →
    (s.portAt p).st ≠ .acqTimed → (s.portAt p).st ≠ .cwait → (s.portAt p).st ≠ .reacq →
    ∃ t, step s = .next t ∧ (t.portAt p).st ≠ (s.portAt p).st

/-- R297, R299: no deadlock. In a consistent state in which some port is not `IDLE`, some port that is not `IDLE` has a turn
that moves it on, unless every such port waits in `CWAIT` before its deadline, where time alone moves it on. -/
def Obligations.NoDeadlock : Prop :=
  ∀ s : State, s.Inv → (∃ p, (s.portAt p).st ≠ .idle) →
    (∃ p a t, (s.portAt p).st ≠ .idle ∧ step { s with script := .turn p a :: s.script } = .next t ∧
      (t.portAt p).st ≠ (s.portAt p).st) ∨
    (∀ p, (s.portAt p).st = .idle ∨ ((s.portAt p).st = .cwait ∧ s.now < (s.portAt p).deadline))

/-- R246, R159, R136, R247: what a failing completion changes: the port's `rsp_ok`, `rsp_cause` and `st`, the lock back to
`NONE` if the port held it, and nothing else; at an `ISSUE` (an illegal command) also the latched fields. -/
def Obligations.FailureChangesNothingElse : Prop :=
  ∀ (s t : State) (p : Nat), s.Inv → step s = .next t →
    (s.portAt p).st ≠ .done → (t.portAt p).st = .done → (t.portAt p).rspOk = false →
    s.queueKept t ∧ t.now = s.now ∧ s.waitersKept t ∧ (∀ r, r ≠ p → t.portAt r = s.portAt r) ∧
    (s.owner = some p → t.owner = none) ∧ (s.owner ≠ some p → t.owner = s.owner) ∧
    ((s.portAt p).st ≠ .idle →
      t.portAt p = (s.portAt p).completed false (t.portAt p).rspCause)

/-- R91, R287: a response stays as it is until the host accepts it, whatever the other agents do. -/
def Obligations.ResponseStable : Prop :=
  ∀ (s t : State) (p : Nat), s.Inv → step s = .next t → (s.portAt p).st = .done → s.nextEvent ≠ .turn p .accept →
    t.portAt p = s.portAt p ∧ t.responseWord p = s.responseWord p

/-- R137, R25: an SPSC instance with `CAPACITY = 1`. `wi = ri = 0`, both flags are 1, no port ever comes to `XFER` or `ADV`,
and every check fails. -/
def Obligations.CapacityOne : Prop :=
  ∀ s : State, s.Inv → s.cfg.variant = .spsc → s.cfg.capacity = 1 →
    s.wi = 0 ∧ s.ri = 0 ∧ s.empty = true ∧ s.full = true ∧ s.contents = [] ∧
    (∀ p, (s.portAt p).st ≠ .xfer ∧ (s.portAt p).st ≠ .adv) ∧
    ∀ p alt wake, s.nextEvent = .turn p (.move alt wake) → (s.portAt p).st = .check →
      ∃ t, step s = .next t ∧ (t.portAt p).st = .done ∧ (t.portAt p).rspOk = false ∧
        (t.portAt p).rspCause = (if p = portP then .full else .empty) ∧ ∀ j, slotAt t.storage j = slotAt s.storage j

/-- R49, R254: an SPSC instance uses no time: the same step is taken whatever `now` reads, and leaves the same state. -/
def Obligations.SpscUsesNoTime : Prop :=
  ∀ (s t : State) (n : Nat), s.cfg.variant = .spsc → step s = .next t →
    step { s with now := n } = .next { t with now := n + (t.now - s.now) }

/-- R100, R93, R94: ignored fields. Behaviour does not depend on the `data` latched with a DEQ or DEQT, nor on the `timeout`
latched with an ENQ or DEQ: a state that differs in that one latch takes the same step, and goes on differing in it only. -/
def Obligations.IgnoredFields : Prop :=
  ∀ (s t : State) (p x : Nat), step s = .next t → s.nextEvent ≠ .reset → (∀ cw, s.nextEvent ≠ .turn p (.issue cw)) →
    (opDir (s.portAt p).op = .deq →
      step (s.updPort p fun q => { q with data := x }) = .next (t.updPort p fun q => { q with data := x })) ∧
    (opTimed (s.portAt p).op = false →
      step (s.updPort p fun q => { q with timeout := x }) = .next (t.updPort p fun q => { q with timeout := x }))

/-- R34, R121, R122, R191, R192: the flags change at no step but `P_ADV`, `C_ADV`, `DO_ENQ` and `DO_DEQ`, and what they are
after each of these. -/
def Obligations.FlagsAtTransfers : Prop :=
  ∀ s t : State, s.Inv → step s = .next t → s.nextEvent ≠ .reset →
    (t.empty ≠ s.empty ∨ t.full ≠ s.full →
      ∃ p alt wake, s.nextEvent = .turn p (.move alt wake) ∧
        ((s.portAt p).st = .adv ∨ s.cfg.variant = .mpmc ∧ (s.portAt p).st = .xfer)) ∧
    ∀ p alt wake, s.nextEvent = .turn p (.move alt wake) →
      (s.cfg.variant = .spsc → (s.portAt p).st = .adv →
        (p = portP → t.empty = false ∧ (t.full = true ↔ (t.wi + 1) % s.cfg.capacity = s.ri)) ∧
        (p = portC → t.full = false ∧ (t.empty = true ↔ s.wi = t.ri))) ∧
      (s.cfg.variant = .mpmc → (s.portAt p).st = .xfer →
        (opDir (s.portAt p).op = .enq → t.empty = false ∧ (t.full = true ↔ s.size + 1 = s.cfg.capacity)) ∧
        (opDir (s.portAt p).op = .deq → t.full = false ∧ (t.empty = true ↔ s.size = 1)))

/-- R299, R300, R72: the observable result of a run without a reset between two consistent states in which nothing is in
flight. Each port has one entry for each command issued at it, in order; `size` (or `spsc_count`) is the length of the
contents; over all ports, the elements held before and those of the successful enqueues are, as a collection, those of the
successful dequeues and those held after. On an SPSC instance the same holds in order, of ports P and C. -/
def Obligations.ObservableOfEndedRun : Prop :=
  ∀ (k : Nat) (s : State) (o : Observable), s.Inv → s.runEnded → State.noReset k s → s.observable k = some o →
    o.results.length = s.cfg.numPorts ∧
    (∀ p, p < s.cfg.numPorts →
      (o.results.getD p []).map (fun r => r.command) = State.commandsIssued p k s) ∧
    o.size = o.contents.length ∧
    (s.contents ++ enqueued o.results.flatten).Perm (dequeued o.results.flatten ++ o.contents) ∧
    (s.cfg.variant = .spsc →
      s.contents ++ enqueued (o.results.getD portP []) = dequeued (o.results.getD portC []) ++ o.contents)
end

