-- ==== Sys2Proof/Laws/State.lean ====
section
/-! SUPPORT. One lemma per field per update of State, and the small laws of the port and wait-set accessors, so that no
later proof unfolds a record update. -/

namespace Sys2Proof.Machine

@[simp] theorem updPort_cfg (s : State) (p : Nat) (f : Port → Port) : (s.updPort p f).cfg = s.cfg := rfl
@[simp] theorem updPort_wi (s : State) (p : Nat) (f : Port → Port) : (s.updPort p f).wi = s.wi := rfl
@[simp] theorem updPort_ri (s : State) (p : Nat) (f : Port → Port) : (s.updPort p f).ri = s.ri := rfl
@[simp] theorem updPort_size (s : State) (p : Nat) (f : Port → Port) : (s.updPort p f).size = s.size := rfl
@[simp] theorem updPort_storage (s : State) (p : Nat) (f : Port → Port) : (s.updPort p f).storage = s.storage := rfl
@[simp] theorem updPort_owner (s : State) (p : Nat) (f : Port → Port) : (s.updPort p f).owner = s.owner := rfl
@[simp] theorem updPort_waitRTR (s : State) (p : Nat) (f : Port → Port) : (s.updPort p f).waitRTR = s.waitRTR := rfl
@[simp] theorem updPort_waitRTW (s : State) (p : Nat) (f : Port → Port) : (s.updPort p f).waitRTW = s.waitRTW := rfl
@[simp] theorem updPort_now (s : State) (p : Nat) (f : Port → Port) : (s.updPort p f).now = s.now := rfl
@[simp] theorem updPort_sel (s : State) (p : Nat) (f : Port → Port) : (s.updPort p f).sel = s.sel := rfl
@[simp] theorem updPort_script (s : State) (p : Nat) (f : Port → Port) : (s.updPort p f).script = s.script := rfl
@[simp] theorem updPort_seq (s : State) (p : Nat) (f : Port → Port) : (s.updPort p f).seq = s.seq := rfl

@[simp] theorem updPort_ports (s : State) (p : Nat) (f : Port → Port) : (s.updPort p f).ports = s.ports.modify p f := rfl

@[simp] theorem goto_cfg (s : State) (st : PState) : (s.goto st).cfg = s.cfg := rfl
@[simp] theorem goto_wi (s : State) (st : PState) : (s.goto st).wi = s.wi := rfl
@[simp] theorem goto_ri (s : State) (st : PState) : (s.goto st).ri = s.ri := rfl
@[simp] theorem goto_size (s : State) (st : PState) : (s.goto st).size = s.size := rfl
@[simp] theorem goto_storage (s : State) (st : PState) : (s.goto st).storage = s.storage := rfl
@[simp] theorem goto_owner (s : State) (st : PState) : (s.goto st).owner = s.owner := rfl
@[simp] theorem goto_waitRTR (s : State) (st : PState) : (s.goto st).waitRTR = s.waitRTR := rfl
@[simp] theorem goto_waitRTW (s : State) (st : PState) : (s.goto st).waitRTW = s.waitRTW := rfl
@[simp] theorem goto_now (s : State) (st : PState) : (s.goto st).now = s.now := rfl
@[simp] theorem goto_sel (s : State) (st : PState) : (s.goto st).sel = s.sel := rfl
@[simp] theorem goto_script (s : State) (st : PState) : (s.goto st).script = s.script := rfl
@[simp] theorem goto_seq (s : State) (st : PState) : (s.goto st).seq = s.seq := rfl

@[simp] theorem complete_cfg (ok : Bool) (c : Cause) (s : State) : (complete ok c s).cfg = s.cfg := rfl
@[simp] theorem complete_wi (ok : Bool) (c : Cause) (s : State) : (complete ok c s).wi = s.wi := rfl
@[simp] theorem complete_ri (ok : Bool) (c : Cause) (s : State) : (complete ok c s).ri = s.ri := rfl
@[simp] theorem complete_size (ok : Bool) (c : Cause) (s : State) : (complete ok c s).size = s.size := rfl
@[simp] theorem complete_storage (ok : Bool) (c : Cause) (s : State) : (complete ok c s).storage = s.storage := rfl
@[simp] theorem complete_owner (ok : Bool) (c : Cause) (s : State) : (complete ok c s).owner = s.owner := rfl
@[simp] theorem complete_waitRTR (ok : Bool) (c : Cause) (s : State) : (complete ok c s).waitRTR = s.waitRTR := rfl
@[simp] theorem complete_waitRTW (ok : Bool) (c : Cause) (s : State) : (complete ok c s).waitRTW = s.waitRTW := rfl
@[simp] theorem complete_now (ok : Bool) (c : Cause) (s : State) : (complete ok c s).now = s.now := rfl
@[simp] theorem complete_sel (ok : Bool) (c : Cause) (s : State) : (complete ok c s).sel = s.sel := rfl
@[simp] theorem complete_script (ok : Bool) (c : Cause) (s : State) : (complete ok c s).script = s.script := rfl
@[simp] theorem complete_seq (ok : Bool) (c : Cause) (s : State) : (complete ok c s).seq = s.seq := rfl

@[simp] theorem takeEvent_cfg (s : State) : (s.takeEvent).cfg = s.cfg := rfl
@[simp] theorem takeEvent_wi (s : State) : (s.takeEvent).wi = s.wi := rfl
@[simp] theorem takeEvent_ri (s : State) : (s.takeEvent).ri = s.ri := rfl
@[simp] theorem takeEvent_size (s : State) : (s.takeEvent).size = s.size := rfl
@[simp] theorem takeEvent_storage (s : State) : (s.takeEvent).storage = s.storage := rfl
@[simp] theorem takeEvent_owner (s : State) : (s.takeEvent).owner = s.owner := rfl
@[simp] theorem takeEvent_waitRTR (s : State) : (s.takeEvent).waitRTR = s.waitRTR := rfl
@[simp] theorem takeEvent_waitRTW (s : State) : (s.takeEvent).waitRTW = s.waitRTW := rfl
@[simp] theorem takeEvent_now (s : State) : (s.takeEvent).now = s.now := rfl
@[simp] theorem takeEvent_ports (s : State) : (s.takeEvent).ports = s.ports := rfl
@[simp] theorem takeEvent_sel (s : State) : (s.takeEvent).sel = s.sel := rfl

@[simp] theorem takeEvent_script (s : State) : s.takeEvent.script = s.script.tail := rfl
@[simp] theorem takeEvent_seq (s : State) : s.takeEvent.seq = s.seq + 1 := rfl

@[simp] theorem withTurn_cfg (s : State) (p : Nat) (a : Act) : (s.withTurn p a).cfg = s.cfg := rfl
@[simp] theorem withTurn_wi (s : State) (p : Nat) (a : Act) : (s.withTurn p a).wi = s.wi := rfl
@[simp] theorem withTurn_ri (s : State) (p : Nat) (a : Act) : (s.withTurn p a).ri = s.ri := rfl
@[simp] theorem withTurn_size (s : State) (p : Nat) (a : Act) : (s.withTurn p a).size = s.size := rfl
@[simp] theorem withTurn_storage (s : State) (p : Nat) (a : Act) : (s.withTurn p a).storage = s.storage := rfl
@[simp] theorem withTurn_owner (s : State) (p : Nat) (a : Act) : (s.withTurn p a).owner = s.owner := rfl
@[simp] theorem withTurn_waitRTR (s : State) (p : Nat) (a : Act) : (s.withTurn p a).waitRTR = s.waitRTR := rfl
@[simp] theorem withTurn_waitRTW (s : State) (p : Nat) (a : Act) : (s.withTurn p a).waitRTW = s.waitRTW := rfl
@[simp] theorem withTurn_now (s : State) (p : Nat) (a : Act) : (s.withTurn p a).now = s.now := rfl
@[simp] theorem withTurn_ports (s : State) (p : Nat) (a : Act) : (s.withTurn p a).ports = s.ports := rfl
@[simp] theorem withTurn_script (s : State) (p : Nat) (a : Act) : (s.withTurn p a).script = s.script := rfl
@[simp] theorem withTurn_seq (s : State) (p : Nat) (a : Act) : (s.withTurn p a).seq = s.seq := rfl

@[simp] theorem withTurn_sel (s : State) (p : Nat) (a : Act) : (s.withTurn p a).sel = { port := p, act := a } := rfl

@[simp] theorem setWaitSet_cfg (s : State) (c : Condition) (ws : List Nat) : (s.setWaitSet c ws).cfg = s.cfg := by cases c <;> rfl
@[simp] theorem setWaitSet_wi (s : State) (c : Condition) (ws : List Nat) : (s.setWaitSet c ws).wi = s.wi := by cases c <;> rfl
@[simp] theorem setWaitSet_ri (s : State) (c : Condition) (ws : List Nat) : (s.setWaitSet c ws).ri = s.ri := by cases c <;> rfl
@[simp] theorem setWaitSet_size (s : State) (c : Condition) (ws : List Nat) : (s.setWaitSet c ws).size = s.size := by cases c <;> rfl
@[simp] theorem setWaitSet_storage (s : State) (c : Condition) (ws : List Nat) : (s.setWaitSet c ws).storage = s.storage := by cases c <;> rfl
@[simp] theorem setWaitSet_owner (s : State) (c : Condition) (ws : List Nat) : (s.setWaitSet c ws).owner = s.owner := by cases c <;> rfl
@[simp] theorem setWaitSet_now (s : State) (c : Condition) (ws : List Nat) : (s.setWaitSet c ws).now = s.now := by cases c <;> rfl
@[simp] theorem setWaitSet_ports (s : State) (c : Condition) (ws : List Nat) : (s.setWaitSet c ws).ports = s.ports := by cases c <;> rfl
@[simp] theorem setWaitSet_sel (s : State) (c : Condition) (ws : List Nat) : (s.setWaitSet c ws).sel = s.sel := by cases c <;> rfl
@[simp] theorem setWaitSet_script (s : State) (c : Condition) (ws : List Nat) : (s.setWaitSet c ws).script = s.script := by cases c <;> rfl
@[simp] theorem setWaitSet_seq (s : State) (c : Condition) (ws : List Nat) : (s.setWaitSet c ws).seq = s.seq := by cases c <;> rfl

@[simp] theorem setWaitSet_waitSet_same (s : State) (c : Condition) (ws : List Nat) :
    (s.setWaitSet c ws).waitSet c = ws := by cases c <;> rfl

theorem setWaitSet_waitSet_other (s : State) {c d : Condition} (ws : List Nat) (h : d ≠ c) :
    (s.setWaitSet c ws).waitSet d = s.waitSet d := by cases c <;> cases d <;> first | rfl | exact absurd rfl h

theorem setWaitSet_waitSet (s : State) (c d : Condition) (ws : List Nat) :
    (s.setWaitSet c ws).waitSet d = if d = c then ws else s.waitSet d := by
  by_cases h : d = c
  · subst h; simp
  · simp [h, setWaitSet_waitSet_other]

/-! The port in turn -/

@[simp] theorem me_withTurn (s : State) (p : Nat) (a : Act) : (s.withTurn p a).me = p := rfl
@[simp] theorem me_updPort (s : State) (p : Nat) (f : Port → Port) : (s.updPort p f).me = s.me := rfl
@[simp] theorem me_goto (s : State) (st : PState) : (s.goto st).me = s.me := rfl
@[simp] theorem me_complete (ok : Bool) (c : Cause) (s : State) : (complete ok c s).me = s.me := rfl
@[simp] theorem me_setWaitSet (s : State) (c : Condition) (ws : List Nat) : (s.setWaitSet c ws).me = s.me := by
  cases c <;> rfl

/-! Ports: an accessor reads what the last update of that port left, and nothing else -/

theorem portAt_updPort (s : State) (p r : Nat) (f : Port → Port) (h : p < s.ports.length) :
    (s.updPort p f).portAt r = if r = p then f (s.portAt p) else s.portAt r := by
  by_cases hr : r = p
  · subst hr
    simp [State.portAt, State.updPort, h]
  · have : p ≠ r := fun e => hr e.symm
    simp [State.portAt, State.updPort, this, hr]

theorem portAt_updPort_of_ne (s : State) {p r : Nat} (f : Port → Port) (h : r ≠ p) :
    (s.updPort p f).portAt r = s.portAt r := by
  have : p ≠ r := fun e => h e.symm
  simp [State.portAt, State.updPort, this]

theorem portAt_of_length_le (s : State) {p : Nat} (h : s.ports.length ≤ p) : s.portAt p = Port.reset := by
  simp [State.portAt, List.getElem?_eq_none h]

/-- A port record depends on the list of ports alone. -/
theorem portAt_congr {s t : State} (h : s.ports = t.ports) (p : Nat) : s.portAt p = t.portAt p := by
  simp [State.portAt, h]

@[simp] theorem portAt_withTurn (s : State) (p r : Nat) (a : Act) : (s.withTurn p a).portAt r = s.portAt r := rfl
@[simp] theorem portAt_takeEvent (s : State) (r : Nat) : s.takeEvent.portAt r = s.portAt r := rfl
@[simp] theorem portAt_setWaitSet (s : State) (c : Condition) (ws : List Nat) (r : Nat) :
    (s.setWaitSet c ws).portAt r = s.portAt r := by cases c <;> rfl

theorem portAt_goto (s : State) (st : PState) (r : Nat) (h : s.me < s.ports.length) :
    (s.goto st).portAt r = if r = s.me then { s.portAt s.me with st := st } else s.portAt r :=
  portAt_updPort s s.me r _ h

theorem portAt_complete (ok : Bool) (c : Cause) (s : State) (r : Nat) (h : s.me < s.ports.length) :
    (complete ok c s).portAt r =
      if r = s.me then { s.portAt s.me with rspOk := ok, rspCause := c, st := .done } else s.portAt r :=
  portAt_updPort s s.me r _ h

@[simp] theorem length_updPort (s : State) (p : Nat) (f : Port → Port) :
    (s.updPort p f).ports.length = s.ports.length := by simp
@[simp] theorem length_goto (s : State) (st : PState) : (s.goto st).ports.length = s.ports.length := by
  simp [State.goto]
@[simp] theorem length_complete (ok : Bool) (c : Cause) (s : State) :
    (complete ok c s).ports.length = s.ports.length := by simp [complete]

/-! Wait sets and predicates under updates that do not touch them -/

@[simp] theorem waitSet_updPort (s : State) (p : Nat) (f : Port → Port) (c : Condition) : (s.updPort p f).waitSet c = s.waitSet c := by cases c <;> rfl
@[simp] theorem pred_updPort (s : State) (p : Nat) (f : Port → Port) (d : Dir) : (s.updPort p f).pred d = s.pred d := by cases d <;> rfl
@[simp] theorem spscCount_updPort (s : State) (p : Nat) (f : Port → Port) : (s.updPort p f).spscCount = s.spscCount := rfl
@[simp] theorem count_updPort (s : State) (p : Nat) (f : Port → Port) : (s.updPort p f).count = s.count := rfl
@[simp] theorem contents_updPort (s : State) (p : Nat) (f : Port → Port) : (s.updPort p f).contents = s.contents := rfl
@[simp] theorem waitSet_goto (s : State) (st : PState) (c : Condition) : (s.goto st).waitSet c = s.waitSet c := by cases c <;> rfl
@[simp] theorem pred_goto (s : State) (st : PState) (d : Dir) : (s.goto st).pred d = s.pred d := by cases d <;> rfl
@[simp] theorem spscCount_goto (s : State) (st : PState) : (s.goto st).spscCount = s.spscCount := rfl
@[simp] theorem count_goto (s : State) (st : PState) : (s.goto st).count = s.count := rfl
@[simp] theorem contents_goto (s : State) (st : PState) : (s.goto st).contents = s.contents := rfl
@[simp] theorem waitSet_complete (ok : Bool) (k : Cause) (s : State) (c : Condition) : (complete ok k s).waitSet c = s.waitSet c := by cases c <;> rfl
@[simp] theorem pred_complete (ok : Bool) (k : Cause) (s : State) (d : Dir) : (complete ok k s).pred d = s.pred d := by cases d <;> rfl
@[simp] theorem spscCount_complete (ok : Bool) (k : Cause) (s : State) : (complete ok k s).spscCount = s.spscCount := rfl
@[simp] theorem count_complete (ok : Bool) (k : Cause) (s : State) : (complete ok k s).count = s.count := rfl
@[simp] theorem contents_complete (ok : Bool) (k : Cause) (s : State) : (complete ok k s).contents = s.contents := rfl
@[simp] theorem waitSet_takeEvent (s : State) (c : Condition) : (s.takeEvent).waitSet c = s.waitSet c := by cases c <;> rfl
@[simp] theorem pred_takeEvent (s : State) (d : Dir) : (s.takeEvent).pred d = s.pred d := by cases d <;> rfl
@[simp] theorem spscCount_takeEvent (s : State) : (s.takeEvent).spscCount = s.spscCount := rfl
@[simp] theorem count_takeEvent (s : State) : (s.takeEvent).count = s.count := rfl
@[simp] theorem contents_takeEvent (s : State) : (s.takeEvent).contents = s.contents := rfl
@[simp] theorem waitSet_withTurn (s : State) (p : Nat) (a : Act) (c : Condition) : (s.withTurn p a).waitSet c = s.waitSet c := by cases c <;> rfl
@[simp] theorem pred_withTurn (s : State) (p : Nat) (a : Act) (d : Dir) : (s.withTurn p a).pred d = s.pred d := by cases d <;> rfl
@[simp] theorem spscCount_withTurn (s : State) (p : Nat) (a : Act) : (s.withTurn p a).spscCount = s.spscCount := rfl
@[simp] theorem count_withTurn (s : State) (p : Nat) (a : Act) : (s.withTurn p a).count = s.count := rfl
@[simp] theorem contents_withTurn (s : State) (p : Nat) (a : Act) : (s.withTurn p a).contents = s.contents := rfl

end Sys2Proof.Machine
end

