-- ==== Sys2Proof/Laws/Check.lean ====
section
/-! SUPPORT. Consistency of a concrete state, by evaluation: `State.Checked` is `State.Inv` with its quantifiers cut to the
ports that exist, and `inv_of_checked` says that this is enough. The tests' witnesses are found with it. -/

namespace Sys2Proof.Machine

/-- The record of port `p` is in range and, if completed, its response is one the command can have. -/
abbrev State.PortChecked (s : State) (p : Nat) : Prop :=
  ((s.portAt p).data < 2 ^ s.cfg.dw ∧ (s.portAt p).timeout < 2 ^ s.cfg.tow ∧ (s.portAt p).rspData < 2 ^ s.cfg.dw) ∧
  ((s.portAt p).st = .done → ((s.portAt p).rspOk = true ↔ (s.portAt p).rspCause = .none) ∧
    causeAllowed (s.latched p) (s.portAt p).rspCause = true)

abbrev State.SpscPortChecked (s : State) (p : Nat) : Prop :=
  (s.portAt p).st.spscCode.isSome = true ∧
  ((s.portAt p).inFlight = true → (p = portP ∧ (s.portAt p).op = 0#3) ∨ (p = portC ∧ (s.portAt p).op = 1#3))

abbrev State.SpscChecked (s : State) : Prop :=
  (∀ p, p < s.ports.length → s.SpscPortChecked p) ∧
  ((s.portAt portP).st = .xfer ∨ (s.portAt portP).st = .adv → adv s.cfg s.wi ≠ s.ri) ∧
  ((s.portAt portC).st = .xfer ∨ (s.portAt portC).st = .adv → s.wi ≠ s.ri) ∧
  ((s.portAt portP).st = .adv → slotAt s.storage s.wi = some (s.portAt portP).data) ∧
  ((s.portAt portC).st = .adv → slotAt s.storage s.ri = some (s.portAt portC).rspData) ∧
  (∀ k, k < s.spscCount → (slotAt s.storage ((s.ri + k) % s.cfg.capacity)).isSome = true) ∧
  s.owner = none ∧ s.waitRTR = [] ∧ s.waitRTW = [] ∧ s.size = 0

abbrev Port.TimesChecked (c : Config) (now : Nat) (q : Port) : Prop :=
  (q.st ≠ .idle → q.start ≤ now) ∧
  (q.inFlight = true → now - q.start < 2 ^ c.tw - 2 ^ c.tow) ∧
  (q.st = .elapsed → q.start ≤ q.t1 ∧ q.t1 ≤ now) ∧
  (opTimed q.op = true →
    q.st = .pred ∨ q.st = .cwait ∨ q.st = .reacq ∨ q.st = .xfer ∨ q.st = .rel ∨ q.st = .sig →
    q.start ≤ q.t1 ∧ q.t1 ≤ now ∧ q.t1 - q.start < q.timeout ∧
      q.deadline = deadlineOf (c.legacyDeqBudget && opDir q.op == .deq) q.start q.t1 q.timeout) ∧
  (opTimed q.op = true → opReserved q.op = false → q.st = .done → q.rspOk = false → q.start + q.timeout ≤ now)

def Port.timesChecked (c : Config) (now : Nat) (q : Port) : Bool := decide (q.TimesChecked c now)

abbrev State.MpmcPortChecked (s : State) (p : Nat) : Prop :=
  (s.portAt p).st.mpmcCode.isSome = true ∧
  ((s.portAt p).inFlight = true → opReserved (s.portAt p).op = false) ∧
  ((s.portAt p).st = .acqTry → opTimed (s.portAt p).op = false) ∧
  ((s.portAt p).st = .acqTimed ∨ (s.portAt p).st = .elapsed ∨ (s.portAt p).st = .cwait ∨ (s.portAt p).st = .reacq →
    opTimed (s.portAt p).op = true) ∧
  (s.owner = some p ↔ (s.portAt p).st.holdsLock = true) ∧
  (p ∈ s.waitRTR ↔ (s.portAt p).st = .cwait ∧ waitsOn (opDir (s.portAt p).op) = .rtr) ∧
  (p ∈ s.waitRTW ↔ (s.portAt p).st = .cwait ∧ waitsOn (opDir (s.portAt p).op) = .rtw) ∧
  ((s.portAt p).st = .xfer → s.pred (opDir (s.portAt p).op) = true) ∧
  (s.portAt p).timesChecked s.cfg s.now = true

def State.mpmcPortChecked (s : State) (p : Nat) : Bool := decide (s.MpmcPortChecked p)

abbrev State.MpmcChecked (s : State) : Prop :=
  (∀ p, p < s.ports.length → s.mpmcPortChecked p = true) ∧
  (∀ p ∈ s.owner.toList ++ s.waitRTR ++ s.waitRTW, p < s.ports.length) ∧
  s.waitRTR.Pairwise (· < ·) ∧ s.waitRTW.Pairwise (· < ·) ∧
  s.size ≤ s.cfg.capacity ∧ (s.ri + s.size) % s.cfg.capacity = s.wi ∧
  (∀ k, k < s.size → (slotAt s.storage ((s.ri + k) % s.cfg.capacity)).isSome = true)

def State.spscChecked (s : State) : Bool := decide s.SpscChecked

def State.mpmcChecked (s : State) : Bool := decide s.MpmcChecked

/-- What evaluation has to find of a concrete state. -/
abbrev State.Checked (s : State) : Prop :=
  s.cfg.Legal ∧ s.ports.length = s.cfg.numPorts ∧ s.wi < s.cfg.capacity ∧ s.ri < s.cfg.capacity ∧
  Memory.wf s.storage ∧ (∀ e ∈ s.storage, e.1 < s.cfg.capacity ∧ e.2 < 2 ^ s.cfg.dw) ∧
  (∀ p, p < s.ports.length → s.PortChecked p) ∧
  (s.cfg.variant = .spsc → s.spscChecked = true) ∧ (s.cfg.variant = .mpmc → s.mpmcChecked = true)

/-- A fact about every port that exists, and about the record of a port that does not, is one about every port. -/
theorem forall_port {s : State} {P : Nat → Prop} (h : ∀ p, p < s.ports.length → P p)
    (h0 : ∀ p, s.portAt p = Port.reset → s.ports.length ≤ p → P p) (p : Nat) : P p := by
  by_cases hp : p < s.ports.length
  · exact h p hp
  · have hp := Nat.le_of_not_lt hp
    exact h0 p (portAt_of_length_le s hp) hp

theorem inv_of_checked {s : State} (h : s.Checked) : s.Inv := by
  obtain ⟨h1, h2, h3, h4, h5, h6, h7, h8, h9⟩ := h
  have hd : 0 < 2 ^ s.cfg.dw := Nat.pow_pos (by decide)
  have ht : 0 < 2 ^ s.cfg.tow := Nat.pow_pos (by decide)
  have h7 : ∀ p, s.PortChecked p := forall_port h7 fun p hp _ => by simp [State.PortChecked, hp, Port.reset, hd, ht]
  refine ⟨⟨h1, h2, h3, h4, h5, h6, fun p => (h7 p).1.1, fun p => (h7 p).1.2.1, fun p => (h7 p).1.2.2⟩,
    ⟨fun p hp => ((h7 p).2 hp).1, fun p hp => ((h7 p).2 hp).2⟩, fun hv => ?_, fun hv => ?_⟩
  · obtain ⟨c1, c2, c3, c4, c5, c6, c7⟩ := of_decide_eq_true (h8 hv)
    have c1 : ∀ p, s.SpscPortChecked p :=
      forall_port c1 fun p hp _ => by simp [State.SpscPortChecked, hp, Port.reset, Port.inFlight, PState.spscCode]
    exact ⟨fun p => (c1 p).1, fun p => (c1 p).2, c2, c3, c4, c5, c6, c7⟩
  · obtain ⟨c1, c2, c3, c4, c5, c6, c7⟩ := of_decide_eq_true (h9 hv)
    have c1 : ∀ p, s.MpmcPortChecked p := by
      refine forall_port (fun p hp => of_decide_eq_true (c1 p hp)) fun p hp hl => ?_
      have ho : s.owner ≠ some p := fun e => by
        have := c2 p (by simp [e])
        omega
      have hr : p ∉ s.waitRTR := fun e => by
        have := c2 p (by simp [e])
        omega
      have hw : p ∉ s.waitRTW := fun e => by
        have := c2 p (by simp [e])
        omega
      simp [State.MpmcPortChecked, Port.timesChecked, Port.TimesChecked, hp, Port.reset, Port.inFlight, PState.mpmcCode,
        PState.holdsLock, ho, hr, hw]
    refine ⟨fun p => (c1 p).1, fun p => (c1 p).2.1, fun p => (c1 p).2.2.1, fun p => (c1 p).2.2.2.1,
      fun p => (c1 p).2.2.2.2.1, fun c p => ?_, fun c => ?_, c5, c6, fun p => (c1 p).2.2.2.2.2.2.2.1, c7, fun p => ?_⟩
    · cases c
      · exact (c1 p).2.2.2.2.2.1
      · exact (c1 p).2.2.2.2.2.2.1
    · cases c
      · exact c3
      · exact c4
    · obtain ⟨t1, t2, t3, t4, t5⟩ := of_decide_eq_true (c1 p).2.2.2.2.2.2.2.2
      exact ⟨t1, t2, t3, t4, t5⟩

end Sys2Proof.Machine
end

