-- ==== Sys2Proof/Laws/Decode.lean ====
section
/-! SUPPORT. The fields of a packed command word (R95): each is read back whole, and the word fits its width. -/

namespace Sys2Proof

theorem mod_pow_lt (a n : Nat) : a % 2 ^ n < 2 ^ n := Nat.mod_lt _ (Nat.pow_pos (by decide))

theorem packCommand_eq (c : Config) (op : Op) (d t : Nat) :
    packCommand c op d t = op.toNat + 2 ^ 3 * (d % 2 ^ c.dw + 2 ^ c.dw * (t % 2 ^ c.tow)) := by
  simp only [packCommand, Nat.pow_add, Nat.mul_add]
  rw [Nat.mul_comm (2 ^ c.dw) (2 ^ 3)]
  ac_rfl

theorem wordOp_packCommand (c : Config) (op : Op) (d t : Nat) : wordOp (packCommand c op d t) = op := by
  apply BitVec.eq_of_toNat_eq
  rw [wordOp, packCommand_eq, BitVec.toNat_ofNat, Nat.add_mul_mod_self_left, Nat.mod_eq_of_lt op.isLt]

theorem wordData_packCommand (c : Config) (op : Op) (d t : Nat) :
    wordData c (packCommand c op d t) = d % 2 ^ c.dw := by
  have hop : op.toNat < 2 ^ 3 := op.isLt
  rw [wordData, bitField, packCommand_eq, Nat.add_mul_div_left _ _ (by decide), Nat.div_eq_of_lt hop, Nat.zero_add,
    Nat.add_mul_mod_self_left, Nat.mod_mod]

theorem wordTimeout_packCommand (c : Config) (op : Op) (d t : Nat) :
    wordTimeout c (packCommand c op d t) = t % 2 ^ c.tow := by
  have hlt : op.toNat + d % 2 ^ c.dw * 2 ^ 3 < 2 ^ (c.dw + 3) := by
    have hop : op.toNat < 2 ^ 3 := op.isLt
    have hd := mod_pow_lt d c.dw
    rw [Nat.pow_add]
    have : (d % 2 ^ c.dw + 1) * 2 ^ 3 ≤ 2 ^ c.dw * 2 ^ 3 := Nat.mul_le_mul_right _ hd
    omega
  rw [wordTimeout, bitField, packCommand, Nat.add_mul_div_right _ _ (Nat.pow_pos (by decide)), Nat.div_eq_of_lt hlt,
    Nat.zero_add, Nat.mod_mod]

theorem packCommand_lt (c : Config) (op : Op) (d t : Nat) : packCommand c op d t < 2 ^ c.commandWidth := by
  have hop : op.toNat < 2 ^ 3 := op.isLt
  have hd := mod_pow_lt d c.dw
  have ht := mod_pow_lt t c.tow
  have e : 2 ^ c.commandWidth = 2 ^ c.tow * 2 ^ (c.dw + 3) := by
    rw [← Nat.pow_add]; congr 1; simp only [Config.commandWidth]; omega
  have h1 : (t % 2 ^ c.tow + 1) * 2 ^ (c.dw + 3) ≤ 2 ^ c.tow * 2 ^ (c.dw + 3) := Nat.mul_le_mul_right _ ht
  have h2 : (d % 2 ^ c.dw + 1) * 2 ^ 3 ≤ 2 ^ c.dw * 2 ^ 3 := Nat.mul_le_mul_right _ hd
  have h3 : 2 ^ (c.dw + 3) = 2 ^ c.dw * 2 ^ 3 := Nat.pow_add _ _ _
  simp only [packCommand]
  rw [Nat.add_mul] at h1 h2
  omega

/-- A word that fits is the packing of its fields. -/
theorem packCommand_fields (c : Config) (w : Nat) (h : w < 2 ^ c.commandWidth) :
    packCommand c (wordOp w) (wordData c w) (wordTimeout c w) = w := by
  have e : 2 ^ c.commandWidth = 2 ^ (c.dw + 3) * 2 ^ c.tow := by
    rw [← Nat.pow_add]; congr 1; simp only [Config.commandWidth]; omega
  have h3 : 2 ^ (c.dw + 3) = 2 ^ 3 * 2 ^ c.dw := by rw [Nat.pow_add, Nat.mul_comm]
  have ht : w / 2 ^ (c.dw + 3) < 2 ^ c.tow := Nat.div_lt_of_lt_mul (e ▸ h)
  have hd : w % 2 ^ (c.dw + 3) = w % 2 ^ 3 + 2 ^ 3 * (w / 2 ^ 3 % 2 ^ c.dw) := by rw [h3, Nat.mod_mul]
  have hw : w = w % 2 ^ (c.dw + 3) + 2 ^ (c.dw + 3) * (w / 2 ^ (c.dw + 3)) := (Nat.mod_add_div _ _).symm
  simp only [packCommand, wordOp, wordData, wordTimeout, bitField, BitVec.toNat_ofNat, Nat.mod_mod]
  rw [Nat.mod_eq_of_lt ht, Nat.mul_comm _ (2 ^ 3), Nat.mul_comm _ (2 ^ (c.dw + 3)), ← hd]
  exact hw.symm

theorem wordData_lt (c : Config) (w : Nat) : wordData c w < 2 ^ c.dw := mod_pow_lt _ _

theorem wordTimeout_lt (c : Config) (w : Nat) : wordTimeout c w < 2 ^ c.tow := mod_pow_lt _ _

theorem reserved_op : ∀ op : Op, opReserved op = true → 1#1 ++ op.setWidth 2 = op := by decide

theorem unreserved_op : ∀ op : Op, opReserved op = false → opOf false (opTimed op) (opDir op) = op := by decide

/-! The bits of each operation code (R92) -/

@[simp] theorem opDir_0 : opDir 0#3 = .enq := by decide
@[simp] theorem opTimed_0 : opTimed 0#3 = false := by decide
@[simp] theorem opReserved_0 : opReserved 0#3 = false := by decide
@[simp] theorem opDir_1 : opDir 1#3 = .deq := by decide
@[simp] theorem opTimed_1 : opTimed 1#3 = false := by decide
@[simp] theorem opReserved_1 : opReserved 1#3 = false := by decide
@[simp] theorem opDir_2 : opDir 2#3 = .enq := by decide
@[simp] theorem opTimed_2 : opTimed 2#3 = true := by decide
@[simp] theorem opReserved_2 : opReserved 2#3 = false := by decide
@[simp] theorem opDir_3 : opDir 3#3 = .deq := by decide
@[simp] theorem opTimed_3 : opTimed 3#3 = true := by decide
@[simp] theorem opReserved_3 : opReserved 3#3 = false := by decide
@[simp] theorem opDir_4 : opDir 4#3 = .enq := by decide
@[simp] theorem opTimed_4 : opTimed 4#3 = false := by decide
@[simp] theorem opReserved_4 : opReserved 4#3 = true := by decide
@[simp] theorem opDir_5 : opDir 5#3 = .deq := by decide
@[simp] theorem opTimed_5 : opTimed 5#3 = false := by decide
@[simp] theorem opReserved_5 : opReserved 5#3 = true := by decide
@[simp] theorem opDir_6 : opDir 6#3 = .enq := by decide
@[simp] theorem opTimed_6 : opTimed 6#3 = true := by decide
@[simp] theorem opReserved_6 : opReserved 6#3 = true := by decide
@[simp] theorem opDir_7 : opDir 7#3 = .deq := by decide
@[simp] theorem opTimed_7 : opTimed 7#3 = true := by decide
@[simp] theorem opReserved_7 : opReserved 7#3 = true := by decide

@[simp] theorem opDir_opOf (r t : Bool) (d : Dir) : opDir (opOf r t d) = d := by cases r <;> cases t <;> cases d <;> decide
@[simp] theorem opTimed_opOf (r t : Bool) (d : Dir) : opTimed (opOf r t d) = t := by
  cases r <;> cases t <;> cases d <;> decide
@[simp] theorem opReserved_opOf (r t : Bool) (d : Dir) : opReserved (opOf r t d) = r := by
  cases r <;> cases t <;> cases d <;> decide
@[simp] theorem opReserved_low (low : BitVec 2) : opReserved (1#1 ++ low) = true := by revert low; decide

/-- The instruction read from given fields has those fields. -/
theorem decodeFields_op (v : Variant) (p : Nat) (op : Op) (d t : Nat) : (decodeFields v p op d t).op = op := by
  by_cases hr : opReserved op = true
  · simpa [decodeFields, hr, Instr.op] using reserved_op op hr
  · have hr : opReserved op = false := by simpa using hr
    have k := unreserved_op op hr
    cases v <;> cases ht : opTimed op <;> cases hd : opDir op <;> rw [ht, hd] at k <;>
      simp only [decodeFields, hr, ht, hd, Bool.false_eq_true, if_false] <;> (try split) <;> exact k

theorem decodeFields_data (v : Variant) (p : Nat) (op : Op) (d t : Nat) : (decodeFields v p op d t).data = d := by
  unfold decodeFields
  split
  · rfl
  · split <;> (try split) <;> rfl

theorem decodeFields_timeout (v : Variant) (p : Nat) (op : Op) (d t : Nat) :
    (decodeFields v p op d t).timeout = t := by
  unfold decodeFields
  split
  · rfl
  · split <;> (try split) <;> rfl

/-- What the decoder can answer. -/
theorem decode_ok {c : Config} {p : Nat} {w : Nat} {i : Instr} (h : decode c p w = .ok i) :
    p < c.numPorts ∧ w < 2 ^ c.commandWidth ∧
      i = decodeFields c.variant p (wordOp w) (wordData c w) (wordTimeout c w) := by
  unfold decode at h
  split at h
  · rename_i hp
    split at h
    · rename_i hw
      cases h
      exact ⟨hp, hw, rfl⟩
    · cases h
  · cases h

theorem decode_of_lt {c : Config} {p : Nat} {w : Nat} (hp : p < c.numPorts) (hw : w < 2 ^ c.commandWidth) :
    decode c p w = .ok (decodeFields c.variant p (wordOp w) (wordData c w) (wordTimeout c w)) := by
  simp [decode, hp, hw]

/-- The command latched in fields that fit is the one its packed word decodes to. -/
theorem decode_packCommand {c : Config} {p : Nat} {op : Op} {d t : Nat} (hp : p < c.numPorts)
    (hd : d < 2 ^ c.dw) (ht : t < 2 ^ c.tow) :
    decode c p (packCommand c op d t) = .ok (decodeFields c.variant p op d t) := by
  rw [decode_of_lt hp (packCommand_lt c op d t), wordOp_packCommand, wordData_packCommand, wordTimeout_packCommand,
    Nat.mod_eq_of_lt hd, Nat.mod_eq_of_lt ht]

end Sys2Proof
end

