-- ==== Sys2Proof/Laws/Storage.lean ====
section
/-! SUPPORT. The laws of storage: a read after a write, every other slot as it was, and the canonical form kept. -/

namespace Sys2Proof.Machine

theorem slotAt_putSlot (m : List (Nat × Nat)) (i j : Nat) (v : Nat) :
    slotAt (putSlot m i v) j = if j = i then some v else slotAt m j := by
  induction m with
  | nil => simp [putSlot, slotAt, eq_comm]
  | cons e rest ih =>
    obtain ⟨k, u⟩ := e
    by_cases h1 : i < k
    · by_cases h : j = i
      · simp [putSlot, slotAt, h1, h]
      · have : ¬ i = j := fun e => h e.symm
        simp [putSlot, slotAt, h1, h, this]
    · by_cases h2 : i = k
      · subst h2
        by_cases h : j = i
        · simp [putSlot, slotAt, h]
        · have : ¬ i = j := fun e => h e.symm
          simp [putSlot, slotAt, h, this]
      · simp only [putSlot, h1, h2, if_false, slotAt, ih]
        by_cases h3 : k = j
        · subst h3
          have : ¬ k = i := fun e => h2 e.symm
          simp [this]
        · simp [h3]

@[simp] theorem slotAt_putSlot_same (m : List (Nat × Nat)) (i : Nat) (v : Nat) :
    slotAt (putSlot m i v) i = some v := by simp [slotAt_putSlot]

theorem slotAt_putSlot_ne (m : List (Nat × Nat)) {i j : Nat} (v : Nat) (h : j ≠ i) :
    slotAt (putSlot m i v) j = slotAt m j := by simp [slotAt_putSlot, h]

theorem mem_putSlot {m : List (Nat × Nat)} {i : Nat} {v : Nat} {e : Nat × Nat} (h : e ∈ putSlot m i v) :
    e = (i, v) ∨ e ∈ m := by
  induction m with
  | nil => simp [putSlot] at h; exact .inl h
  | cons a rest ih =>
    obtain ⟨k, u⟩ := a
    simp only [putSlot] at h
    split at h
    · simpa using h
    · split at h
      · rcases List.mem_cons.mp h with h | h
        · exact .inl h
        · exact .inr (List.mem_cons_of_mem _ h)
      · rcases List.mem_cons.mp h with h | h
        · exact .inr (h ▸ List.mem_cons_self)
        · exact (ih h).imp id (List.mem_cons_of_mem _)

theorem putSlot_wf {m : List (Nat × Nat)} (h : Memory.wf m) (i : Nat) (v : Nat) : Memory.wf (putSlot m i v) := by
  induction m with
  | nil => simp [putSlot, Memory.wf]
  | cons a rest ih =>
    obtain ⟨k, u⟩ := a
    obtain ⟨hk, hrest⟩ := List.pairwise_cons.mp h
    simp only [putSlot]
    split
    · rename_i hik
      refine List.pairwise_cons.mpr ⟨fun e he => ?_, h⟩
      rcases List.mem_cons.mp he with rfl | he
      · exact hik
      · exact Nat.lt_trans hik (hk e he)
    · split
      · rename_i _ hik
        subst hik
        exact List.pairwise_cons.mpr ⟨hk, hrest⟩
      · rename_i h1 h2
        refine List.pairwise_cons.mpr ⟨fun e he => ?_, ih hrest⟩
        rcases mem_putSlot he with rfl | he
        · exact Nat.lt_of_le_of_ne (Nat.le_of_not_lt h1) fun e => h2 e.symm
        · exact hk e he

theorem mem_of_slotAt {m : List (Nat × Nat)} {i : Nat} {v : Nat} (h : slotAt m i = some v) : (i, v) ∈ m := by
  induction m with
  | nil => simp [slotAt] at h
  | cons a rest ih =>
    obtain ⟨k, u⟩ := a
    simp only [slotAt] at h
    split at h
    · rename_i hk
      subst hk
      cases h
      exact List.mem_cons_self
    · exact List.mem_cons_of_mem _ (ih h)

/-- What a `MemWrite` can do. -/
theorem memWrite_ok {s t : State} {i : Nat} {v : Nat} (h : memWrite s i v = .ok t) :
    i < s.cfg.capacity ∧ t = { s with storage := putSlot s.storage i v } := by
  unfold memWrite at h
  split at h
  · rename_i hi
    cases h
    exact ⟨hi, rfl⟩
  · cases h

theorem memWrite_of_lt (s : State) {i : Nat} (v : Nat) (h : i < s.cfg.capacity) :
    memWrite s i v = .ok { s with storage := putSlot s.storage i v } := by simp [memWrite, h]

/-- What a `MemRead` can do. -/
theorem memRead_ok {s : State} {i : Nat} {v : Nat} (h : memRead s i = .ok v) :
    i < s.cfg.capacity ∧ slotAt s.storage i = some v := by
  unfold memRead at h
  split at h
  · rename_i hi
    split at h
    · rename_i hv
      cases h
      exact ⟨hi, hv⟩
    · cases h
  · cases h

theorem memRead_of_slotAt (s : State) {i : Nat} {v : Nat} (h : i < s.cfg.capacity) (hv : slotAt s.storage i = some v) :
    memRead s i = .ok v := by simp [memRead, h, hv]

/-- Every write of a well-formed storage gives a well-formed storage. -/
theorem memWrite_wf {s t : State} {i : Nat} {v : Nat} (hs : Memory.wf s.storage) (h : memWrite s i v = .ok t) :
    Memory.wf t.storage := by
  obtain ⟨_, rfl⟩ := memWrite_ok h
  exact putSlot_wf hs i v

/-! The index advance (R11) -/

theorem adv_lt (c : Config) (i : Nat) (h : 1 ≤ c.capacity) : adv c i < c.capacity := Nat.mod_lt _ h

theorem adv_eq (c : Config) {i : Nat} (h : i < c.capacity) : adv c i = if i + 1 = c.capacity then 0 else i + 1 := by
  unfold adv
  split
  · rename_i h'
    rw [h', Nat.mod_self]
  · exact Nat.mod_eq_of_lt (by omega)

end Sys2Proof.Machine
end

