-- ==== Sys2Proof/Laws/WaitSet.lean ====
section
/-! SUPPORT. The wait sets as sets: membership after an insertion, a removal, a choice; the rising order kept. -/

namespace Sys2Proof.Machine

theorem mem_insertWaiter (p r : Nat) (ws : List Nat) : r ∈ insertWaiter p ws ↔ r = p ∨ r ∈ ws := by
  induction ws with
  | nil => simp [insertWaiter]
  | cons w ws ih =>
    simp only [insertWaiter]
    split
    · simp
    · split
      · rename_i h
        subst h
        simp
      · simp only [List.mem_cons, ih]
        constructor
        · rintro (h | h | h) <;> simp [h]
        · rintro (h | h | h) <;> simp [h]

theorem insertWaiter_sorted (p : Nat) {ws : List Nat} (h : ws.Pairwise (· < ·)) :
    (insertWaiter p ws).Pairwise (· < ·) := by
  induction ws with
  | nil => simp [insertWaiter]
  | cons w ws ih =>
    obtain ⟨hw, hws⟩ := List.pairwise_cons.mp h
    simp only [insertWaiter]
    split
    · rename_i hp
      refine List.pairwise_cons.mpr ⟨fun x hx => ?_, h⟩
      rcases List.mem_cons.mp hx with rfl | hx
      · exact hp
      · exact Nat.lt_trans hp (hw x hx)
    · split
      · exact h
      · rename_i h1 h2
        refine List.pairwise_cons.mpr ⟨fun x hx => ?_, ih hws⟩
        rcases (mem_insertWaiter p x ws).mp hx with rfl | hx
        · exact Nat.lt_of_le_of_ne (Nat.le_of_not_lt h1) fun e => h2 e.symm
        · exact hw x hx

theorem mem_removeWaiter (p r : Nat) (ws : List Nat) : r ∈ removeWaiter p ws ↔ r ∈ ws ∧ r ≠ p := by
  simp [removeWaiter]

theorem removeWaiter_sorted (p : Nat) {ws : List Nat} (h : ws.Pairwise (· < ·)) :
    (removeWaiter p ws).Pairwise (· < ·) := h.sublist (List.filter_sublist)

/-- `choose w ∈ S` picks a member of a non-empty set (R13). -/
theorem chooseWaiter_mem {ws : List Nat} (h : ws ≠ []) (k : Nat) : chooseWaiter ws k ∈ ws := by
  have hlt : k % ws.length < ws.length := Nat.mod_lt _ (List.length_pos_iff.mpr h)
  have e : chooseWaiter ws k = ws[k % ws.length] := by simp [chooseWaiter, hlt]
  exact e ▸ List.getElem_mem hlt

/-- Every member of a wait set is chosen by some choice (R9: `wake_choice` is open). -/
theorem chooseWaiter_surj {ws : List Nat} {w : Nat} (h : w ∈ ws) : ∃ k, chooseWaiter ws k = w := by
  obtain ⟨k, hk, rfl⟩ := List.getElem_of_mem h
  exact ⟨k, by simp [chooseWaiter, Nat.mod_eq_of_lt hk, hk]⟩

end Sys2Proof.Machine
end

