-- ==== Sys2Proof/Laws/Moves.lean ====
section
/-! SUPPORT. What a step can do, said once: `Moved i s t` lists every way in which a turn of command `i` leads from `s` to
`t`, with the guard it was taken under; `exec_moved` says that these are all. Later proofs are case analyses over it. -/

namespace Sys2Proof.Machine

/-- The state a command goes to at `ISSUE`; an illegal command has none and completes at once (R99). -/
def firstState : Instr → Option PState
  | .spscEnq _ _ => some .check
  | .spscDeq _ _ => some .check
  | .mpmcEnq _ _ => some .acqTry
  | .mpmcDeq _ _ => some .acqTry
  | .mpmcEnqt _ _ => some .acqTimed
  | .mpmcDeqt _ _ => some .acqTimed
  | .reserved _ _ _ => none
  | .spscIllegalTimed _ _ _ => none
  | .spscIllegalDeqOnP _ _ => none
  | .spscIllegalEnqOnC _ _ => none

/-- An MPMC command that is not illegal. -/
def isMpmc : Instr → Bool
  | .mpmcEnq _ _ => true
  | .mpmcDeq _ _ => true
  | .mpmcEnqt _ _ => true
  | .mpmcDeqt _ _ => true
  | _ => false

/-- An SPSC command that is not illegal. -/
def isSpsc : Instr → Bool
  | .spscEnq _ _ => true
  | .spscDeq _ _ => true
  | _ => false

/-- The states in which a turn of the port always takes a step of command `i`: those of its path whose step has no guard
(R120, R190, R297). -/
def unguarded (i : Instr) (st : PState) : Bool :=
  (isSpsc i && (st == .check || st == .xfer || st == .adv)) ||
  (isMpmc i && (st == .pred || st == .xfer || st == .rel || st == .sig)) ||
  (isMpmc i && !opTimed i.op && st == .acqTry) || (isMpmc i && opTimed i.op && st == .elapsed)

/-- The port's record after `ISSUE` has latched the command. -/
def issued (i : Instr) (s : State) : State :=
  s.updPort s.me (latch s.cfg.variant i.op i.data i.timeout s.now s.seq)

/-- The turn may leave the state as it is: its agent's step has a guard that can be false there, or is none (log 2). -/
structure Stalls (i : Instr) (s : State) : Prop where
  move : ∀ alt k, s.sel.act = .move alt k → unguarded i s.cur.st = false
  issue : ∀ cw, s.sel.act = .issue cw → s.cur.st ≠ .idle
  accept : s.sel.act = .accept → s.cur.st ≠ .done

/-- Every way in which a turn of command `i` leads from one state to another. -/
inductive Moved (i : Instr) (s : State) : State → Prop where
  | stall (hg : Stalls i s) : Moved i s s
  | issue (cw : Nat) (st : PState) (ha : s.sel.act = .issue cw) (hs : s.cur.st = .idle) (hf : firstState i = some st) :
      Moved i s ((issued i s).goto st)
  | issueIllegal (cw : Nat) (ha : s.sel.act = .issue cw) (hs : s.cur.st = .idle) (hf : firstState i = none) :
      Moved i s (complete false .illegalOp (issued i s))
  | accept (ha : s.sel.act = .accept) (hs : s.cur.st = .done) : Moved i s (s.goto .idle)
  -- SPSC
  | pFull (alt : Bool) (k : Nat) (ha : s.sel.act = .move alt k) (hi : isSpsc i = true) (hd : opDir i.op = .enq)
      (hs : s.cur.st = .check) (hg : adv s.cfg s.wi = s.ri) : Moved i s (complete false .full s)
  | pCheck (alt : Bool) (k : Nat) (ha : s.sel.act = .move alt k) (hi : isSpsc i = true) (hd : opDir i.op = .enq)
      (hs : s.cur.st = .check) (hg : adv s.cfg s.wi ≠ s.ri) : Moved i s (s.goto .xfer)
  | pWrite (alt : Bool) (k : Nat) (ha : s.sel.act = .move alt k) (hi : isSpsc i = true) (hd : opDir i.op = .enq)
      (hs : s.cur.st = .xfer) (hw : s.wi < s.cfg.capacity) :
      Moved i s ({ s with storage := putSlot s.storage s.wi s.cur.data }.goto .adv)
  | pAdv (alt : Bool) (k : Nat) (ha : s.sel.act = .move alt k) (hi : isSpsc i = true) (hd : opDir i.op = .enq)
      (hs : s.cur.st = .adv) : Moved i s (complete true .none { s with wi := adv s.cfg s.wi })
  | cEmpty (alt : Bool) (k : Nat) (ha : s.sel.act = .move alt k) (hi : isSpsc i = true) (hd : opDir i.op = .deq)
      (hs : s.cur.st = .check) (hg : s.wi = s.ri) : Moved i s (complete false .empty s)
  | cCheck (alt : Bool) (k : Nat) (ha : s.sel.act = .move alt k) (hi : isSpsc i = true) (hd : opDir i.op = .deq)
      (hs : s.cur.st = .check) (hg : s.wi ≠ s.ri) : Moved i s (s.goto .xfer)
  | cRead (alt : Bool) (k v : Nat) (ha : s.sel.act = .move alt k) (hi : isSpsc i = true) (hd : opDir i.op = .deq)
      (hs : s.cur.st = .xfer) (hr : s.ri < s.cfg.capacity) (hv : slotAt s.storage s.ri = some v) :
      Moved i s ((s.updPort s.me fun q => { q with rspData := v }).goto .adv)
  | cAdv (alt : Bool) (k : Nat) (ha : s.sel.act = .move alt k) (hi : isSpsc i = true) (hd : opDir i.op = .deq)
      (hs : s.cur.st = .adv) : Moved i s (complete true .none { s with ri := adv s.cfg s.ri })
  -- MPMC
  | lockTry (alt : Bool) (k : Nat) (ha : s.sel.act = .move alt k) (hi : isMpmc i = true) (ht : opTimed i.op = false)
      (hs : s.cur.st = .acqTry) (hg : s.owner = none) : Moved i s ({ s with owner := some s.me }.goto .pred)
  | lockBusy (alt : Bool) (k : Nat) (ha : s.sel.act = .move alt k) (hi : isMpmc i = true) (ht : opTimed i.op = false)
      (hs : s.cur.st = .acqTry) (hg : s.owner ≠ none) : Moved i s (complete false .lockBusy s)
  | lockGrant (k : Nat) (ha : s.sel.act = .move false k) (hi : isMpmc i = true) (ht : opTimed i.op = true)
      (hs : s.cur.st = .acqTimed) (hg : s.owner = none) :
      Moved i s (({ s with owner := some s.me }.updPort s.me fun q => { q with t1 := s.now }).goto .elapsed)
  | lockExpire (k : Nat) (ha : s.sel.act = .move true k) (hi : isMpmc i = true) (ht : opTimed i.op = true)
      (hs : s.cur.st = .acqTimed) (hg : s.cur.timeout ≤ s.now - s.cur.start) :
      Moved i s (complete false .timeoutLock s)
  | elapsedLate (alt : Bool) (k : Nat) (ha : s.sel.act = .move alt k) (hi : isMpmc i = true) (ht : opTimed i.op = true)
      (hs : s.cur.st = .elapsed) (hg : s.cur.timeout ≤ s.cur.t1 - s.cur.start) :
      Moved i s (complete false .timeoutLock { s with owner := none })
  | elapsed (alt : Bool) (k : Nat) (ha : s.sel.act = .move alt k) (hi : isMpmc i = true) (ht : opTimed i.op = true)
      (hs : s.cur.st = .elapsed) (hg : s.cur.t1 - s.cur.start < s.cur.timeout) :
      Moved i s ((s.updPort s.me fun q =>
        { q with deadline := deadlineOf (s.cfg.legacyDeqBudget && opDir i.op == .deq) q.start q.t1 q.timeout }).goto .pred)
  | predTrue (alt : Bool) (k : Nat) (ha : s.sel.act = .move alt k) (hi : isMpmc i = true)
      (hs : s.cur.st = .pred) (hg : s.pred (opDir i.op) = true) : Moved i s (s.goto .xfer)
  | predFail (alt : Bool) (k : Nat) (ha : s.sel.act = .move alt k) (hi : isMpmc i = true) (ht : opTimed i.op = false)
      (hs : s.cur.st = .pred) (hg : s.pred (opDir i.op) = false) :
      Moved i s (complete false (failCause (opDir i.op)) { s with owner := none })
  | predLate (alt : Bool) (k : Nat) (ha : s.sel.act = .move alt k) (hi : isMpmc i = true) (ht : opTimed i.op = true)
      (hs : s.cur.st = .pred) (hg : s.pred (opDir i.op) = false) (hl : s.cur.deadline ≤ s.now) :
      Moved i s (complete false .timeoutWait { s with owner := none })
  | predWait (alt : Bool) (k : Nat) (ha : s.sel.act = .move alt k) (hi : isMpmc i = true) (ht : opTimed i.op = true)
      (hs : s.cur.st = .pred) (hg : s.pred (opDir i.op) = false) (hl : s.now < s.cur.deadline) :
      Moved i s (enterWait (opDir i.op) s)
  | wakeDeadline (k : Nat) (ha : s.sel.act = .move false k) (hi : isMpmc i = true) (ht : opTimed i.op = true)
      (hs : s.cur.st = .cwait) (hg : s.cur.deadline ≤ s.now) : Moved i s (leaveWait (opDir i.op) s)
  | wakeSpurious (k : Nat) (ha : s.sel.act = .move true k) (hi : isMpmc i = true) (ht : opTimed i.op = true)
      (hs : s.cur.st = .cwait) (hg : s.cfg.spuriousWake = true) : Moved i s (leaveWait (opDir i.op) s)
  | lockReacq (alt : Bool) (k : Nat) (ha : s.sel.act = .move alt k) (hi : isMpmc i = true) (ht : opTimed i.op = true)
      (hs : s.cur.st = .reacq) (hg : s.owner = none) : Moved i s ({ s with owner := some s.me }.goto .pred)
  | doEnq (alt : Bool) (k : Nat) (ha : s.sel.act = .move alt k) (hi : isMpmc i = true) (hd : opDir i.op = .enq)
      (hs : s.cur.st = .xfer) (hw : s.wi < s.cfg.capacity) :
      Moved i s ({ s with storage := putSlot s.storage s.wi s.cur.data, wi := adv s.cfg s.wi, size := s.size + 1 }.goto
        .rel)
  | doDeq (alt : Bool) (k v : Nat) (ha : s.sel.act = .move alt k) (hi : isMpmc i = true) (hd : opDir i.op = .deq)
      (hs : s.cur.st = .xfer) (hr : s.ri < s.cfg.capacity) (hv : slotAt s.storage s.ri = some v) :
      Moved i s (({ s with ri := adv s.cfg s.ri, size := s.size - 1 }.updPort s.me fun q => { q with rspData := v }).goto
        .rel)
  | unlock (alt : Bool) (k : Nat) (ha : s.sel.act = .move alt k) (hi : isMpmc i = true) (hs : s.cur.st = .rel) :
      Moved i s ({ s with owner := none }.goto .sig)
  | signal (alt : Bool) (k : Nat) (ha : s.sel.act = .move alt k) (hi : isMpmc i = true) (hs : s.cur.st = .sig) :
      Moved i s (complete true .none (wakeOne (signals (opDir i.op)) k s))

/-! One inversion lemma per step function -/

section
variable {i : Instr} {s t : State}

theorem unguarded_of_illegal (hf : firstState i = none) (st : PState) : unguarded i st = false := by
  cases i <;> simp_all [firstState, unguarded, isSpsc, isMpmc]

theorem stall_moved {alt : Bool} {k : Nat} (ha : s.sel.act = .move alt k) (hu : unguarded i s.cur.st = false)
    (h : stall s = .next t) : Moved i s t := by
  cases h
  exact .stall ⟨fun _ _ _ => hu, by simp [ha], by simp [ha]⟩

theorem accept_moved (ha : s.sel.act = .accept) (h : accept s = .next t) : Moved i s t := by
  unfold accept at h
  split at h
  · cases h
    exact .accept ha ‹_›
  · cases h
    exact .stall ⟨by simp [ha], by simp [ha], fun _ => ‹_›⟩

theorem issue_moved {cw : Nat} {st : PState} (ha : s.sel.act = .issue cw) (hf : firstState i = some st)
    (h : issue i.op i.data i.timeout st s = .next t) : Moved i s t := by
  unfold issue at h
  split at h
  · cases h
    exact .issue cw st ha ‹_› hf
  · cases h
    exact .stall ⟨by simp [ha], fun _ _ => ‹_›, by simp [ha]⟩

theorem issueIllegal_moved {cw : Nat} (ha : s.sel.act = .issue cw) (hf : firstState i = none)
    (h : issueIllegal i.op i.data i.timeout s = .next t) : Moved i s t := by
  unfold issueIllegal at h
  split at h
  · cases h
    exact .issueIllegal cw ha ‹_› hf
  · cases h
    exact .stall ⟨by simp [ha], fun _ _ => ‹_›, by simp [ha]⟩

theorem illegalCommand_moved (hf : firstState i = none) (h : illegalCommand i.op i.data i.timeout s = .next t) :
    Moved i s t := by
  unfold illegalCommand at h
  split at h
  · exact issueIllegal_moved ‹_› hf h
  · exact accept_moved ‹_› h
  · exact stall_moved ‹_› (unguarded_of_illegal hf _) h

variable {alt : Bool} {k : Nat} (ha : s.sel.act = .move alt k)
include ha

theorem pCheck_moved (hi : isSpsc i = true) (hd : opDir i.op = .enq) (hs : s.cur.st = .check)
    (h : pCheck s = .next t) : Moved i s t := by
  unfold pCheck State.spscFull at h
  split at h <;> cases h
  · rename_i hg
    exact .pFull alt k ha hi hd hs (by simpa using hg)
  · rename_i hg
    exact .pCheck alt k ha hi hd hs (by simpa using hg)

theorem pWrite_moved (hi : isSpsc i = true) (hd : opDir i.op = .enq) (hs : s.cur.st = .xfer)
    (h : pWrite s = .next t) : Moved i s t := by
  unfold pWrite at h
  split at h <;> cases h
  obtain ⟨hw, rfl⟩ := memWrite_ok ‹_›
  exact .pWrite alt k ha hi hd hs hw

theorem pAdv_moved (hi : isSpsc i = true) (hd : opDir i.op = .enq) (hs : s.cur.st = .adv)
    (h : pAdv s = .next t) : Moved i s t := by
  cases h
  exact .pAdv alt k ha hi hd hs

theorem cCheck_moved (hi : isSpsc i = true) (hd : opDir i.op = .deq) (hs : s.cur.st = .check)
    (h : cCheck s = .next t) : Moved i s t := by
  unfold cCheck State.spscEmpty at h
  split at h <;> cases h
  · rename_i hg
    exact .cEmpty alt k ha hi hd hs (by simpa using hg)
  · rename_i hg
    exact .cCheck alt k ha hi hd hs (by simpa using hg)

theorem cRead_moved (hi : isSpsc i = true) (hd : opDir i.op = .deq) (hs : s.cur.st = .xfer)
    (h : cRead s = .next t) : Moved i s t := by
  unfold cRead at h
  split at h <;> cases h
  obtain ⟨hr, hv⟩ := memRead_ok ‹_›
  exact .cRead alt k _ ha hi hd hs hr hv

theorem cAdv_moved (hi : isSpsc i = true) (hd : opDir i.op = .deq) (hs : s.cur.st = .adv)
    (h : cAdv s = .next t) : Moved i s t := by
  cases h
  exact .cAdv alt k ha hi hd hs

theorem lockTry_moved (hi : isMpmc i = true) (ht : opTimed i.op = false) (hs : s.cur.st = .acqTry)
    (h : lockTry s = .next t) : Moved i s t := by
  unfold lockTry at h
  split at h <;> cases h
  · exact .lockTry alt k ha hi ht hs ‹_›
  · exact .lockBusy alt k ha hi ht hs ‹_›

theorem lockTimed_moved (hi : isMpmc i = true) (ht : opTimed i.op = true) (hs : s.cur.st = .acqTimed)
    (h : (if alt then lockExpire s else lockGrant s) = .next t) : Moved i s t := by
  cases alt
  · unfold lockGrant at h
    simp only [Bool.false_eq_true, if_false] at h
    split at h
    · cases h
      exact .lockGrant k ha hi ht hs ‹_›
    · exact stall_moved ha (by simp [unguarded, hs]) h
  · unfold lockExpire at h
    simp only [if_true] at h
    split at h
    · cases h
      exact .lockExpire k ha hi ht hs ‹_›
    · exact stall_moved ha (by simp [unguarded, hs]) h

theorem judgeElapsed_moved (hi : isMpmc i = true) (ht : opTimed i.op = true) (hs : s.cur.st = .elapsed)
    {legacy : Bool}
    (hl : (s.cfg.legacyDeqBudget && opDir i.op == .deq) = legacy) (h : judgeElapsed legacy s = .next t) : Moved i s t := by
  subst hl
  unfold judgeElapsed at h
  split at h <;> cases h
  · exact .elapsedLate alt k ha hi ht hs ‹_›
  · exact .elapsed alt k ha hi ht hs (Nat.lt_of_not_le ‹_›)

theorem predNonblocking_moved (hi : isMpmc i = true) {dir : Dir} (hd : opDir i.op = dir) (ht : opTimed i.op = false) (hs : s.cur.st = .pred)
    (h : predNonblocking dir s = .next t) : Moved i s t := by
  subst hd
  unfold predNonblocking at h
  split at h <;> cases h
  · exact .predTrue alt k ha hi hs ‹_›
  · rename_i hg
    exact .predFail alt k ha hi ht hs (by simpa using hg)

theorem predTimed_moved (hi : isMpmc i = true) {dir : Dir} (hd : opDir i.op = dir) (ht : opTimed i.op = true) (hs : s.cur.st = .pred)
    (h : predTimed dir s = .next t) : Moved i s t := by
  subst hd
  unfold predTimed at h
  split at h
  · cases h
    exact .predTrue alt k ha hi hs ‹_›
  · split at h <;> cases h
    · rename_i hp hl
      exact .predLate alt k ha hi ht hs (by simpa using hp) hl
    · rename_i hp hl
      exact .predWait alt k ha hi ht hs (by simpa using hp) (Nat.lt_of_not_le hl)

theorem cwait_moved (hi : isMpmc i = true) {dir : Dir} (hd : opDir i.op = dir) (ht : opTimed i.op = true) (hs : s.cur.st = .cwait)
    (h : (if alt then wakeSpurious dir s else wakeDeadline dir s) = .next t) : Moved i s t := by
  subst hd
  cases alt
  · unfold wakeDeadline at h
    simp only [Bool.false_eq_true, if_false] at h
    split at h
    · cases h
      exact .wakeDeadline k ha hi ht hs ‹_›
    · exact stall_moved ha (by simp [unguarded, hs]) h
  · unfold wakeSpurious at h
    simp only [if_true] at h
    split at h
    · cases h
      exact .wakeSpurious k ha hi ht hs ‹_›
    · exact stall_moved ha (by simp [unguarded, hs]) h

theorem lockReacq_moved (hi : isMpmc i = true) (ht : opTimed i.op = true) (hs : s.cur.st = .reacq)
    (h : lockReacq s = .next t) : Moved i s t := by
  unfold lockReacq at h
  split at h
  · cases h
    exact .lockReacq alt k ha hi ht hs ‹_›
  · exact stall_moved ha (by simp [unguarded, hs]) h

theorem doEnq_moved (hi : isMpmc i = true) (hd : opDir i.op = .enq) (hs : s.cur.st = .xfer)
    (h : doEnq s = .next t) : Moved i s t := by
  unfold doEnq at h
  split at h <;> cases h
  obtain ⟨hw, rfl⟩ := memWrite_ok ‹_›
  exact .doEnq alt k ha hi hd hs hw

theorem doDeq_moved (hi : isMpmc i = true) (hd : opDir i.op = .deq) (hs : s.cur.st = .xfer)
    (h : doDeq s = .next t) : Moved i s t := by
  unfold doDeq at h
  split at h <;> cases h
  obtain ⟨hr, hv⟩ := memRead_ok ‹_›
  exact .doDeq alt k _ ha hi hd hs hr hv

theorem unlock_moved (hi : isMpmc i = true) (hs : s.cur.st = .rel) (h : unlock s = .next t) : Moved i s t := by
  cases h
  exact .unlock alt k ha hi hs

theorem signal_moved (hi : isMpmc i = true) {dir : Dir} (hd : opDir i.op = dir) (hs : s.cur.st = .sig) (h : signal dir k s = .next t) :
    Moved i s t := by
  subst hd
  cases h
  exact .signal alt k ha hi hs

end

/-! One per command, and all together -/

section
variable {s t : State}

theorem execSpscEnq_moved {d tmo : Nat} (h : execSpscEnq d tmo s = .next t) : Moved (.spscEnq d tmo) s t := by
  unfold execSpscEnq at h
  split at h
  · exact issue_moved ‹_› rfl h
  · exact accept_moved ‹_› h
  · split at h
    · exact pCheck_moved ‹_› rfl (by simp [Instr.op]) ‹_› h
    · exact pWrite_moved ‹_› rfl (by simp [Instr.op]) ‹_› h
    · exact pAdv_moved ‹_› rfl (by simp [Instr.op]) ‹_› h
    · exact stall_moved ‹_› (by simp_all [unguarded, isSpsc, isMpmc, Instr.op]) h

theorem execSpscDeq_moved {d tmo : Nat} (h : execSpscDeq d tmo s = .next t) : Moved (.spscDeq d tmo) s t := by
  unfold execSpscDeq at h
  split at h
  · exact issue_moved ‹_› rfl h
  · exact accept_moved ‹_› h
  · split at h
    · exact cCheck_moved ‹_› rfl (by simp [Instr.op]) ‹_› h
    · exact cRead_moved ‹_› rfl (by simp [Instr.op]) ‹_› h
    · exact cAdv_moved ‹_› rfl (by simp [Instr.op]) ‹_› h
    · exact stall_moved ‹_› (by simp_all [unguarded, isSpsc, isMpmc, Instr.op]) h

theorem execMpmcEnq_moved {d tmo : Nat} (h : execMpmcEnq d tmo s = .next t) : Moved (.mpmcEnq d tmo) s t := by
  unfold execMpmcEnq at h
  split at h
  · exact issue_moved ‹_› rfl h
  · exact accept_moved ‹_› h
  · split at h
    · exact lockTry_moved ‹_› rfl (by simp [Instr.op]) ‹_› h
    · exact predNonblocking_moved ‹_› rfl (by simp [Instr.op]) (by simp [Instr.op]) ‹_› h
    · exact doEnq_moved ‹_› rfl (by simp [Instr.op]) ‹_› h
    · exact unlock_moved ‹_› rfl ‹_› h
    · exact signal_moved ‹_› rfl (by simp [Instr.op]) ‹_› h
    · exact stall_moved ‹_› (by simp_all [unguarded, isSpsc, isMpmc, Instr.op]) h

theorem execMpmcDeq_moved {d tmo : Nat} (h : execMpmcDeq d tmo s = .next t) : Moved (.mpmcDeq d tmo) s t := by
  unfold execMpmcDeq at h
  split at h
  · exact issue_moved ‹_› rfl h
  · exact accept_moved ‹_› h
  · split at h
    · exact lockTry_moved ‹_› rfl (by simp [Instr.op]) ‹_› h
    · exact predNonblocking_moved ‹_› rfl (by simp [Instr.op]) (by simp [Instr.op]) ‹_› h
    · exact doDeq_moved ‹_› rfl (by simp [Instr.op]) ‹_› h
    · exact unlock_moved ‹_› rfl ‹_› h
    · exact signal_moved ‹_› rfl (by simp [Instr.op]) ‹_› h
    · exact stall_moved ‹_› (by simp_all [unguarded, isSpsc, isMpmc, Instr.op]) h

theorem execMpmcEnqt_moved {d tmo : Nat} (h : execMpmcEnqt d tmo s = .next t) : Moved (.mpmcEnqt d tmo) s t := by
  unfold execMpmcEnqt at h
  split at h
  · exact issue_moved ‹_› rfl h
  · exact accept_moved ‹_› h
  · split at h
    · exact lockTimed_moved ‹_› rfl (by simp [Instr.op]) ‹_› h
    · exact judgeElapsed_moved ‹_› rfl (by simp [Instr.op]) ‹_› (by simp [Instr.op]) h
    · exact predTimed_moved ‹_› rfl (by simp [Instr.op]) (by simp [Instr.op]) ‹_› h
    · exact cwait_moved ‹_› rfl (by simp [Instr.op]) (by simp [Instr.op]) ‹_› h
    · exact lockReacq_moved ‹_› rfl (by simp [Instr.op]) ‹_› h
    · exact doEnq_moved ‹_› rfl (by simp [Instr.op]) ‹_› h
    · exact unlock_moved ‹_› rfl ‹_› h
    · exact signal_moved ‹_› rfl (by simp [Instr.op]) ‹_› h
    · exact stall_moved ‹_› (by simp_all [unguarded, isSpsc, isMpmc, Instr.op]) h

theorem execMpmcDeqt_moved {d tmo : Nat} (h : execMpmcDeqt d tmo s = .next t) : Moved (.mpmcDeqt d tmo) s t := by
  unfold execMpmcDeqt at h
  split at h
  · exact issue_moved ‹_› rfl h
  · exact accept_moved ‹_› h
  · split at h
    · exact lockTimed_moved ‹_› rfl (by simp [Instr.op]) ‹_› h
    · exact judgeElapsed_moved ‹_› rfl (by simp [Instr.op]) ‹_› (by simp [Instr.op]) h
    · exact predTimed_moved ‹_› rfl (by simp [Instr.op]) (by simp [Instr.op]) ‹_› h
    · exact cwait_moved ‹_› rfl (by simp [Instr.op]) (by simp [Instr.op]) ‹_› h
    · exact lockReacq_moved ‹_› rfl (by simp [Instr.op]) ‹_› h
    · exact doDeq_moved ‹_› rfl (by simp [Instr.op]) ‹_› h
    · exact unlock_moved ‹_› rfl ‹_› h
    · exact signal_moved ‹_› rfl (by simp [Instr.op]) ‹_› h
    · exact stall_moved ‹_› (by simp_all [unguarded, isSpsc, isMpmc, Instr.op]) h

/-- Everything a command's turn can do. -/
theorem exec_moved {i : Instr} (h : exec i s = .next t) : Moved i s t := by
  cases i with
  | spscEnq d tmo => exact execSpscEnq_moved h
  | spscDeq d tmo => exact execSpscDeq_moved h
  | mpmcEnq d tmo => exact execMpmcEnq_moved h
  | mpmcDeq d tmo => exact execMpmcDeq_moved h
  | mpmcEnqt d tmo => exact execMpmcEnqt_moved h
  | mpmcDeqt d tmo => exact execMpmcDeqt_moved h
  | reserved low d tmo => exact illegalCommand_moved rfl h
  | spscIllegalTimed dir d tmo => exact illegalCommand_moved rfl h
  | spscIllegalDeqOnP d tmo => exact illegalCommand_moved rfl h
  | spscIllegalEnqOnC d tmo => exact illegalCommand_moved rfl h

/-- What a tick can do. -/
theorem tick_next (h : tick s = .next t) : s.tickWraps = false ∧ t = { s with now := s.now + 1 } := by
  unfold tick at h
  split at h <;> cases h
  rename_i hw
  exact ⟨by simpa using hw, rfl⟩

/-- What a reset can do. -/
theorem reset_next (h : reset s = .next t) :
    (∀ q ∈ s.ports, q.st = .idle) ∧
      t = { State.resetFor s.cfg s.now with sel := s.sel, script := s.script, seq := s.seq } := by
  unfold reset at h
  split at h
  · rename_i ha
    cases h
    exact ⟨by simpa using ha, rfl⟩
  · cases h

/-- What a step can do: a tick, a reset, or a turn of the command that the word in front of the port decodes to. -/
theorem step_next (h : step s = .next t) :
    s.cfg.Legal ∧
      ((s.nextEvent = .tick ∧ tick s.takeEvent = .next t) ∨
       (s.nextEvent = .reset ∧ reset s.takeEvent = .next t) ∨
       ∃ p a i, s.nextEvent = .turn p a ∧ decode s.cfg p (s.takeEvent.withTurn p a).commandWord = .ok i ∧
         exec i (s.takeEvent.withTurn p a) = .next t) := by
  unfold step at h
  split at h
  · refine ⟨‹_›, ?_⟩
    split at h
    · exact .inl ⟨‹_›, h⟩
    · exact .inr (.inl ⟨‹_›, h⟩)
    · rename_i p a he
      split at h
      · exact .inr (.inr ⟨p, a, _, he, ‹_›, h⟩)
      · cases h
  · cases h

end

end Sys2Proof.Machine
end

