-- ==== Sys2Proof/Laws/Turn.lean ====
section
/-! SUPPORT. What a turn is about: the small laws of latching and of a wake-up, and `Coherent i s`, which says where the
command of a turn comes from (R91, R101), with what follows from it. -/

namespace Sys2Proof.Machine

/-! Latching -/

section
variable (v : Variant) (op : Op) (d tmo now seq : Nat) (q : Port)

@[simp] theorem latch_st : (latch v op d tmo now seq q).st = q.st := by cases v <;> rfl
@[simp] theorem latch_op : (latch v op d tmo now seq q).op = op := by cases v <;> rfl
@[simp] theorem latch_data : (latch v op d tmo now seq q).data = d := by cases v <;> rfl
@[simp] theorem latch_t1 : (latch v op d tmo now seq q).t1 = q.t1 := by cases v <;> rfl
@[simp] theorem latch_deadline : (latch v op d tmo now seq q).deadline = q.deadline := by cases v <;> rfl
@[simp] theorem latch_rspOk : (latch v op d tmo now seq q).rspOk = q.rspOk := by cases v <;> rfl
@[simp] theorem latch_rspCause : (latch v op d tmo now seq q).rspCause = q.rspCause := by cases v <;> rfl
@[simp] theorem latch_rspData : (latch v op d tmo now seq q).rspData = q.rspData := by cases v <;> rfl

/-- An SPSC `ISSUE` latches no timeout and no time (R123). -/
theorem latch_spsc : latch .spsc op d tmo now seq q = { q with op := op, data := d, draw := seq } := rfl

/-- R150. -/
theorem latch_mpmc : latch .mpmc op d tmo now seq q =
    { q with op := op, data := d, timeout := tmo, start := now, draw := seq } := rfl

end

theorem failCause_ne_none (d : Dir) : failCause d ≠ .none := by cases d <;> decide

theorem firstState_ne_done {i : Instr} {st : PState} (h : firstState i = some st) : st ≠ .done := by
  cases i <;> simp only [firstState, Option.some.injEq, reduceCtorEq] at h <;> subst h <;> decide

/-! The wake-up of a `SIGNAL` (R161) -/

section
variable (c : Condition) (k : Nat) (s : State)

@[simp] theorem wakeOne_cfg : (wakeOne c k s).cfg = s.cfg := by unfold wakeOne; split <;> simp
@[simp] theorem wakeOne_me : (wakeOne c k s).me = s.me := by unfold wakeOne; split <;> simp
@[simp] theorem wakeOne_wi : (wakeOne c k s).wi = s.wi := by unfold wakeOne; split <;> simp
@[simp] theorem wakeOne_ri : (wakeOne c k s).ri = s.ri := by unfold wakeOne; split <;> simp
@[simp] theorem wakeOne_size : (wakeOne c k s).size = s.size := by unfold wakeOne; split <;> simp
@[simp] theorem wakeOne_storage : (wakeOne c k s).storage = s.storage := by unfold wakeOne; split <;> simp
@[simp] theorem wakeOne_owner : (wakeOne c k s).owner = s.owner := by unfold wakeOne; split <;> simp
@[simp] theorem wakeOne_now : (wakeOne c k s).now = s.now := by unfold wakeOne; split <;> simp
@[simp] theorem length_wakeOne : (wakeOne c k s).ports.length = s.ports.length := by unfold wakeOne; split <;> simp

/-- Exactly the chosen waiter, if there is one, changes, and of it only the state. -/
theorem portAt_wakeOne (hl : ∀ w ∈ s.waitSet c, w < s.ports.length) (r : Nat) :
    (wakeOne c k s).portAt r =
      if s.waitSet c ≠ [] ∧ r = chooseWaiter (s.waitSet c) k then { s.portAt r with st := .reacq } else s.portAt r := by
  unfold wakeOne
  split
  · rename_i h
    simp [h]
  · rename_i hne
    rw [portAt_updPort _ _ _ _ (by simpa using hl _ (chooseWaiter_mem hne k))]
    by_cases hr : r = chooseWaiter (s.waitSet c) k <;> simp [hr, hne]

theorem waitSet_wakeOne (d : Condition) :
    (wakeOne c k s).waitSet d =
      if d = c then removeWaiter (chooseWaiter (s.waitSet c) k) (s.waitSet c) else s.waitSet d := by
  unfold wakeOne
  split
  · rename_i h
    split
    · rename_i h2
      rw [h2, h]
      rfl
    · rfl
  · rw [waitSet_updPort, setWaitSet_waitSet]

end

/-- No step changes a parameter (R284). -/
theorem moved_cfg {i : Instr} {s t : State} (h : Moved i s t) : t.cfg = s.cfg := by
  cases h <;> simp [issued, enterWait, leaveWait]

/-! Consistency is about the machine, not about what happens next -/

theorem inv_withSchedule {s : State} (h : s.Inv) (sel : Sel) (script : List Event) (seq : Nat) :
    ({ s with sel := sel, script := script, seq := seq } : State).Inv := by
  have hw : ∀ c, ({ s with sel := sel, script := script, seq := seq } : State).waitSet c = s.waitSet c := by
    intro c; cases c <;> rfl
  have hp : ∀ d, ({ s with sel := sel, script := script, seq := seq } : State).pred d = s.pred d := by
    intro d; cases d <;> rfl
  refine ⟨⟨h.typed.1, h.typed.2, h.typed.3, h.typed.4, h.typed.5, h.typed.6, h.typed.7, h.typed.8, h.typed.9⟩,
    ⟨h.responses.1, h.responses.2⟩, fun hv => ?_, fun hv => ?_⟩
  · obtain ⟨c1, c2, c3, c4, c5, c6, c7, c8⟩ := h.spsc hv
    exact ⟨c1, c2, c3, c4, c5, c6, c7, c8⟩
  · obtain ⟨c1, c2, c3, c4, c5, c6, c7, c8, c9, c10, c11, c12⟩ := h.mpmc hv
    exact ⟨c1, c2, c3, c4, c5, fun c => (hw c).symm ▸ c6 c, fun c => (hw c).symm ▸ c7 c, c8, c9,
      fun p h => (hp _).trans (c10 p h), c11, c12⟩

theorem inv_takeEvent {s : State} (h : s.Inv) : s.takeEvent.Inv := inv_withSchedule h _ _ _

theorem inv_withTurn {s : State} (h : s.Inv) (p : Nat) (a : Act) : (s.withTurn p a).Inv := inv_withSchedule h _ _ _

@[simp] theorem portAt_resetFor (c : Config) (now p : Nat) : (State.resetFor c now).portAt p = Port.reset := by
  simp only [State.portAt, State.resetFor, List.getD_eq_getElem?_getD, List.getElem?_replicate]
  split <;> rfl

/-! The command of a turn -/

/-- The command of the turn in `s` is `i`: the one presented on an `ISSUE`, else the one latched. -/
structure Coherent (i : Instr) (s : State) : Prop where
  me_lt : s.me < s.cfg.numPorts
  issue : ∀ cw, s.sel.act = .issue cw →
    i = decodeFields s.cfg.variant s.me (wordOp cw) (wordData s.cfg cw) (wordTimeout s.cfg cw)
  other : (∀ cw, s.sel.act ≠ .issue cw) → i = s.latched s.me

/-- What `step` decodes is the command of the turn. -/
theorem coherent_of_decode {s : State} (hI : s.Inv) {i : Instr} {p : Nat} {a : Act}
    (h : decode s.cfg p (s.withTurn p a).commandWord = .ok i) : Coherent i (s.withTurn p a) := by
  have hp := (decode_ok h).1
  have key := decode_packCommand (op := (s.portAt p).op) hp (hI.typed.data_lt p) (hI.typed.timeout_lt p)
  cases a with
  | issue cw =>
    refine ⟨hp, fun cw' ha => ?_, fun hn => absurd rfl (hn cw)⟩
    cases ha
    exact (decode_ok h).2.2
  | accept => exact ⟨hp, fun cw' ha => by (cases ha), fun _ => (Except.ok.inj (key.symm.trans h)).symm⟩
  | move b k => exact ⟨hp, fun cw' ha => by (cases ha), fun _ => (Except.ok.inj (key.symm.trans h)).symm⟩

section
variable {i : Instr} {s : State} (hc : Coherent i s)
include hc

theorem Coherent.data_lt {cw : Nat} (ha : s.sel.act = .issue cw) : i.data < 2 ^ s.cfg.dw := by
  rw [hc.issue cw ha, decodeFields_data]
  exact wordData_lt _ _

theorem Coherent.timeout_lt {cw : Nat} (ha : s.sel.act = .issue cw) : i.timeout < 2 ^ s.cfg.tow := by
  rw [hc.issue cw ha, decodeFields_timeout]
  exact wordTimeout_lt _ _

theorem Coherent.op_eq (ha : ∀ cw, s.sel.act ≠ .issue cw) : i.op = s.cur.op := by
  rw [hc.other ha]
  exact decodeFields_op _ _ _ _ _

theorem Coherent.fields : ∃ op d tmo, i = decodeFields s.cfg.variant s.me op d tmo := by
  by_cases ha : ∃ cw, s.sel.act = .issue cw
  · obtain ⟨cw, ha⟩ := ha
    exact ⟨_, _, _, hc.issue cw ha⟩
  · exact ⟨_, _, _, hc.other fun cw e => ha ⟨cw, e⟩⟩

end

/-- The row of the opcode map that an SPSC port reads (R98). -/
theorem spsc_kinds (p : Nat) (op : Op) (d tmo : Nat) (hp : p < 2) :
    isMpmc (decodeFields .spsc p op d tmo) = false ∧
    (isSpsc (decodeFields .spsc p op d tmo) = true → (p = portP ∧ op = 0#3) ∨ (p = portC ∧ op = 1#3)) ∧
    (∀ st, firstState (decodeFields .spsc p op d tmo) = some st →
      st = .check ∧ ((p = portP ∧ op = 0#3) ∨ (p = portC ∧ op = 1#3))) := by
  by_cases hr : opReserved op = true
  · simp [decodeFields, hr, isMpmc, isSpsc, firstState]
  · have k := unreserved_op op (by simpa using hr)
    have hp' : p = 0 ∨ p = 1 := by omega
    rcases hp' with rfl | rfl <;> cases ht : opTimed op <;> cases hd : opDir op <;> rw [ht, hd] at k <;>
      simp [decodeFields, isMpmc, isSpsc, firstState, ← k, opOf]

/-- The row of the opcode map that an MPMC port reads (R98). -/
theorem mpmc_kinds (p : Nat) (op : Op) (d tmo : Nat) :
    isSpsc (decodeFields .mpmc p op d tmo) = false ∧
    (isMpmc (decodeFields .mpmc p op d tmo) = true → opReserved op = false) ∧
    (∀ st, firstState (decodeFields .mpmc p op d tmo) = some st →
      opReserved op = false ∧ ((st = .acqTry ∧ opTimed op = false) ∨ (st = .acqTimed ∧ opTimed op = true))) ∧
    (firstState (decodeFields .mpmc p op d tmo) = none → opReserved op = true) := by
  by_cases hr : opReserved op = true
  · simp [decodeFields, hr, isMpmc, isSpsc, firstState]
  · cases ht : opTimed op <;> cases hd : opDir op <;>
      simp [decodeFields, hr, ht, hd, isMpmc, isSpsc, firstState]

/-- No command of the other variant is read (R98). -/
theorem kind_variant {i : Instr} {s : State} (hc : Coherent i s) :
    (s.cfg.variant = .spsc → isMpmc i = false) ∧ (s.cfg.variant = .mpmc → isSpsc i = false) := by
  obtain ⟨op, d, tmo, e⟩ := hc.fields
  have hm := hc.me_lt
  refine ⟨fun hv => ?_, fun hv => ?_⟩
  · have hn : s.cfg.numPorts = 2 := by simp [Config.numPorts, hv]
    rw [e, hv]
    exact (spsc_kinds _ _ _ _ (hn ▸ hm)).1
  · rw [e, hv]
    exact (mpmc_kinds _ _ _ _).1

/-- A command in flight is one its variant executes (R99). -/
theorem kind_of_inflight {i : Instr} {s : State} (hI : s.Inv) (hc : Coherent i s)
    (ha : ∀ cw, s.sel.act ≠ .issue cw) (hf : s.cur.inFlight = true) :
    (s.cfg.variant = .spsc → isSpsc i = true) ∧ (s.cfg.variant = .mpmc → isMpmc i = true) := by
  have e := hc.other ha
  refine ⟨fun hv => ?_, fun hv => ?_⟩
  · have h01 : portC ≠ portP := by decide
    rcases (hI.spsc hv).roles s.me hf with ⟨h1, h2⟩ | ⟨h1, h2⟩
    · rw [e, State.latched, h2, hv, h1]
      simp [decodeFields, isSpsc]
    · rw [e, State.latched, h2, hv, h1]
      simp [decodeFields, isSpsc, h01]
  · have hr := (hI.mpmc hv).unreserved s.me hf
    rw [e, State.latched, hv]
    simp only [decodeFields, hr]
    cases opTimed (s.portAt s.me).op <;> cases opDir (s.portAt s.me).op <;> simp [isMpmc]

/-- What a command can end with does not depend on its operands (R242). -/
theorem causeAllowed_fields (v : Variant) (p : Nat) (op : Op) (d tmo d' tmo' : Nat) (c : Cause) :
    causeAllowed (decodeFields v p op d tmo) c = causeAllowed (decodeFields v p op d' tmo') c := by
  unfold decodeFields
  split
  · rfl
  · split <;> (try split) <;> rfl

end Sys2Proof.Machine
end

