-- ==== Sys2Proof/Laws/Own.lean ====
section
/-! SUPPORT. What a turn does to the record of the port in turn, said once: `Own i s q` lists every record `q` that a turn
of command `i` can leave at the port, with the guard it comes under; `moved_own` says that these are all. -/

namespace Sys2Proof.Machine

/-- Why a command of path state `s.cur.st` fails in a step of its port, and with which cause (R242). -/
inductive Fails (i : Instr) (s : State) : Cause → Prop where
  | full (hi : isSpsc i = true) (hd : opDir i.op = .enq) (hs : s.cur.st = .check) (hg : adv s.cfg s.wi = s.ri) :
      Fails i s .full
  | empty (hi : isSpsc i = true) (hd : opDir i.op = .deq) (hs : s.cur.st = .check) (hg : s.wi = s.ri) : Fails i s .empty
  | lockBusy (hi : isMpmc i = true) (ht : opTimed i.op = false) (hs : s.cur.st = .acqTry) (hg : s.owner ≠ none) :
      Fails i s .lockBusy
  | expired (hi : isMpmc i = true) (ht : opTimed i.op = true) (hs : s.cur.st = .acqTimed)
      (hg : s.cur.timeout ≤ s.now - s.cur.start) : Fails i s .timeoutLock
  | late (hi : isMpmc i = true) (ht : opTimed i.op = true) (hs : s.cur.st = .elapsed)
      (hg : s.cur.timeout ≤ s.cur.t1 - s.cur.start) : Fails i s .timeoutLock
  | pred (hi : isMpmc i = true) (ht : opTimed i.op = false) (hs : s.cur.st = .pred)
      (hg : s.pred (opDir i.op) = false) : Fails i s (failCause (opDir i.op))
  | waited (hi : isMpmc i = true) (ht : opTimed i.op = true) (hs : s.cur.st = .pred)
      (hg : s.pred (opDir i.op) = false) (hl : s.cur.deadline ≤ s.now) : Fails i s .timeoutWait

/-- The steps after which only the state of the port's record differs. -/
inductive Goes (i : Instr) (s : State) : PState → Prop where
  | check (hi : isSpsc i = true) (hs : s.cur.st = .check) : Goes i s .xfer
  | write (hi : isSpsc i = true) (hd : opDir i.op = .enq) (hs : s.cur.st = .xfer) : Goes i s .adv
  | lockTry (hi : isMpmc i = true) (ht : opTimed i.op = false) (hs : s.cur.st = .acqTry) (hg : s.owner = none) :
      Goes i s .pred
  | pred (hi : isMpmc i = true) (hs : s.cur.st = .pred) (hg : s.pred (opDir i.op) = true) : Goes i s .xfer
  | wait (hi : isMpmc i = true) (ht : opTimed i.op = true) (hs : s.cur.st = .pred)
      (hg : s.pred (opDir i.op) = false) (hl : s.now < s.cur.deadline) : Goes i s .cwait
  | wake (hi : isMpmc i = true) (ht : opTimed i.op = true) (hs : s.cur.st = .cwait)
      (hg : s.cur.deadline ≤ s.now ∨ s.cfg.spuriousWake = true) : Goes i s .reacq
  | lockReacq (hi : isMpmc i = true) (ht : opTimed i.op = true) (hs : s.cur.st = .reacq) (hg : s.owner = none) :
      Goes i s .pred
  | enq (hi : isMpmc i = true) (hd : opDir i.op = .enq) (hs : s.cur.st = .xfer) : Goes i s .rel
  | unlock (hi : isMpmc i = true) (hs : s.cur.st = .rel) : Goes i s .sig

/-- Every record that a turn of command `i` can leave at the port in turn. -/
inductive Own (i : Instr) (s : State) : Port → Prop where
  | stall (h : Stalls i s) : Own i s s.cur
  | issue (cw : Nat) (st : PState) (ha : s.sel.act = .issue cw) (hs : s.cur.st = .idle)
      (hf : firstState i = some st) :
      Own i s { latch s.cfg.variant i.op i.data i.timeout s.now s.seq s.cur with st := st }
  | issueIllegal (cw : Nat) (ha : s.sel.act = .issue cw) (hs : s.cur.st = .idle) (hf : firstState i = none) :
      Own i s ((latch s.cfg.variant i.op i.data i.timeout s.now s.seq s.cur).completed false .illegalOp)
  | accept (ha : s.sel.act = .accept) (hs : s.cur.st = .done) : Own i s { s.cur with st := .idle }
  | fail (c : Cause) (alt : Bool) (k : Nat) (ha : s.sel.act = .move alt k) (hf : Fails i s c) :
      Own i s (s.cur.completed false c)
  | succeed (alt : Bool) (k : Nat) (ha : s.sel.act = .move alt k)
      (hs : (isSpsc i = true ∧ s.cur.st = .adv) ∨ (isMpmc i = true ∧ s.cur.st = .sig)) :
      Own i s (s.cur.completed true .none)
  | go (st : PState) (alt : Bool) (k : Nat) (ha : s.sel.act = .move alt k) (hg : Goes i s st) :
      Own i s { s.cur with st := st }
  | grant (k : Nat) (ha : s.sel.act = .move false k) (hi : isMpmc i = true) (ht : opTimed i.op = true)
      (hs : s.cur.st = .acqTimed) (hg : s.owner = none) : Own i s { s.cur with t1 := s.now, st := .elapsed }
  | elapsed (alt : Bool) (k : Nat) (ha : s.sel.act = .move alt k) (hi : isMpmc i = true) (ht : opTimed i.op = true)
      (hs : s.cur.st = .elapsed) (hg : s.cur.t1 - s.cur.start < s.cur.timeout) :
      Own i s { s.cur with
        deadline := deadlineOf (s.cfg.legacyDeqBudget && opDir i.op == .deq) s.cur.start s.cur.t1 s.cur.timeout
        st := .pred }
  | read (alt : Bool) (k v : Nat) (st : PState) (ha : s.sel.act = .move alt k) (hd : opDir i.op = .deq)
      (hs : s.cur.st = .xfer) (hst : (isSpsc i = true ∧ st = .adv) ∨ (isMpmc i = true ∧ st = .rel))
      (hv : slotAt s.storage s.ri = some v) : Own i s { s.cur with rspData := v, st := st }

section
variable {i : Instr} {s t : State} (hme : s.me < s.ports.length)
include hme

theorem own_goto {x : State} {st : PState} (hx : x.ports = s.ports) (hm : x.me = s.me)
    (h : Own i s { s.cur with st := st }) : Own i s ((x.goto st).portAt s.me) := by
  have e : (x.goto st).portAt s.me = { s.cur with st := st } := by
    rw [← hm, portAt_goto _ _ _ (by rw [hx, hm]; exact hme), if_pos rfl, portAt_congr hx, hm]
    rfl
  rw [e]
  exact h

theorem own_updPort_goto {x : State} {f : Port → Port} {st : PState} (hx : x.ports = s.ports) (hm : x.me = s.me)
    (h : Own i s { f s.cur with st := st }) : Own i s (((x.updPort s.me f).goto st).portAt s.me) := by
  have e : ((x.updPort s.me f).goto st).portAt s.me = { f s.cur with st := st } := by
    rw [portAt_goto _ _ _ (by simpa [hx, hm] using hme), me_updPort, hm, if_pos rfl,
      portAt_updPort _ _ _ _ (by rw [hx]; exact hme), if_pos rfl, portAt_congr hx]
    rfl
  rw [e]
  exact h

theorem own_complete {x : State} {ok : Bool} {c : Cause} {q : Port} (hx : x.ports.length = s.ports.length)
    (hm : x.me = s.me) (hq : x.portAt s.me = q) (h : Own i s (q.completed ok c)) :
    Own i s ((complete ok c x).portAt s.me) := by
  have e : (complete ok c x).portAt s.me = q.completed ok c := by
    have e := portAt_complete ok c x s.me (by rw [hx, hm]; exact hme)
    rw [hm, if_pos rfl, hq] at e
    exact e
  rw [e]
  exact h

theorem moved_own (h : Moved i s t) (hws : ∀ c, ∀ w ∈ s.waitSet c, w < s.ports.length)
    (hwm : ∀ c, s.me ∈ s.waitSet c → s.cur.st = .cwait) : Own i s (t.portAt s.me) := by
  have hsw : ∀ (c : Condition) (ws : List Nat), (s.setWaitSet c ws).ports = s.ports ∧ (s.setWaitSet c ws).me = s.me :=
    fun c ws => ⟨by simp, by simp⟩
  have how : ∀ (c : Condition) (ws : List Nat), ({ s with owner := none }.setWaitSet c ws).ports = s.ports ∧
      ({ s with owner := none }.setWaitSet c ws).me = s.me := fun c ws => by cases c <;> exact ⟨rfl, rfl⟩
  cases h with
  | stall hg => exact .stall hg
  | issue cw st ha hs hf => exact own_updPort_goto hme rfl rfl (.issue cw st ha hs hf)
  | issueIllegal cw ha hs hf =>
    exact own_complete hme (by simp [issued]) rfl
      (by rw [issued, portAt_updPort _ _ _ _ hme, if_pos rfl]; rfl) (.issueIllegal cw ha hs hf)
  | accept ha hs => exact own_goto hme rfl rfl (.accept ha hs)
  | pFull alt k ha hi hd hs hg => exact own_complete hme rfl rfl rfl (.fail _ alt k ha (.full hi hd hs hg))
  | cEmpty alt k ha hi hd hs hg => exact own_complete hme rfl rfl rfl (.fail _ alt k ha (.empty hi hd hs hg))
  | pCheck alt k ha hi hd hs hg => exact own_goto hme rfl rfl (.go _ alt k ha (.check hi hs))
  | cCheck alt k ha hi hd hs hg => exact own_goto hme rfl rfl (.go _ alt k ha (.check hi hs))
  | pWrite alt k ha hi hd hs hw => exact own_goto hme rfl rfl (.go _ alt k ha (.write hi hd hs))
  | pAdv alt k ha hi hd hs => exact own_complete hme rfl rfl rfl (.succeed alt k ha (.inl ⟨hi, hs⟩))
  | cRead alt k v ha hi hd hs hr hv =>
    exact own_updPort_goto hme rfl rfl (.read alt k v _ ha hd hs (.inl ⟨hi, rfl⟩) hv)
  | cAdv alt k ha hi hd hs => exact own_complete hme rfl rfl rfl (.succeed alt k ha (.inl ⟨hi, hs⟩))
  | lockTry alt k ha hi ht hs hg => exact own_goto hme rfl rfl (.go _ alt k ha (.lockTry hi ht hs hg))
  | lockBusy alt k ha hi ht hs hg => exact own_complete hme rfl rfl rfl (.fail _ alt k ha (.lockBusy hi ht hs hg))
  | lockGrant k ha hi ht hs hg =>
    exact own_updPort_goto (x := { s with owner := some s.me }) hme rfl rfl (.grant k ha hi ht hs hg)
  | lockExpire k ha hi ht hs hg => exact own_complete hme rfl rfl rfl (.fail _ true k ha (.expired hi ht hs hg))
  | elapsedLate alt k ha hi ht hs hg => exact own_complete hme rfl rfl rfl (.fail _ alt k ha (.late hi ht hs hg))
  | elapsed alt k ha hi ht hs hg => exact own_updPort_goto hme rfl rfl (.elapsed alt k ha hi ht hs hg)
  | predTrue alt k ha hi hs hg => exact own_goto hme rfl rfl (.go _ alt k ha (.pred hi hs hg))
  | predFail alt k ha hi ht hs hg => exact own_complete hme rfl rfl rfl (.fail _ alt k ha (.pred hi ht hs hg))
  | predLate alt k ha hi ht hs hg hl => exact own_complete hme rfl rfl rfl (.fail _ alt k ha (.waited hi ht hs hg hl))
  | predWait alt k ha hi ht hs hg hl =>
    exact own_goto hme (how _ _).1 (how _ _).2 (.go _ alt k ha (.wait hi ht hs hg hl))
  | wakeDeadline k ha hi ht hs hg =>
    exact own_goto hme (hsw _ _).1 (hsw _ _).2 (.go _ false k ha (.wake hi ht hs (.inl hg)))
  | wakeSpurious k ha hi ht hs hg =>
    exact own_goto hme (hsw _ _).1 (hsw _ _).2 (.go _ true k ha (.wake hi ht hs (.inr hg)))
  | lockReacq alt k ha hi ht hs hg => exact own_goto hme rfl rfl (.go _ alt k ha (.lockReacq hi ht hs hg))
  | doEnq alt k ha hi hd hs hw => exact own_goto hme rfl rfl (.go _ alt k ha (.enq hi hd hs))
  | doDeq alt k v ha hi hd hs hr hv =>
    exact own_updPort_goto (x := { s with ri := adv s.cfg s.ri, size := s.size - 1 }) hme rfl rfl
      (.read alt k v _ ha hd hs (.inr ⟨hi, rfl⟩) hv)
  | unlock alt k ha hi hs => exact own_goto hme rfl rfl (.go _ alt k ha (.unlock hi hs))
  | signal alt k ha hi hs =>
    refine own_complete hme (by simp) (by simp) ?_ (.succeed alt k ha (.inr ⟨hi, hs⟩))
    rw [portAt_wakeOne _ _ _ (hws _), if_neg]
    · rfl
    · rintro ⟨hne, hx⟩
      have := hwm _ (hx ▸ chooseWaiter_mem hne k)
      rw [hs] at this
      cases this

end

end Sys2Proof.Machine
end

