-- ==== Sys2Proof/Laws/PerInstr.lean ====
section
/-! SUPPORT. Statements made per constructor of `Instr`. Family `FieldsDecode`: the fields of a command that is well formed
at a port, read there by R101, are that command. -/

namespace Sys2Proof.Laws

/-- The row of the opcode map that the port reads is among the conditions of well-formedness. -/
theorem readAt_of_wellFormed {c : Config} {p : Nat} {i : Instr} (h : i.wellFormed c p = true) :
    i.readAt c.variant p = true := by
  simp only [Instr.wellFormed, Bool.and_eq_true] at h
  exact h.2

namespace FieldsDecode

/-- At every port at which the command is well formed, its operation code and operands decode to it (R98, R101). -/
def Statement (i : Instr) : Prop :=
  ∀ (c : Config) (p : Nat), i.wellFormed c p = true → decodeFields c.variant p i.op i.data i.timeout = i

theorem spscEnq (data timeout : Nat) : Statement (.spscEnq data timeout) := by
  intro c p h
  have h := readAt_of_wellFormed h
  obtain ⟨hv, hp⟩ : c.variant = .spsc ∧ p = portP := by simpa [Instr.readAt] using h
  simp [decodeFields, Instr.op, Instr.data, Instr.timeout, hv, hp]

theorem spscDeq (data timeout : Nat) : Statement (.spscDeq data timeout) := by
  intro c p h
  have h := readAt_of_wellFormed h
  obtain ⟨hv, hp⟩ : c.variant = .spsc ∧ p = portC := by simpa [Instr.readAt] using h
  simp [decodeFields, Instr.op, Instr.data, Instr.timeout, hv, hp]

theorem mpmcEnq (data timeout : Nat) : Statement (.mpmcEnq data timeout) := by
  intro c p h
  have h := readAt_of_wellFormed h
  have hv : c.variant = .mpmc := by simpa [Instr.readAt] using h
  simp [decodeFields, Instr.op, Instr.data, Instr.timeout, hv]

theorem mpmcDeq (data timeout : Nat) : Statement (.mpmcDeq data timeout) := by
  intro c p h
  have h := readAt_of_wellFormed h
  have hv : c.variant = .mpmc := by simpa [Instr.readAt] using h
  simp [decodeFields, Instr.op, Instr.data, Instr.timeout, hv]

theorem mpmcEnqt (data timeout : Nat) : Statement (.mpmcEnqt data timeout) := by
  intro c p h
  have h := readAt_of_wellFormed h
  have hv : c.variant = .mpmc := by simpa [Instr.readAt] using h
  simp [decodeFields, Instr.op, Instr.data, Instr.timeout, hv]

theorem mpmcDeqt (data timeout : Nat) : Statement (.mpmcDeqt data timeout) := by
  intro c p h
  have h := readAt_of_wellFormed h
  have hv : c.variant = .mpmc := by simpa [Instr.readAt] using h
  simp [decodeFields, Instr.op, Instr.data, Instr.timeout, hv]

theorem reserved (low : BitVec 2) (data timeout : Nat) : Statement (.reserved low data timeout) := by
  intro c p h
  have h := readAt_of_wellFormed h
  have e : ∀ low : BitVec 2, (1#1 ++ low).setWidth 2 = low := by decide
  simp [decodeFields, Instr.op, Instr.data, Instr.timeout, e]

theorem spscIllegalTimed (dir : Dir) (data timeout : Nat) : Statement (.spscIllegalTimed dir data timeout) := by
  intro c p h
  have h := readAt_of_wellFormed h
  have hv : c.variant = .spsc := by simpa [Instr.readAt] using h
  cases dir <;> simp [decodeFields, Instr.op, Instr.data, Instr.timeout, opOf, hv]

theorem spscIllegalDeqOnP (data timeout : Nat) : Statement (.spscIllegalDeqOnP data timeout) := by
  intro c p h
  have h := readAt_of_wellFormed h
  obtain ⟨hv, hp⟩ : c.variant = .spsc ∧ p = portP := by simpa [Instr.readAt] using h
  simp [decodeFields, Instr.op, Instr.data, Instr.timeout, hv, hp]

theorem spscIllegalEnqOnC (data timeout : Nat) : Statement (.spscIllegalEnqOnC data timeout) := by
  intro c p h
  have h := readAt_of_wellFormed h
  obtain ⟨hv, hp⟩ : c.variant = .spsc ∧ p = portC := by simpa [Instr.readAt] using h
  simp [decodeFields, Instr.op, Instr.data, Instr.timeout, hv, hp]

end FieldsDecode

end Sys2Proof.Laws
end

