-- ==== Sys2Proof/Laws/Queue.lean ====
section
/-! SUPPORT. The arithmetic of the two indices (R11, R24) and the elements held from one of them on (R41, R50). -/

namespace Sys2Proof.Machine

theorem mod_of_lt_two_mul {x c : Nat} (h : x < 2 * c) : x % c = if x < c then x else x - c := by
  split
  · exact Nat.mod_eq_of_lt ‹_›
  · rw [Nat.mod_eq_sub_mod (by omega), Nat.mod_eq_of_lt (by omega)]

theorem adv_add (c : Config) (a k : Nat) : (adv c a + k) % c.capacity = (a + (k + 1)) % c.capacity := by
  rw [adv, Nat.mod_add_mod]
  congr 1
  omega

theorem adv_inj {c : Config} {a b : Nat} (ha : a < c.capacity) (hb : b < c.capacity) (h : adv c a = adv c b) :
    a = b := by
  rw [adv_eq c ha, adv_eq c hb] at h
  grind

/-- `(wi - ri) mod cap`, as R24 computes it. -/
def indexGap (cap wi ri : Nat) : Nat := if ri ≤ wi then wi - ri else wi + cap - ri

theorem spscCount_eq (s : State) : s.spscCount = indexGap s.cfg.capacity s.wi s.ri := rfl

section
variable {c : Config} {wi ri : Nat} (hw : wi < c.capacity) (hr : ri < c.capacity)
include hw hr

theorem indexGap_lt : indexGap c.capacity wi ri < c.capacity := by
  unfold indexGap
  split <;> omega

theorem add_indexGap : (ri + indexGap c.capacity wi ri) % c.capacity = wi := by
  unfold indexGap
  rw [mod_of_lt_two_mul (by split <;> omega)]
  split <;> split <;> omega

theorem indexGap_adv_wi (h : adv c wi ≠ ri) :
    indexGap c.capacity (adv c wi) ri = indexGap c.capacity wi ri + 1 := by
  rw [adv_eq c hw] at *
  unfold indexGap
  grind

theorem indexGap_adv_ri (h : wi ≠ ri) : indexGap c.capacity wi (adv c ri) + 1 = indexGap c.capacity wi ri := by
  rw [adv_eq c hr] at *
  unfold indexGap
  grind

end

/-- The values of the `n` slots from slot `ri` on. -/
def held (m : List (Nat × Nat)) (c : Config) (ri n : Nat) : List Nat :=
  (List.range n).filterMap fun k => slotAt m ((ri + k) % c.capacity)

theorem contents_held (s : State) : s.contents = held s.storage s.cfg s.ri s.count := rfl

theorem held_snoc (m : List (Nat × Nat)) (c : Config) (ri n : Nat) :
    held m c ri (n + 1) = held m c ri n ++ (slotAt m ((ri + n) % c.capacity)).toList := by
  simp only [held, List.range_succ, List.filterMap_append]
  congr 1

theorem held_cons (m : List (Nat × Nat)) (c : Config) (ri n : Nat) :
    held m c ri (n + 1) = (slotAt m (ri % c.capacity)).toList ++ held m c (adv c ri) n := by
  have e : (fun k => slotAt m ((adv c ri + k) % c.capacity)) =
      (fun k => slotAt m ((ri + k) % c.capacity)) ∘ Nat.succ := by
    funext k
    simp only [Function.comp, adv_add]
  simp only [held, List.range_succ_eq_map, List.filterMap_cons, List.filterMap_map, Nat.add_zero, e]
  cases slotAt m (ri % c.capacity) <;> rfl

/-- Storing to the slot after the `n` held ones changes none of them. -/
theorem held_putSlot (m : List (Nat × Nat)) (c : Config) {ri n : Nat} (v : Nat) (hr : ri < c.capacity)
    (hn : n < c.capacity) : held (putSlot m ((ri + n) % c.capacity) v) c ri n = held m c ri n := by
  have ext : ∀ (l : List Nat) (f g : Nat → Option Nat), (∀ k ∈ l, f k = g k) → l.filterMap f = l.filterMap g := by
    intro l f g h
    induction l with
    | nil => rfl
    | cons a l ih => rw [List.filterMap_cons, List.filterMap_cons, h a (by simp), ih fun k hk => h k (by simp [hk])]
  refine ext _ _ _ fun k hk => ?_
  have hk : k < n := by simpa using hk
  rw [slotAt_putSlot, if_neg]
  rw [mod_of_lt_two_mul (by omega), mod_of_lt_two_mul (by omega)]
  split <;> split <;> omega

theorem length_held {m : List (Nat × Nat)} {c : Config} {ri n : Nat}
    (h : ∀ k, k < n → (slotAt m ((ri + k) % c.capacity)).isSome = true) : (held m c ri n).length = n := by
  induction n with
  | zero => rfl
  | succ n ih =>
    rw [held_snoc, List.length_append, ih fun k hk => h k (by omega)]
    have := h n (by omega)
    cases hs : slotAt m ((ri + n) % c.capacity) <;> simp [hs] at this ⊢

end Sys2Proof.Machine
end

