-- ==== Sys2Proof/Laws/Results.lean ====
section
/-! SUPPORT. The observable result of a run (R299): its unfoldings along a step, and what one entry of it is. -/

namespace Sys2Proof.Machine

/-! Along a step -/

section
variable {s t : State} (p : Nat) (c : Command) (k : Nat)

@[simp] theorem commandsIssued_zero (s : State) : State.commandsIssued p 0 s = [] := rfl

@[simp] theorem resultsAfter_zero (s : State) : State.resultsAfter p c 0 s = [] := rfl

theorem commandsIssued_succ (h : step s = .next t) :
    State.commandsIssued p (k + 1) s = (s.issuedAt p).toList ++ State.commandsIssued p k t := by
  simp only [State.commandsIssued, h]

theorem resultsAfter_succ (h : step s = .next t) :
    State.resultsAfter p c (k + 1) s =
      (s.resultAt p c).toList ++ State.resultsAfter p ((s.issuedAt p).getD c) k t := by
  simp only [State.resultsAfter, h]

end

/-! One entry -/

theorem commandOf_decodeFields (v : Variant) (p : Nat) (op : Op) (d tmo : Nat) :
    commandOf (decodeFields v p op d tmo) = ⟨op, d, tmo⟩ := by
  simp only [commandOf, decodeFields_op, decodeFields_data, decodeFields_timeout]

/-- A command is accepted only at a ready port that exists, and is the triple of the word presented (R91, R95). -/
theorem issuedAt_eq_some {s : State} {p : Nat} {c : Command} (h : s.issuedAt p = some c) :
    ∃ cw, s.nextEvent = .turn p (.issue cw) ∧ p < s.cfg.numPorts ∧ (s.portAt p).st = .idle ∧
      c = ⟨wordOp cw, wordData s.cfg cw, wordTimeout s.cfg cw⟩ := by
  unfold State.issuedAt at h
  split at h
  · rename_i r cw he
    split at h
    · rename_i hr
      obtain ⟨rfl, hrdy⟩ := hr
      split at h
      · rename_i i hd
        obtain ⟨hp, -, rfl⟩ := decode_ok hd
        cases h
        exact ⟨cw, he, hp, by simpa [State.cmdReady] using hrdy, commandOf_decodeFields ..⟩
      · cases h
    · cases h
  · cases h

/-- An entry is made only by an `ACCEPT` at a port in `DONE`, of its latches (R131, R168). -/
theorem resultAt_eq_some {s : State} {p : Nat} {c : Command} {r : Result} (h : s.resultAt p c = some r) :
    s.nextEvent = .turn p .accept ∧ (s.portAt p).st = .done ∧ r.command = c ∧ r.ok = (s.portAt p).rspOk ∧
      r.cause = (s.portAt p).rspCause ∧
      r.data = if (s.portAt p).carriesElement then some (s.portAt p).rspData else none := by
  unfold State.resultAt at h
  split at h
  · rename_i r' he
    split at h
    · rename_i hr
      obtain ⟨rfl, hv⟩ := hr
      cases h
      exact ⟨he, by simpa [State.rspValid] using hv, rfl, rfl, rfl, rfl⟩
    · cases h
  · cases h

/-- An observable result is that of a run that has ended (R299). -/
theorem observable_eq_some {s : State} {k : Nat} {o : Observable} (h : s.observable k = some o) :
    ∃ t : State, Sys2Proof.core.run k s = .next t ∧ t.runEnded ∧ o.size = t.count ∧ o.contents = t.contents ∧
      o.results = (List.range s.cfg.numPorts).map fun p => s.results p k := by
  unfold State.observable at h
  split at h
  · rename_i t ht
    split at h
    · rename_i hend
      cases h
      exact ⟨t, ht, hend, rfl, rfl, rfl⟩
    · cases h
  · cases h
  · cases h

/-! What the hosts handed in and out -/

@[simp] theorem enqueued_nil : enqueued [] = [] := rfl
@[simp] theorem dequeued_nil : dequeued [] = [] := rfl

@[simp] theorem enqueued_append (a b : List Result) : enqueued (a ++ b) = enqueued a ++ enqueued b :=
  List.filterMap_append

@[simp] theorem dequeued_append (a b : List Result) : dequeued (a ++ b) = dequeued a ++ dequeued b :=
  List.filterMap_append

end Sys2Proof.Machine
end

