-- ==== Sys2Proof/Tests/Slice0.lean ====
section
/-! SUPPORT. The model's own tests: what well-formedness refuses, the decoding of words written out from the spec's encodings
(R95, R104 and the vectors V-E of 95_test_vectors.md), single steps from that file's vectors, and, for every obligation that
has hypotheses, a witness: a concrete state and operands that meet them. -/

namespace Sys2Proof.Tests

open Sys2Proof.Machine

/-! ### Helpers -/

/-- An SPSC instance of capacity `cap`. -/
def spscCfg (cap : Nat) : Config := { Config.default with variant := .spsc, capacity := cap }

/-- An MPMC instance of capacity `cap` with `n` ports. -/
def mpmcCfg (cap n : Nat) : Config := { Config.default with capacity := cap, nports := n }

/-- A port in state `st` with `op` latched. -/
def inState (st : PState) (op : Op) : Port := { Port.reset with st := st, op := op }

/-- A port that a timed command with the given times has brought to `st`. -/
def timedIn (st : PState) (op : Op) (timeout start t1 deadline : Nat) : Port :=
  { inState st op with timeout := timeout, start := start, t1 := t1, deadline := deadline }

/-- A port in `DONE` with the given response. -/
def doneWith (op : Op) (ok : Bool) (c : Cause) (data : Nat) : Port :=
  { inState .done op with rspOk := ok, rspCause := c, rspData := data }

/-- An SPSC state: indices, slots, ports P and C. -/
def spsc (cap wi ri : Nat) (m : List (Nat × Nat)) (p c : Port) : State :=
  { State.resetFor (spscCfg cap) 0 with wi := wi, ri := ri, storage := m, ports := [p, c] }

/-- An MPMC state: indices, `size`, slots, holder of the lock, time, ports. -/
def mpmc (cap wi ri size : Nat) (m : List (Nat × Nat)) (owner : Option Nat) (now : Nat) (ps : List Port) : State :=
  { State.resetFor (mpmcCfg cap ps.length) now with
    wi := wi, ri := ri, size := size, storage := m, owner := owner, ports := ps }

/-- The same with wait sets. -/
def waiting (s : State) (rtr rtw : List Nat) : State := { s with waitRTR := rtr, waitRTW := rtw }

/-- The state with the event `e` next. -/
def nextIs (s : State) (e : Event) : State := { s with script := [e] }

/-- The outcome is a next state of which `f` holds. -/
def goesTo (o : Res) (f : State → Bool) : Bool :=
  match o with
  | .next t => f t
  | .fault _ => false
  | .refused _ => false

/-- The word decodes to the command. -/
def reads (c : Config) (p w : Nat) (i : Instr) : Bool :=
  match decode c p w with
  | .ok j => j == i
  | .error _ => false

/-! ### Well-formedness refuses -/

theorem test_wf_accepts : (Instr.mpmcEnqt 0xFFFFFFFF 0xFFFFFFFF).wellFormed Config.default 3 = true := by decide

theorem test_wf_no_such_port : (Instr.mpmcEnq 1 0).wellFormed Config.default 4 = false := by decide

theorem test_wf_data_too_wide : (Instr.mpmcEnq 0x100000000 0).wellFormed Config.default 0 = false := by decide

theorem test_wf_timeout_too_wide : (Instr.mpmcEnqt 0 0x100000000).wellFormed Config.default 0 = false := by decide

theorem test_wf_wrong_variant :
    (Instr.mpmcEnq 1 0).wellFormed (spscCfg 4) 0 = false ∧ (Instr.spscEnq 1 0).wellFormed Config.default 0 = false := by
  decide

theorem test_wf_wrong_port :
    (Instr.spscEnq 1 0).wellFormed (spscCfg 4) portC = false ∧
    (Instr.spscIllegalEnqOnC 1 0).wellFormed (spscCfg 4) portP = false := by decide

/-! ### Decoding: `timeout` (32 bits), `data` (32 bits), `op` (3 bits), from the spec's encodings -/

/-- V-E1, `ENQ 123`. -/
theorem test_decode_spscEnq :
    reads (spscCfg 4) portP
      0b00000000000000000000000000000000_00000000000000000000000001111011_000 (.spscEnq 123 0) = true := by decide

/-- V-E5, `DEQ` with its ignored fields. -/
theorem test_decode_spscDeq : reads (spscCfg 4) portC 0x00000026EF56DF779 (.spscDeq 0xDEADBEEF 77) = true := by decide

/-- V-E6. -/
theorem test_decode_mpmcEnq : reads Config.default 3 0x000000007FFFFFFF8 (.mpmcEnq 0xFFFFFFFF 0) = true := by decide

/-- V-E2. -/
theorem test_decode_mpmcDeq :
    reads Config.default 0
      0b00000000000000000000000000000000_00000000000000000000000000000000_001 (.mpmcDeq 0 0) = true := by decide

/-- V-E3, `ENQT 456, 1000`. -/
theorem test_decode_mpmcEnqt :
    reads Config.default 2
      0b00000000000000000000001111101000_00000000000000000000000111001000_010 (.mpmcEnqt 456 1000) = true := by decide

/-- V-E8, `DEQT` with the largest timeout. -/
theorem test_decode_mpmcDeqt : reads Config.default 1 0x7FFFFFFF800000003 (.mpmcDeqt 0 0xFFFFFFFF) = true := by decide

/-- V-E10, `op = 7`, all other bits 1: on both variants. -/
theorem test_decode_reserved :
    reads Config.default 0 0x7FFFFFFFFFFFFFFFF (.reserved 3#2 0xFFFFFFFF 0xFFFFFFFF) = true ∧
    reads (spscCfg 1) portC 0x7FFFFFFFFFFFFFFFF (.reserved 3#2 0xFFFFFFFF 0xFFFFFFFF) = true := by decide

/-- V-E7 on an SPSC port, and V-S7's `DEQT 0`. -/
theorem test_decode_spscIllegalTimed :
    reads (spscCfg 4) portP 0x7FFFFFFFFFFFFFFFA (.spscIllegalTimed .enq 0xFFFFFFFF 0xFFFFFFFF) = true ∧
    reads (spscCfg 4) portC 0x00000000000000003 (.spscIllegalTimed .deq 0 0) = true := by decide

/-- V-S7, `P: DEQ`. -/
theorem test_decode_spscIllegalDeqOnP :
    reads (spscCfg 4) portP
      0b00000000000000000000000000000000_00000000000000000000000000000000_001 (.spscIllegalDeqOnP 0 0) = true := by decide

/-- V-S7, `C: ENQ 9`. -/
theorem test_decode_spscIllegalEnqOnC :
    reads (spscCfg 4) portC
      0b00000000000000000000000000000000_00000000000000000000000000001001_000 (.spscIllegalEnqOnC 9 0) = true := by decide

/-- V-E11: the all-zero word is a command. The table word of 72 bits is decoded at port 0 of the reset instance (log 13). -/
theorem test_decodeTableWord :
    decodeTableWord 72 0 = some (.mpmcEnq 0 0) ∧ decodeTableWord 72 3 = some (.mpmcDeqt 0 0) ∧
    decodeTableWord 72 5 = some (.reserved 1#2 0 0) := by decide

/-- A word with a bit above `CW`, and a port that the instance lacks. -/
theorem test_decode_rejects :
    decodeTableWord 72 (2 ^ 67) = none ∧ reads (spscCfg 4) 2 0 (.spscEnq 0 0) = false := by decide

/-! ### Steps -/

/-- The word that `withFetchWord` presents is issued by the next step, at port 0 after reset. -/
theorem test_withFetchWord :
    goesTo (step (State.reset.withFetchWord 72 0x000001F4000000E42))
      (fun t => (t.portAt 0).st == .acqTimed && (t.portAt 0).data == 456 && (t.portAt 0).timeout == 1000) = true := by
  decide

theorem test_reset_memory_wf : Memory.wf State.reset.storage := by decide

/-- V-S3: `P_ADV` at the last slot wraps `wi` to 0, and the queue is full. -/
theorem test_spscEnq_wraps :
    goesTo (exec (.spscEnq 40 0)
        ((spsc 4 3 1 [(0, 10), (1, 20), (2, 30), (3, 40)] { inState .adv 0#3 with data := 40 } Port.reset).withTurn
          portP (.move false 0)))
      (fun t => t.wi == 0 && t.full && (t.portAt portP).rspOk) = true := by decide

/-- V-S5: with one element in a queue of capacity 2 the check fails `FULL`. -/
theorem test_spscEnq_full :
    goesTo (exec (.spscEnq 6 0) ((spsc 2 1 0 [(0, 5)] (inState .check 0#3) Port.reset).withTurn portP (.move true 7)))
      (fun t => (t.portAt portP).rspCause == .full && t.storage == [(0, 5)]) = true := by decide

/-- V-S12: `C_READ` reads slot `ri`; neither the slot nor `ri` changes. -/
theorem test_spscDeq_reads :
    goesTo (exec (.spscDeq 0 0)
        ((spsc 4 2 0 [(0, 1), (1, 2)] (inState .check 0#3) (inState .xfer 1#3)).withTurn portC (.move false 0)))
      (fun t => (t.portAt portC).rspData == 1 && t.ri == 0 && t.storage == [(0, 1), (1, 2)]) = true := by decide

/-- V-S9 (R138): the check of an empty queue fails although the producer is about to store. -/
theorem test_spscDeq_stale_empty :
    goesTo (exec (.spscDeq 0 0) ((spsc 2 0 0 [] (inState .xfer 0#3) (inState .check 1#3)).withTurn portC (.move false 0)))
      (fun t => (t.portAt portC).rspCause == .empty && !(t.portAt portC).rspOk) = true := by decide

/-- V-N2: capacity 1, `DO_ENQ` wraps `wi` to 0 at once and fills the queue. -/
theorem test_mpmcEnq_capacity_one :
    goesTo (exec (.mpmcEnq 7 0)
        ((mpmc 1 0 0 0 [] (some 0) 0 [{ inState .xfer 0#3 with data := 7 }]).withTurn 0 (.move false 0)))
      (fun t => t.wi == 0 && t.size == 1 && t.full && t.storage == [(0, 7)] && t.owner == some 0) = true := by decide

/-- V-N5: `LOCK_BUSY` comes before `FULL`. -/
theorem test_mpmcEnq_lock_busy :
    goesTo (exec (.mpmcEnq 9 0)
        ((mpmc 1 0 0 1 [(0, 1)] (some 0) 0 [inState .pred 1#3, inState .acqTry 0#3]).withTurn 1 (.move false 0)))
      (fun t => (t.portAt 1).rspCause == .lockBusy && t.owner == some 0) = true := by decide

/-- V-N4: `DO_DEQ` at the last slot wraps `ri`. -/
theorem test_mpmcDeq_wraps :
    goesTo (exec (.mpmcDeq 0 0)
        ((mpmc 3 1 2 2 [(0, 4), (1, 2), (2, 3)] (some 0) 0 [inState .xfer 1#3]).withTurn 0 (.move false 0)))
      (fun t => t.ri == 0 && t.size == 1 && (t.portAt 0).rspData == 3 && t.wi == 1) = true := by decide

/-- V-N1: the predicate of an empty queue fails `EMPTY` and releases the lock. -/
theorem test_mpmcDeq_empty :
    goesTo (exec (.mpmcDeq 0 0) ((mpmc 5 0 0 0 [] (some 0) 0 [inState .pred 1#3]).withTurn 0 (.move false 0)))
      (fun t => (t.portAt 0).rspCause == .empty && t.owner == none) = true := by decide

/-- V-T4, path A: `timeout = 0` may expire at once with the lock free. -/
theorem test_mpmcEnqt_timeout_zero :
    goesTo (exec (.mpmcEnqt 7 0) ((mpmc 2 0 0 0 [] none 0 [inState .acqTimed 2#3]).withTurn 0 (.move true 0)))
      (fun t => (t.portAt 0).rspCause == .timeoutLock && t.owner == none) = true := by decide

/-- V-T6: for an `ENQT` the deadline is 100 in both budget modes. -/
theorem test_mpmcEnqt_deadline :
    goesTo (exec (.mpmcEnqt 1 100)
        ({ mpmc 2 0 0 0 [] (some 0) 61 [timedIn .elapsed 2#3 100 0 60 0] with
           cfg := { mpmcCfg 2 1 with legacyDeqBudget := true } }.withTurn 0 (.move false 0)))
      (fun t => (t.portAt 0).deadline == 100 && (t.portAt 0).st == .pred) = true := by decide

/-- V-T6: for a `DEQT` with the legacy budget it is 160. -/
theorem test_mpmcDeqt_legacy_deadline :
    goesTo (exec (.mpmcDeqt 0 100)
        ({ mpmc 2 0 0 0 [] (some 0) 61 [timedIn .elapsed 3#3 100 0 60 0] with
           cfg := { mpmcCfg 2 1 with legacyDeqBudget := true } }.withTurn 0 (.move false 0)))
      (fun t => (t.portAt 0).deadline == 160 && (t.portAt 0).st == .pred) = true := by decide

/-- V-T2: at `now = 57`, the deadline, the false predicate fails `TIMEOUT_WAIT`. -/
theorem test_mpmcDeqt_deadline_reached :
    goesTo (exec (.mpmcDeqt 0 50)
        ((mpmc 2 0 0 0 [] (some 0) 57 [timedIn .pred 3#3 50 7 7 57]).withTurn 0 (.move false 0)))
      (fun t => (t.portAt 0).rspCause == .timeoutWait && t.owner == none && t.waitRTR == []) = true := by decide

/-- V-N6: a reserved code completes at `ISSUE`; the lock that another port holds stays as it is. -/
theorem test_reserved_issue :
    goesTo (exec (.reserved 0#2 0 0)
        ((mpmc 2 0 0 0 [] (some 0) 0 [inState .pred 1#3, Port.reset]).withTurn 1 (.issue 4)))
      (fun t => (t.portAt 1).rspCause == .illegalOp && (t.portAt 1).st == .done && t.owner == some 0) = true := by decide

/-- V-S7, `P: ENQT 1, 0`. -/
theorem test_spscIllegalTimed_issue :
    goesTo (exec (.spscIllegalTimed .enq 1 0) ((spsc 4 0 0 [] Port.reset Port.reset).withTurn portP (.issue 10)))
      (fun t => (t.portAt portP).rspCause == .illegalOp && (t.portAt portP).op == 2#3 && t.storage == []) = true := by decide

/-- V-S7, `P: DEQ`. -/
theorem test_spscIllegalDeqOnP_issue :
    goesTo (exec (.spscIllegalDeqOnP 0 0) ((spsc 4 1 0 [(0, 1)] Port.reset Port.reset).withTurn portP (.issue 1)))
      (fun t => (t.portAt portP).rspCause == .illegalOp && t.ri == 0) = true := by decide

/-- V-S7, `C: ENQ 9`. -/
theorem test_spscIllegalEnqOnC_issue :
    goesTo (exec (.spscIllegalEnqOnC 9 0) ((spsc 4 0 0 [] Port.reset Port.reset).withTurn portC (.issue 72)))
      (fun t => (t.portAt portC).rspCause == .illegalOp && t.wi == 0) = true := by decide

/-- R161: a signal wakes exactly one of two waiters, the one `wake_choice` names. -/
theorem test_signal_wakes_one :
    goesTo (exec (.mpmcEnq 5 0)
        ((waiting (mpmc 2 1 0 1 [(0, 5)] none 3 [inState .sig 0#3, timedIn .cwait 3#3 9 0 1 9, timedIn .cwait 3#3 9 0 2 9])
          [1, 2] []).withTurn 0 (.move false 1)))
      (fun t => t.waitRTR == [1] && (t.portAt 2).st == .reacq && (t.portAt 1).st == .cwait &&
        (t.portAt 0).rspOk) = true := by decide

/-! ### Witnesses: for every statement with hypotheses, states and operands that meet them, clause by clause -/

/-- P has checked and C has read: full queue of capacity 4 with an enqueue and a dequeue in flight. -/
def spscBusy : State :=
  spsc 4 2 0 [(0, 1), (1, 2), (2, 3)] { inState .adv 0#3 with data := 3 } { inState .adv 1#3 with rspData := 1 }

/-- Two elements in a queue of capacity 3; both ports idle. -/
def spscFullIdle : State := spsc 3 2 0 [(0, 1), (1, 2)] Port.reset Port.reset

/-- One element in a queue of capacity 2; port 1 holds the lock in `PRED`, port 2 waits for the lock. -/
def mpmcBusy : State :=
  mpmc 2 1 0 1 [(0, 5)] (some 1) 4 [Port.reset, inState .pred 1#3, timedIn .acqTimed 3#3 4 0 0 0]

/-- An empty queue: port 0 has a signal to fire, ports 1 and 2 wait for an element. -/
def mpmcSignal : State :=
  waiting (mpmc 2 1 0 1 [(0, 5)] none 3
    [inState .sig 0#3, timedIn .cwait 3#3 9 0 1 9, timedIn .cwait 3#3 9 0 2 9]) [1, 2] []

/-- A full queue: port 0 has a signal to fire, port 1 waits for room. -/
def mpmcSignalFull : State :=
  waiting (mpmc 2 0 0 2 [(0, 5), (1, 6)] none 3 [inState .sig 1#3, timedIn .cwait 2#3 9 0 1 9]) [] [1]

/-- An idle queue of capacity 2, full, with a waiting-free lock. -/
def mpmcFullIdle : State := mpmc 2 0 0 2 [(0, 5), (1, 6)] none 7 [Port.reset]

/-- An idle empty queue of capacity 1. -/
def mpmcEmptyIdle : State := mpmc 1 0 0 0 [(0, 5)] none 7 [Port.reset]

theorem witness_spscBusy_inv : spscBusy.Inv := inv_of_checked (by decide)
theorem witness_spscFullIdle_inv : spscFullIdle.Inv := inv_of_checked (by decide)
theorem witness_mpmcBusy_inv : mpmcBusy.Inv := inv_of_checked (by decide)
theorem witness_mpmcSignal_inv : mpmcSignal.Inv := inv_of_checked (by decide)
theorem witness_mpmcSignalFull_inv : mpmcSignalFull.Inv := inv_of_checked (by decide)
theorem witness_mpmcFullIdle_inv : mpmcFullIdle.Inv := inv_of_checked (by decide)
theorem witness_mpmcEmptyIdle_inv : mpmcEmptyIdle.Inv := inv_of_checked (by decide)

theorem witness_DecodeOfEncode :
    (Instr.mpmcDeqt 0xFFFFFFFF 0xFFFFFFFF).wellFormed Config.default 3 = true ∧
    (Instr.reserved 3#2 0 0).wellFormed (spscCfg 1) portC = true ∧
    (Instr.spscIllegalEnqOnC 9 0).wellFormed (spscCfg 1) portC = true := by decide

theorem witness_EncodeOfDecode :
    decode Config.default 3 0x7FFFFFFFFFFFFFFFF = .ok (.reserved 3#2 0xFFFFFFFF 0xFFFFFFFF) := by rfl

/-- The greatest word of `CW`'s width of each operation code, on each kind of port. -/
theorem witness_OpcodeMap :
    (spscCfg 4).variant = .spsc ∧ portP < (spscCfg 4).numPorts ∧ portC < (spscCfg 4).numPorts ∧
    Config.default.variant = .mpmc ∧ 3 < Config.default.numPorts ∧
    (∀ k, k < 8 → 2 ^ 67 - 8 + k < 2 ^ Config.default.commandWidth ∧ 2 ^ 67 - 8 + k < 2 ^ (spscCfg 4).commandWidth ∧
      (2 ^ 67 - 8 + k) % 8 = k) := by decide

theorem witness_ResponseWordFields :
    ((spsc 4 2 1 [] Port.reset (doneWith 1#3 true .none 0xFFFFFFFF)).portAt portC).rspOk = true ∧
    opDir ((spsc 4 2 1 [] Port.reset (doneWith 1#3 true .none 0xFFFFFFFF)).portAt portC).op = .deq ∧
    ((spsc 4 2 1 [] Port.reset (doneWith 1#3 true .none 0xFFFFFFFF)).portAt portC).rspData < 2 ^ (spscCfg 4).dw := by
  decide

theorem witness_ResetValues : (spscCfg 1).Legal ∧ (mpmcCfg 1 1).Legal := by decide

theorem witness_ResetStep :
    ((nextIs spscFullIdle .reset).cfg.Legal ∧ (nextIs spscFullIdle .reset).nextEvent = .reset ∧
      ∀ q ∈ (nextIs spscFullIdle .reset).ports, q.st = .idle) ∧
    ((nextIs spscBusy .reset).cfg.Legal ∧ (nextIs spscBusy .reset).nextEvent = .reset ∧
      ∃ q ∈ (nextIs spscBusy .reset).ports, q.st ≠ .idle) := by decide

theorem witness_RefusedTurns :
    ¬ (spsc 0 0 0 [] Port.reset Port.reset).cfg.Legal ∧ (spsc 0 0 0 [] Port.reset Port.reset).cfg.capacity = 0 ∧
    mpmcBusy.cfg.Legal ∧ mpmcBusy.cfg.numPorts = 3 ∧ 2 < mpmcBusy.cfg.numPorts ∧
    (nextIs mpmcBusy (.turn 3 (.issue 0))).nextEvent = .turn 3 (.issue 0) ∧
    (nextIs mpmcBusy (.turn 2 (.issue (2 ^ 67)))).nextEvent = .turn 2 (.issue (2 ^ mpmcBusy.cfg.commandWidth)) := by
  decide

/-- The last tick that is not refused, and the first that is. -/
theorem witness_TickStep :
    ((nextIs { mpmcBusy with now := 2 ^ 64 - 2 ^ 32 - 1 } .tick).cfg.variant = .mpmc ∧
      ∃ q ∈ (nextIs { mpmcBusy with now := 2 ^ 64 - 2 ^ 32 - 1 } .tick).ports,
        q.inFlight = true ∧ 2 ^ mpmcBusy.cfg.tw - 2 ^ mpmcBusy.cfg.tow ≤ 2 ^ 64 - 2 ^ 32 - 1 + 1 - q.start) ∧
    (nextIs { mpmcBusy with now := 2 ^ 64 - 2 ^ 32 - 2 } .tick).nextEvent = .tick ∧ mpmcBusy.cfg.Legal ∧
    ¬ (mpmcBusy.cfg.variant = .mpmc ∧ ∃ q ∈ mpmcBusy.ports,
        q.inFlight = true ∧ 2 ^ mpmcBusy.cfg.tw - 2 ^ mpmcBusy.cfg.tow ≤ 2 ^ 64 - 2 ^ 32 - 2 + 1 - q.start) := by decide

theorem witness_StepRunsDecodedCommand :
    (spscFullIdle.cfg.Legal ∧ decode spscFullIdle.cfg portC 1 = .ok (.spscDeq 0 0) ∧
      (nextIs spscFullIdle (.turn portC (.issue 1))).nextEvent = .turn portC (.issue 1)) ∧
    (mpmcBusy.cfg.Legal ∧
      decode mpmcBusy.cfg 2 (packCommand mpmcBusy.cfg (mpmcBusy.portAt 2).op (mpmcBusy.portAt 2).data
        (mpmcBusy.portAt 2).timeout) = .ok (.mpmcDeqt 0 4) ∧
      (nextIs mpmcBusy (.turn 2 (.move true 0))).nextEvent = .turn 2 (.move true 0)) :=
  ⟨⟨by decide, rfl, rfl⟩, ⟨by decide, rfl, rfl⟩⟩

theorem witness_LatchedCommandRuns :
    (nextIs spscBusy (.turn portC (.move false 0))).Inv ∧ portC < spscBusy.cfg.numPorts ∧
    (nextIs spscBusy (.turn portC (.move false 0))).nextEvent = .turn portC (.move false 0) ∧
    (∀ cw, Act.move false 0 ≠ .issue cw) :=
  ⟨inv_of_checked (by decide), by decide, rfl, fun _ h => nomatch h⟩

theorem witness_FetchWordRuns :
    mpmcBusy.cfg.Legal ∧
    decode mpmcBusy.cfg mpmcBusy.firstReadyPort (0x000001F4000000E42 % 2 ^ 72) = .ok (.mpmcEnqt 456 1000) ∧
    ∃ q ∈ mpmcBusy.ports, q.st = .idle := ⟨by decide, rfl, by decide⟩

theorem witness_IssueLatches :
    ((spscFullIdle.withTurn portP (.issue 8)).cfg.variant = .spsc ∧
      (spscFullIdle.withTurn portP (.issue 8)).me < (spscFullIdle.withTurn portP (.issue 8)).ports.length ∧
      (spscFullIdle.withTurn portP (.issue 8)).sel.act = .issue 8 ∧
      (spscFullIdle.withTurn portP (.issue 8)).cur.st = .idle) ∧
    ((mpmcBusy.withTurn 0 (.issue 8)).cfg.variant = .mpmc ∧
      (mpmcBusy.withTurn 0 (.issue 8)).me < (mpmcBusy.withTurn 0 (.issue 8)).ports.length ∧
      (mpmcBusy.withTurn 0 (.issue 8)).sel.act = .issue 8 ∧ (mpmcBusy.withTurn 0 (.issue 8)).cur.st = .idle) := by
  decide

theorem witness_IllegalIssue :
    ((spscFullIdle.withTurn portC (.issue 7)).cfg.variant = .spsc ∧
      (spscFullIdle.withTurn portC (.issue 7)).me < (spscFullIdle.withTurn portC (.issue 7)).ports.length ∧
      (spscFullIdle.withTurn portC (.issue 7)).sel.act = .issue 7 ∧
      (spscFullIdle.withTurn portC (.issue 7)).cur.st = .idle) ∧
    ((mpmcBusy.withTurn 0 (.issue 7)).cfg.variant = .mpmc ∧
      (mpmcBusy.withTurn 0 (.issue 7)).me < (mpmcBusy.withTurn 0 (.issue 7)).ports.length ∧
      (mpmcBusy.withTurn 0 (.issue 7)).sel.act = .issue 7 ∧ (mpmcBusy.withTurn 0 (.issue 7)).cur.st = .idle) := by
  decide

/-- A port that has completed. -/
def spscDone : State := spsc 4 2 1 [(0, 1), (1, 2)] Port.reset (doneWith 1#3 true .none 1)

/-- An MPMC port that has completed with `TIMEOUT_WAIT` at its deadline. -/
def mpmcDone : State :=
  mpmc 2 0 0 0 [] none 9
    [{ timedIn .done 3#3 5 4 4 9 with rspOk := false, rspCause := .timeoutWait }, Port.reset]

theorem witness_spscDone_inv : spscDone.Inv := inv_of_checked (by decide)
theorem witness_mpmcDone_inv : mpmcDone.Inv := inv_of_checked (by decide)

theorem witness_AcceptReturnsToIdle :
    (spscDone.withTurn portC .accept).me < (spscDone.withTurn portC .accept).ports.length ∧
    (spscDone.withTurn portC .accept).sel.act = .accept ∧ (spscDone.withTurn portC .accept).cur.st = .done := by decide

/-- One state for each clause: an `ISSUE` to a busy port; an `ACCEPT` of an idle one; a turn in `IDLE` and in `DONE`; both
`LOCK_TIMED` steps disabled, one tick before the timeout; `REACQ` with the lock held; a wait one tick before its deadline;
no spurious wake-ups. -/
theorem witness_DisabledTurns :
    (mpmcBusy.withTurn 1 (.issue 0)).cur.st ≠ .idle ∧
    (mpmcBusy.withTurn 0 .accept).cur.st ≠ .done ∧
    (mpmcBusy.withTurn 0 (.move false 0)).cur.st = .idle ∧ (mpmcDone.withTurn 0 (.move true 0)).cur.st = .done ∧
    ({ mpmcBusy with now := 3 }.withTurn 2 (.move false 0)).cur.st = .acqTimed ∧ mpmcBusy.owner ≠ none ∧
    3 - (({ mpmcBusy with now := 3 }.withTurn 2 (.move true 0)).cur.start) <
      ({ mpmcBusy with now := 3 }.withTurn 2 (.move true 0)).cur.timeout ∧
    ((mpmc 2 0 0 0 [] (some 1) 9 [timedIn .reacq 3#3 5 4 4 9, inState .pred 1#3]).withTurn 0 (.move false 0)).cur.st
      = .reacq ∧
    (mpmcSignal.withTurn 1 (.move false 0)).cur.st = .cwait ∧
    8 < (mpmcSignal.withTurn 1 (.move false 0)).cur.deadline ∧
    ({ mpmcSignal with cfg := { mpmcSignal.cfg with spuriousWake := false } }).cfg.spuriousWake = false := by decide

theorem witness_SpscEnqSteps :
    let full := (spsc 1 0 0 [] (inState .check 0#3) Port.reset).withTurn portP (.move false 0)
    let room := (spsc 3 2 1 [(0, 1), (1, 2)] (inState .check 0#3) Port.reset).withTurn portP (.move false 0)
    let xfer := (spsc 3 2 1 [(0, 1), (1, 2)] (inState .xfer 0#3) Port.reset).withTurn portP (.move false 0)
    let adv := (spsc 3 2 1 [(0, 1), (1, 2), (2, 0)] (inState .adv 0#3) Port.reset).withTurn portP (.move false 0)
    (full.turnIn .check ∧ (full.wi + 1) % full.cfg.capacity = full.ri) ∧
    (room.turnIn .check ∧ (room.wi + 1) % room.cfg.capacity ≠ room.ri) ∧
    (xfer.turnIn .xfer ∧ xfer.wi < xfer.cfg.capacity) ∧ adv.turnIn .adv := by
  refine ⟨⟨⟨?_, ?_, _, _, rfl⟩, ?_⟩, ⟨⟨?_, ?_, _, _, rfl⟩, ?_⟩, ⟨⟨?_, ?_, _, _, rfl⟩, ?_⟩, ?_, ?_, _, _, rfl⟩ <;> decide

theorem witness_SpscDeqSteps :
    let empty := (spsc 1 0 0 [] Port.reset (inState .check 1#3)).withTurn portC (.move false 0)
    let some_ := (spsc 3 0 2 [(2, 9)] Port.reset (inState .check 1#3)).withTurn portC (.move false 0)
    let xfer := (spsc 3 0 2 [(2, 9)] Port.reset (inState .xfer 1#3)).withTurn portC (.move false 0)
    let adv := (spsc 3 0 2 [(2, 9)] Port.reset { inState .adv 1#3 with rspData := 9 }).withTurn portC (.move false 0)
    (empty.turnIn .check ∧ empty.wi = empty.ri) ∧ (some_.turnIn .check ∧ some_.wi ≠ some_.ri) ∧
    (xfer.turnIn .xfer ∧ xfer.ri < xfer.cfg.capacity ∧ slotAt xfer.storage xfer.ri = some 9) ∧ adv.turnIn .adv := by
  refine ⟨⟨⟨?_, ?_, _, _, rfl⟩, ?_⟩, ⟨⟨?_, ?_, _, _, rfl⟩, ?_⟩, ⟨⟨?_, ?_, _, _, rfl⟩, ?_, ?_⟩, ?_, ?_, _, _, rfl⟩ <;>
    decide

/-- The lock free and held; the lock wait exactly at its timeout; `REACQ` and `REL`. -/
theorem witness_LockSteps :
    let free := (mpmc 2 0 0 0 [] none 0 [inState .acqTry 0#3]).withTurn 0 (.move false 0)
    let held := { free with owner := some 0 }
    let grant := (mpmc 2 0 0 0 [] none 9 [timedIn .acqTimed 2#3 5 4 0 0]).withTurn 0 (.move false 0)
    let expire := (mpmc 2 0 0 0 [] (some 0) 9 [timedIn .acqTimed 2#3 5 4 0 0]).withTurn 0 (.move true 0)
    let reacq := (mpmc 2 0 0 0 [] none 9 [timedIn .reacq 3#3 5 4 4 9]).withTurn 0 (.move false 0)
    let rel := (mpmc 2 1 0 1 [(0, 0)] (some 0) 9 [inState .rel 0#3]).withTurn 0 (.move false 0)
    (free.turnIn .acqTry ∧ free.owner = none) ∧ (held.turnIn .acqTry ∧ held.owner ≠ none) ∧
    (grant.me < grant.ports.length ∧ grant.cur.st = .acqTimed ∧ grant.sel.act = .move false 0 ∧ grant.owner = none) ∧
    (expire.me < expire.ports.length ∧ expire.cur.st = .acqTimed ∧ expire.sel.act = .move true 0 ∧
      expire.cur.timeout ≤ expire.now - expire.cur.start) ∧
    (reacq.turnIn .reacq ∧ reacq.owner = none) ∧ rel.turnIn .rel := by
  refine ⟨⟨⟨?_, ?_, _, _, rfl⟩, ?_⟩, ⟨⟨?_, ?_, _, _, rfl⟩, ?_⟩, ⟨?_, ?_, ?_, ?_⟩, ⟨?_, ?_, ?_, ?_⟩,
    ⟨⟨?_, ?_, _, _, rfl⟩, ?_⟩, ?_, ?_, _, _, rfl⟩ <;> decide

/-- Elapsed time exactly the timeout, and one tick less, in both budget modes. -/
theorem witness_ElapsedJudged :
    let late := (mpmc 2 0 0 0 [] (some 0) 9 [timedIn .elapsed 3#3 5 4 9 0]).withTurn 0 (.move false 0)
    let early := (mpmc 2 0 0 0 [] (some 0) 9 [timedIn .elapsed 3#3 5 4 8 0]).withTurn 0 (.move false 0)
    (late.turnIn .elapsed ∧ late.cur.timeout ≤ late.cur.t1 - late.cur.start) ∧
    (early.turnIn .elapsed ∧ early.cur.t1 - early.cur.start < early.cur.timeout ∧
      early.cfg.legacyDeqBudget = false ∧ ({ early.cfg with legacyDeqBudget := true }).legacyDeqBudget = true) := by
  refine ⟨⟨⟨?_, ?_, _, _, rfl⟩, ?_⟩, ⟨?_, ?_, _, _, rfl⟩, ?_, ?_, ?_⟩ <;> decide

/-- `size` at `CAPACITY - 1` and `CAPACITY`, at 1 and 0. -/
theorem witness_PredNonblocking :
    let s (n : Nat) := (mpmc 2 0 0 n [] (some 0) 9 [inState .pred 0#3]).withTurn 0 (.move false 0)
    ((s 1).turnIn .pred ∧ (s 1).size < (s 1).cfg.capacity ∧ 0 < (s 1).size) ∧
    ((s 2).turnIn .pred ∧ ¬ (s 2).size < (s 2).cfg.capacity) ∧ ((s 0).turnIn .pred ∧ (s 0).size = 0) := by
  refine ⟨⟨⟨?_, ?_, _, _, rfl⟩, ?_, ?_⟩, ⟨⟨?_, ?_, _, _, rfl⟩, ?_⟩, ⟨?_, ?_, _, _, rfl⟩, ?_⟩ <;> decide

/-- The same at the deadline and one tick before it. -/
theorem witness_PredTimed :
    let s (n now : Nat) := (mpmc 2 0 0 n [] (some 0) now [timedIn .pred 2#3 5 4 4 9]).withTurn 0 (.move false 0)
    ((s 1 9).turnIn .pred ∧ (s 1 9).size < (s 1 9).cfg.capacity ∧ 0 < (s 1 9).size) ∧
    ((s 2 9).turnIn .pred ∧ ¬ (s 2 9).size < (s 2 9).cfg.capacity ∧ (s 2 9).cur.deadline ≤ (s 2 9).now) ∧
    ((s 2 8).turnIn .pred ∧ ¬ (s 2 8).size < (s 2 8).cfg.capacity ∧ (s 2 8).now < (s 2 8).cur.deadline) ∧
    ((s 0 9).turnIn .pred ∧ (s 0 9).size = 0 ∧ (s 0 9).cur.deadline ≤ (s 0 9).now) ∧
    ((s 0 8).turnIn .pred ∧ (s 0 8).size = 0 ∧ (s 0 8).now < (s 0 8).cur.deadline) := by
  refine ⟨⟨⟨?_, ?_, _, _, rfl⟩, ?_, ?_⟩, ⟨⟨?_, ?_, _, _, rfl⟩, ?_, ?_⟩, ⟨⟨?_, ?_, _, _, rfl⟩, ?_, ?_⟩,
    ⟨⟨?_, ?_, _, _, rfl⟩, ?_, ?_⟩, ⟨?_, ?_, _, _, rfl⟩, ?_, ?_⟩ <;> decide

/-- At the deadline, and before it by a spurious wake-up. -/
theorem witness_WaitExits :
    let due := ({ mpmcSignal with now := 9 }).withTurn 1 (.move false 0)
    let spurious := mpmcSignal.withTurn 1 (.move true 0)
    (due.me < due.ports.length ∧ due.cur.st = .cwait ∧ due.sel.act = .move false 0 ∧ due.cur.deadline ≤ due.now) ∧
    (spurious.me < spurious.ports.length ∧ spurious.cur.st = .cwait ∧ spurious.sel.act = .move true 0 ∧
      spurious.cfg.spuriousWake = true) := by decide

theorem witness_DoEnq :
    let s := (mpmc 2 1 0 1 [(0, 5)] (some 0) 9 [inState .xfer 0#3]).withTurn 0 (.move false 0)
    s.turnIn .xfer ∧ s.wi < s.cfg.capacity := by
  refine ⟨⟨?_, ?_, _, _, rfl⟩, ?_⟩ <;> decide

theorem witness_DoDeq :
    let s := (mpmc 2 0 1 1 [(1, 5)] (some 0) 9 [inState .xfer 1#3]).withTurn 0 (.move false 0)
    s.turnIn .xfer ∧ s.ri < s.cfg.capacity ∧ slotAt s.storage s.ri = some 5 ∧ 0 < s.size := by
  refine ⟨⟨?_, ?_, _, _, rfl⟩, ?_, ?_, ?_⟩ <;> decide

/-- A signal with no waiter, with two, and, of a dequeue, with one. -/
theorem witness_SignalStep :
    let lost := (mpmc 2 1 0 1 [(0, 5)] none 3 [inState .sig 0#3]).withTurn 0 (.move false 0)
    let two := mpmcSignal.withTurn 0 (.move false 1)
    let one := mpmcSignalFull.withTurn 0 (.move false 0)
    (lost.turnIn .sig ∧ lost.waitRTR = [] ∧ lost.waitRTW = []) ∧
    (two.turnIn .sig ∧ two.waitRTR ≠ [] ∧ ∀ w ∈ two.waitRTR, w < two.ports.length ∧ w ≠ two.me) ∧
    (one.turnIn .sig ∧ one.waitRTW ≠ [] ∧ ∀ w ∈ one.waitRTW, w < one.ports.length ∧ w ≠ one.me) := by
  refine ⟨⟨⟨?_, ?_, _, _, rfl⟩, ?_, ?_⟩, ⟨⟨?_, ?_, _, _, rfl⟩, ?_, ?_⟩, ⟨?_, ?_, _, _, rfl⟩, ?_, ?_⟩ <;> decide

/-- A step of each kind that the frames are about completes; the clauses on storing steps are met by `P_WRITE` and
`DO_ENQ`. -/
theorem witness_Frames :
    let w := (spsc 3 2 1 [(0, 1), (1, 2)] (inState .xfer 0#3) Port.reset).withTurn portP (.move false 0)
    let r := spscBusy.withTurn portC (.move false 0)
    let e := (mpmc 2 1 0 1 [(0, 5)] (some 0) 9 [timedIn .xfer 2#3 5 4 4 9]).withTurn 0 (.move false 0)
    let d := mpmcBusy.withTurn 1 (.move false 0)
    let x := mpmcBusy.withTurn 0 (.issue 4)
    w.cfg.variant = .spsc ∧ w.me < w.ports.length ∧ goesTo (exec (.spscEnq 0 0) w) (fun _ => true) = true ∧
    r.me < r.ports.length ∧ goesTo (exec (.spscDeq 0 0) r) (fun _ => true) = true ∧
    e.me < e.ports.length ∧ goesTo (exec (.mpmcEnqt 0 5) e) (fun _ => true) = true ∧
    d.me < d.ports.length ∧ goesTo (exec (.mpmcDeq 0 0) d) (fun _ => true) = true ∧
    x.me < x.ports.length ∧ goesTo (exec (.reserved 0#2 0 0) x) (fun _ => true) = true := by decide

/-- One slot below the bound, and at it; the head, and no element. -/
theorem witness_SpscSequential :
    let room := (spsc 3 1 0 [(0, 1)] Port.reset Port.reset).withTurn portP .accept
    let full := spscFullIdle.withTurn portP .accept
    let head := spscFullIdle.withTurn portC .accept
    let empty := (spsc 3 1 1 [(0, 1)] Port.reset Port.reset).withTurn portC .accept
    (room.Inv ∧ room.cfg.variant = .spsc ∧ room.cur.st = .idle ∧ room.me = portP ∧
      room.contents.length < room.cfg.capacity - 1) ∧
    (full.Inv ∧ full.cur.st = .idle ∧ full.me = portP ∧ full.cfg.capacity - 1 ≤ full.contents.length) ∧
    (head.Inv ∧ head.cur.st = .idle ∧ head.me = portC ∧ head.contents = [1, 2]) ∧
    (empty.Inv ∧ empty.cur.st = .idle ∧ empty.me = portC ∧ empty.contents = []) := by
  refine ⟨⟨inv_of_checked ?_, ?_, ?_, ?_, ?_⟩, ⟨inv_of_checked ?_, ?_, ?_, ?_⟩, ⟨inv_of_checked ?_, ?_, ?_, ?_⟩,
    inv_of_checked ?_, ?_, ?_, ?_⟩ <;> decide

theorem witness_MpmcSequential :
    let room := (mpmc 2 1 0 1 [(0, 5)] none 7 [Port.reset]).withTurn 0 .accept
    let full := mpmcFullIdle.withTurn 0 .accept
    let empty := mpmcEmptyIdle.withTurn 0 .accept
    let held := mpmcBusy.withTurn 0 .accept
    (room.Inv ∧ room.cfg.variant = .mpmc ∧ room.me < room.cfg.numPorts ∧ room.cur.st = .idle ∧ room.owner = none ∧
      room.contents.length < room.cfg.capacity ∧ room.contents = [5]) ∧
    (full.Inv ∧ full.cur.st = .idle ∧ full.owner = none ∧ full.cfg.capacity ≤ full.contents.length) ∧
    (empty.Inv ∧ empty.cur.st = .idle ∧ empty.owner = none ∧ empty.contents = []) ∧
    (held.Inv ∧ held.cur.st = .idle ∧ held.owner ≠ none) := by
  refine ⟨⟨inv_of_checked ?_, ?_, ?_, ?_, ?_, ?_, ?_⟩, ⟨inv_of_checked ?_, ?_, ?_, ?_⟩,
    ⟨inv_of_checked ?_, ?_, ?_, ?_⟩, inv_of_checked ?_, ?_, ?_⟩ <;> decide

/-- A timed command with `timeout = 0` in flight. -/
theorem witness_TimeoutZeroFails :
    let s := mpmc 2 0 0 0 [] (some 0) 9 [timedIn .elapsed 3#3 0 9 9 0]
    s.Inv ∧ s.cfg.variant = .mpmc ∧ opTimed (s.portAt 0).op = true ∧ (s.portAt 0).inFlight = true ∧
    (s.portAt 0).timeout = 0 := by
  refine ⟨inv_of_checked ?_, ?_, ?_, ?_, ?_⟩ <;> decide

/-- A woken dequeuer with an element there, a woken enqueuer with room, both past their deadlines; and waits whose deadline
is reached with nothing and with no room. -/
theorem witness_WaitEnds :
    let deq := (mpmc 2 1 0 1 [(0, 5)] none 99 [timedIn .reacq 3#3 5 4 4 9]).withTurn 0 .accept
    let enq := (mpmc 2 1 0 1 [(0, 5)] none 99 [timedIn .reacq 2#3 5 4 4 9]).withTurn 0 .accept
    let noElement := (waiting (mpmc 2 0 0 0 [] none 9 [timedIn .cwait 3#3 5 4 4 9]) [0] []).withTurn 0 .accept
    let noRoom := (waiting (mpmc 1 0 0 1 [(0, 5)] none 9 [timedIn .cwait 2#3 5 4 4 9]) [] [0]).withTurn 0 .accept
    (deq.Inv ∧ deq.cfg.variant = .mpmc ∧ deq.cur.st = .reacq ∧ deq.owner = none ∧ deq.cur.op = 3#3 ∧
      deq.contents = [5]) ∧
    (enq.Inv ∧ enq.cur.st = .reacq ∧ enq.owner = none ∧ enq.cur.op = 2#3 ∧
      enq.contents.length < enq.cfg.capacity) ∧
    (noElement.Inv ∧ noElement.cur.st = .cwait ∧ noElement.owner = none ∧ noElement.cur.deadline ≤ noElement.now ∧
      noElement.cur.op = 3#3 ∧ noElement.size = 0) ∧
    (noRoom.Inv ∧ noRoom.cur.st = .cwait ∧ noRoom.owner = none ∧ noRoom.cur.deadline ≤ noRoom.now ∧
      noRoom.cur.op = 2#3 ∧ noRoom.size = noRoom.cfg.capacity) := by
  refine ⟨⟨inv_of_checked ?_, ?_, ?_, ?_, ?_, ?_⟩, ⟨inv_of_checked ?_, ?_, ?_, ?_, ?_⟩,
    ⟨inv_of_checked ?_, ?_, ?_, ?_, ?_, ?_⟩, inv_of_checked ?_, ?_, ?_, ?_, ?_, ?_⟩ <;> decide

/-! The statements about every step, `step s = next t` from a consistent `s`: steps of each kind that complete. -/

/-- `P_ADV` and `C_ADV`: an element enters, an element leaves, `wi` and `ri` move, the flags change. -/
theorem witness_spsc_steps :
    let p := nextIs spscBusy (.turn portP (.move false 0))
    let c := nextIs spscBusy (.turn portC (.move false 0))
    p.Inv ∧ p.cfg.variant = .spsc ∧ p.nextEvent ≠ .reset ∧ goesTo (step p) (fun t => t.wi != p.wi) = true ∧
    (c.Inv ∧ c.nextEvent ≠ .reset ∧ goesTo (step c) (fun t => t.ri != c.ri) = true) := by
  refine ⟨inv_of_checked ?_, ?_, ?_, ?_, inv_of_checked ?_, ?_, ?_⟩ <;> decide

/-- `DO_ENQ` fills the queue, `DO_DEQ` empties it; the lock is released and acquired; a port is woken by another's turn. -/
theorem witness_mpmc_steps :
    let e := nextIs (mpmc 2 1 0 1 [(0, 5)] (some 0) 9 [{ inState .xfer 0#3 with data := 6 }]) (.turn 0 (.move false 0))
    let d := nextIs (mpmc 2 1 0 1 [(0, 5)] (some 0) 9 [inState .xfer 1#3]) (.turn 0 (.move false 0))
    let r := nextIs (mpmc 2 1 0 1 [(0, 5)] (some 0) 9 [inState .rel 0#3]) (.turn 0 (.move false 0))
    let a := nextIs (mpmc 2 1 0 1 [(0, 5)] none 9 [inState .acqTry 0#3]) (.turn 0 (.move false 0))
    let w := nextIs mpmcSignal (.turn 0 (.move false 0))
    (e.Inv ∧ goesTo (step e) (fun t => t.full && !e.full) = true) ∧
    (d.Inv ∧ goesTo (step d) (fun t => t.empty && !d.empty) = true) ∧
    (r.Inv ∧ r.owner = some 0 ∧ goesTo (step r) (fun t => t.owner == none) = true) ∧
    (a.Inv ∧ a.owner ≠ some 0 ∧ goesTo (step a) (fun t => t.owner == some 0) = true) ∧
    (w.Inv ∧ w.cfg.variant = .mpmc ∧ w.nextEvent ≠ .reset ∧
      goesTo (step w) (fun t => t.portAt 1 == { w.portAt 1 with st := .reacq }) = true) := by
  refine ⟨⟨inv_of_checked ?_, ?_⟩, ⟨inv_of_checked ?_, ?_⟩, ⟨inv_of_checked ?_, ?_, ?_⟩,
    ⟨inv_of_checked ?_, ?_, ?_⟩, inv_of_checked ?_, ?_, ?_, ?_⟩ <;> decide

/-- A failing completion of a timed command at exactly its timeout, of a port that holds the lock and of one that does
not. -/
theorem witness_failures :
    let late := nextIs (mpmc 2 0 0 0 [] (some 0) 9 [timedIn .elapsed 3#3 5 4 9 0]) (.turn 0 (.move false 0))
    let expired := nextIs mpmcBusy (.turn 2 (.move true 0))
    (late.Inv ∧ late.cfg.variant = .mpmc ∧ (late.portAt 0).st ≠ .done ∧ late.owner = some 0 ∧
      goesTo (step late) (fun t => (t.portAt 0).st == .done && !(t.portAt 0).rspOk && (t.portAt 0).op == 3#3) = true) ∧
    (expired.Inv ∧ (expired.portAt 2).st ≠ .done ∧ (expired.portAt 2).st ≠ .idle ∧ expired.owner ≠ some 2 ∧
      goesTo (step expired) (fun t => (t.portAt 2).st == .done && !(t.portAt 2).rspOk) = true) := by
  refine ⟨⟨inv_of_checked ?_, ?_, ?_, ?_, ?_⟩, inv_of_checked ?_, ?_, ?_, ?_, ?_⟩ <;> decide

/-- An `ELAPSED` step that sets a deadline, with the legacy budget: it is `t1 + timeout`. -/
theorem witness_DeadlineFixed :
    let s := nextIs ({ mpmc 2 0 0 0 [] (some 0) 61 [timedIn .elapsed 3#3 100 0 60 0] with
      cfg := { mpmcCfg 2 1 with legacyDeqBudget := true } }) (.turn 0 (.move false 0))
    s.Inv ∧ s.cfg.variant = .mpmc ∧ s.nextEvent ≠ .reset ∧
    goesTo (step s) (fun t => (t.portAt 0).deadline == 160 && (t.portAt 0).st == .pred && opTimed (t.portAt 0).op) =
      true := by
  refine ⟨inv_of_checked ?_, ?_, ?_, ?_⟩ <;> decide

/-- A response stands while another agent moves. -/
theorem witness_ResponseStable :
    let s := nextIs mpmcDone .tick
    s.Inv ∧ (s.portAt 0).st = .done ∧ s.nextEvent ≠ .turn 0 .accept ∧ goesTo (step s) (fun _ => true) = true := by
  refine ⟨inv_of_checked ?_, ?_, ?_, ?_⟩ <;> decide

/-- A run of one step that accepts a response. -/
theorem witness_ObservedResponses :
    (nextIs mpmcDone (.turn 0 .accept)).Inv ∧
    ((nextIs mpmcDone (.turn 0 .accept)).results 0 1).map (fun r => (r.ok, r.cause, r.data)) =
      [(false, .timeoutWait, none)] :=
  ⟨inv_of_checked (by decide), by decide⟩

/-- Runs of one step without a reset, from a queue that holds something and from an empty one. -/
theorem witness_Fifo :
    (nextIs spscBusy (.turn portC (.move false 0))).Inv ∧
    State.noReset 1 (nextIs spscBusy (.turn portC (.move false 0))) ∧
    (∃ t, Sys2Proof.core.run 1 (nextIs spscBusy (.turn portC (.move false 0))) = .next t) ∧
    State.left 1 (nextIs spscBusy (.turn portC (.move false 0))) = [1] ∧
    (nextIs mpmcEmptyIdle .tick).Inv ∧ (nextIs mpmcEmptyIdle .tick).count = 0 ∧
    State.noReset 1 (nextIs mpmcEmptyIdle .tick) ∧
    (∃ t, Sys2Proof.core.run 1 (nextIs mpmcEmptyIdle .tick) = .next t) :=
  ⟨inv_of_checked (by decide), ⟨by decide, trivial⟩, ⟨_, rfl⟩, by decide, inv_of_checked (by decide), by decide,
    ⟨by decide, trivial⟩, ⟨_, rfl⟩⟩

/-- A refused word, port, reset and tick. -/
theorem witness_StepNeverFaults :
    (nextIs mpmcBusy (.turn 3 .accept)).Inv ∧ step (nextIs mpmcBusy (.turn 3 .accept)) = .refused .noSuchPort ∧
    step (nextIs mpmcBusy (.turn 0 (.issue (2 ^ 67)))) = .refused .wordTooWide ∧
    step (nextIs mpmcBusy .reset) = .refused .resetInFlight ∧
    step (nextIs { mpmcBusy with now := 2 ^ 64 - 2 ^ 32 - 1 } .tick) = .refused .timeBaseWrap :=
  ⟨inv_of_checked (by decide), rfl, rfl, rfl, rfl⟩

theorem witness_UnguardedStepsProgress :
    let s := nextIs mpmcBusy (.turn 1 (.move true 3))
    s.Inv ∧ (s.portAt 1).inFlight = true ∧ (s.portAt 1).st ≠ .acqTimed ∧ (s.portAt 1).st ≠ .cwait ∧
    (s.portAt 1).st ≠ .reacq := by
  refine ⟨inv_of_checked ?_, ?_, ?_, ?_, ?_⟩ <;> decide

/-- Some port in flight; and a state in which every port waits before its deadline. -/
theorem witness_NoDeadlock :
    let s := waiting (mpmc 2 0 0 0 [] none 8 [timedIn .cwait 3#3 5 4 4 9]) [0] []
    (mpmcBusy.Inv ∧ (mpmcBusy.portAt 1).st ≠ .idle) ∧
    (s.Inv ∧ (s.portAt 0).st = .cwait ∧ s.now < (s.portAt 0).deadline) := by
  refine ⟨⟨inv_of_checked ?_, ?_⟩, inv_of_checked ?_, ?_, ?_⟩ <;> decide

/-- Both ports of a capacity 1 instance at their checks. -/
theorem witness_CapacityOne :
    let s := nextIs (spsc 1 0 0 [] (inState .check 0#3) (inState .check 1#3)) (.turn portC (.move false 0))
    s.Inv ∧ s.cfg.variant = .spsc ∧ s.cfg.capacity = 1 ∧ s.nextEvent = .turn portC (.move false 0) ∧
    (s.portAt portC).st = .check ∧ (s.portAt portP).st = .check := by
  refine ⟨inv_of_checked ?_, ?_, ?_, ?_, ?_, ?_⟩ <;> decide

theorem witness_SpscUsesNoTime :
    spscBusy.cfg.variant = .spsc ∧ goesTo (step (nextIs spscBusy .tick)) (fun _ => true) = true := by decide

/-- A dequeue whose `data`, and a nonblocking command whose `timeout`, is not looked at. -/
theorem witness_IgnoredFields :
    let s := nextIs mpmcBusy (.turn 1 (.move false 0))
    s.nextEvent ≠ .reset ∧ (∀ cw, s.nextEvent ≠ .turn 1 (.issue cw)) ∧ opDir (s.portAt 1).op = .deq ∧
    opTimed (s.portAt 1).op = false ∧ goesTo (step s) (fun _ => true) = true := by
  refine ⟨by decide, fun _ h => ?_, by decide, by decide, by decide⟩
  cases h

/-- Consistent states whose contents are those of R24 and R26, one slot below the bound of each variant and at it. -/
theorem witness_CountOfContents :
    spscFullIdle.Inv ∧ spscFullIdle.count + 1 = spscFullIdle.cfg.capacity ∧
    mpmcFullIdle.Inv ∧ mpmcFullIdle.count = mpmcFullIdle.cfg.capacity :=
  ⟨witness_spscFullIdle_inv, by decide, witness_mpmcFullIdle_inv, by decide⟩

/-- A run that ends: an SPSC ENQ of 7, with a timeout that the port does not latch (R94), and an illegal command at C, from
an empty queue of capacity 2; the whole command is in the result (R90, R299). -/
theorem witness_ObservableOfEndedRun :
    let m : Event := .turn portP (.move false 0)
    let s : State := { spsc 2 0 0 [] (inState .idle 0#3) (inState .idle 0#3) with
      script := [.turn portP (.issue (encode (spscCfg 2) (.spscEnq 7 3))), m,
        .turn portC (.issue (encode (spscCfg 2) (.spscIllegalEnqOnC 5 0))), m, m, .turn portP .accept,
        .turn portC .accept] }
    s.Inv ∧ s.runEnded ∧ State.noReset 7 s ∧
    s.observable 7 = some
      { results := [[{ command := ⟨0#3, 7, 3⟩, ok := true, cause := .none, data := none }],
                    [{ command := ⟨0#3, 5, 0⟩, ok := false, cause := .illegalOp, data := none }]],
        size := 1, contents := [7] } := by
  refine ⟨inv_of_checked ?_, ?_, ?_, ?_⟩
  · decide
  · decide
  · exact ⟨by decide, by decide, by decide, by decide, by decide, by decide, by decide, trivial⟩
  · decide

theorem witness_InvAtReset : (spscCfg 1).Legal ∧ Config.default.Legal := by decide

end Sys2Proof.Tests
end

section
/-! SUPPORT. What a turn at a port runs: the word in front of the port, the step when that word decodes to a command, and,
from both, the statement about the step as a whole. -/

namespace Sys2Proof.Machine

/-! ### The word in front of a port -/

/-- On an `ISSUE` it is the word presented. -/
@[simp] theorem commandWord_withTurn_issue (s : State) (p cw : Nat) : (s.withTurn p (.issue cw)).commandWord = cw := rfl

/-- On any other turn it is the word of the fields latched at the port. -/
theorem commandWord_withTurn_of_ne_issue (s : State) (p : Nat) {a : Act} (ha : ∀ cw, a ≠ .issue cw) :
    (s.withTurn p a).commandWord =
      packCommand s.cfg (s.portAt p).op (s.portAt p).data (s.portAt p).timeout := by
  cases a with
  | issue cw => exact absurd rfl (ha cw)
  | accept => rfl
  | move alt wake => rfl

/-! ### The step at a turn -/

/-- A turn whose word decodes is a step of the command decoded (R101): the converse of the last case of `step_next`. -/
theorem step_of_turn {s : State} {p : Nat} {a : Act} {i : Instr} (hl : s.cfg.Legal) (he : s.nextEvent = .turn p a)
    (hd : decode s.cfg p (s.takeEvent.withTurn p a).commandWord = .ok i) :
    step s = exec i (s.takeEvent.withTurn p a) := by
  simp only [step, if_pos hl, he, hd]

/-- Settles O10: by whether the turn is an `ISSUE`, the word the statement names is the one `step` decodes. -/
theorem stepRunsDecodedCommand : Obligations.StepRunsDecodedCommand := by
  intro s p a i hl he hissue hlatched
  refine step_of_turn hl he ?_
  by_cases ha : ∃ cw, a = .issue cw
  · obtain ⟨cw, rfl⟩ := ha
    simpa using hissue cw rfl
  · have hne : ∀ cw, a ≠ .issue cw := fun cw h => ha ⟨cw, h⟩
    simpa [commandWord_withTurn_of_ne_issue _ p hne] using hlatched hne

end Sys2Proof.Machine
end

section
/-! SUPPORT. The port records after the updates that a step ends with (R12, R14), and, from them, what the two dequeues do
with the queue (R66): `C_CHECK`, `C_READ`, `C_ADV` of SPSC and `DO_DEQ` of MPMC. -/

namespace Sys2Proof.Machine

/-! ### The port records after an update of the port in turn -/

section
variable {s : State} (h : s.me < s.ports.length)
include h

theorem portBecomes_goto (st : PState) : s.portBecomes (s.goto st) s.me { s.cur with st := st } :=
  ⟨length_goto s st, fun r => portAt_goto s st r h⟩

theorem portBecomes_complete (ok : Bool) (c : Cause) :
    s.portBecomes (complete ok c s) s.me (s.cur.completed ok c) :=
  ⟨length_complete ok c s, fun r => portAt_complete ok c s r h⟩

theorem portBecomes_updPort_goto (f : Port → Port) (st : PState) :
    s.portBecomes ((s.updPort s.me f).goto st) s.me { f s.cur with st := st } := by
  refine ⟨by simp, fun r => ?_⟩
  rw [portAt_goto _ _ _ (by simpa using h), me_updPort, portAt_updPort _ _ _ _ h, portAt_updPort _ _ _ _ h, if_pos rfl]
  by_cases hr : r = s.me
  · rw [if_pos hr, if_pos hr]
    rfl
  · rw [if_neg hr, if_neg hr, if_neg hr]

theorem onlyPort_goto (st : PState) : s.onlyPort (s.goto st) { s.cur with st := st } :=
  ⟨⟨rfl, rfl, rfl, fun _ => rfl⟩, rfl, ⟨rfl, rfl⟩, ⟨rfl, rfl, rfl, rfl, rfl⟩, portBecomes_goto h st⟩

theorem onlyPort_complete (ok : Bool) (c : Cause) : s.onlyPort (complete ok c s) (s.cur.completed ok c) :=
  ⟨⟨rfl, rfl, rfl, fun _ => rfl⟩, rfl, ⟨rfl, rfl⟩, ⟨rfl, rfl, rfl, rfl, rfl⟩, portBecomes_complete h ok c⟩

theorem onlyPort_updPort_goto (f : Port → Port) (st : PState) :
    s.onlyPort ((s.updPort s.me f).goto st) { f s.cur with st := st } :=
  ⟨⟨rfl, rfl, rfl, fun _ => rfl⟩, rfl, ⟨rfl, rfl⟩, ⟨rfl, rfl, rfl, rfl, rfl⟩, portBecomes_updPort_goto h f st⟩

end

/-! ### Which step a dequeue takes -/

section
variable {s : State} (d tmo : Nat)

theorem exec_spscDeq_check (h : s.turnIn .check) : exec (.spscDeq d tmo) s = cCheck s := by
  obtain ⟨_, hs, alt, wake, ha⟩ := h
  simp only [exec, execSpscDeq, ha, hs]

theorem exec_spscDeq_xfer (h : s.turnIn .xfer) : exec (.spscDeq d tmo) s = cRead s := by
  obtain ⟨_, hs, alt, wake, ha⟩ := h
  simp only [exec, execSpscDeq, ha, hs]

theorem exec_spscDeq_adv (h : s.turnIn .adv) : exec (.spscDeq d tmo) s = cAdv s := by
  obtain ⟨_, hs, alt, wake, ha⟩ := h
  simp only [exec, execSpscDeq, ha, hs]

/-- `DO_DEQ` is a step of both MPMC dequeues. -/
theorem exec_mpmcDeq_xfer {i : Instr} (hi : i = .mpmcDeq d tmo ∨ i = .mpmcDeqt d tmo) (h : s.turnIn .xfer) :
    exec i s = doDeq s := by
  obtain ⟨_, hs, alt, wake, ha⟩ := h
  rcases hi with rfl | rfl
  · simp only [exec, execMpmcDeq, ha, hs]
  · simp only [exec, execMpmcDeqt, ha, hs]

end

/-! ### The steps that read the queue -/

theorem cCheck_of_eq {s : State} (h : s.wi = s.ri) : cCheck s = .next (complete false .empty s) := by
  simp [cCheck, State.spscEmpty, h]

theorem cCheck_of_ne {s : State} (h : s.wi ≠ s.ri) : cCheck s = .next (s.goto .xfer) := by
  simp [cCheck, State.spscEmpty, h]

theorem cRead_of_slotAt {s : State} {v : Nat} (h : s.ri < s.cfg.capacity) (hv : slotAt s.storage s.ri = some v) :
    cRead s = .next ((s.updPort s.me fun q => { q with rspData := v }).goto .adv) := by
  simp only [cRead, memRead_of_slotAt s h hv]

theorem doDeq_of_slotAt {s : State} {v : Nat} (h : s.ri < s.cfg.capacity) (hv : slotAt s.storage s.ri = some v) :
    doDeq s = .next
      (({ s with ri := adv s.cfg s.ri, size := s.size - 1 }.updPort s.me fun q => { q with rspData := v }).goto .rel) := by
  simp only [doDeq, memRead_of_slotAt s h hv]

/-- Settles O18: at each of the three states the step taken is known, and so is the record it leaves. -/
theorem spscDeqSteps : Obligations.SpscDeqSteps := by
  refine ⟨fun s d tmo h => ⟨fun he => ?_, fun hne => ?_⟩, fun s d tmo v => ⟨fun h hr hv => ?_, fun h => ?_⟩⟩
  · exact ⟨_, (exec_spscDeq_check d tmo h).trans (cCheck_of_eq he), onlyPort_complete h.1 _ _⟩
  · exact ⟨_, (exec_spscDeq_check d tmo h).trans (cCheck_of_ne hne), onlyPort_goto h.1 _⟩
  · exact ⟨_, (exec_spscDeq_xfer d tmo h).trans (cRead_of_slotAt hr hv), onlyPort_updPort_goto h.1 _ _⟩
  · exact ⟨_, exec_spscDeq_adv d tmo h, rfl, rfl, rfl, fun _ => rfl, rfl, ⟨rfl, rfl⟩, ⟨rfl, rfl, rfl, rfl, rfl⟩,
      portBecomes_complete (s := { s with ri := adv s.cfg s.ri }) h.1 _ _⟩

/-- Settles O25 (`doDeq` itself is the name of the step): the slot is read, `ri` and `size` move, and the storage listing is not written. -/
theorem doDeqReads : Obligations.DoDeq := by
  intro i s d tmo v hi h hr hv hsize
  exact ⟨_, (exec_mpmcDeq_xfer d tmo hi h).trans (doDeq_of_slotAt hr hv), fun _ => rfl, rfl, Nat.sub_add_cancel hsize,
    rfl, rfl, ⟨rfl, rfl⟩, ⟨rfl, rfl, rfl, rfl, rfl⟩,
    portBecomes_updPort_goto (s := { s with ri := adv s.cfg s.ri, size := s.size - 1 }) h.1 _ _⟩

end Sys2Proof.Machine
end

section
/-! SUPPORT. What a turn does beside the record of the port in turn (`Own`), said once per part of the state: the other
ports and the wait sets (`WaitMove`), the lock (`LockMove`), the queue (`QueueMove`). Each lists every case, with the guard
it comes under, as `Moved` does for the whole turn. -/

namespace Sys2Proof.Machine

/-! ### The records after an update -/

/-- The turn is the same and so is the number of ports: `x` is `s` with parts of its state replaced. -/
structure SameTurn (s x : State) : Prop where
  sel : x.sel = s.sel
  length : x.ports.length = s.ports.length

section
variable {s x : State}

theorem SameTurn.me (h : SameTurn s x) : x.me = s.me := by rw [State.me, h.sel, State.me]

theorem SameTurn.me_lt (h : SameTurn s x) (hme : s.me < s.ports.length) : x.me < x.ports.length := by
  rwa [h.me, h.length]

@[simp] theorem sameTurn_self : SameTurn s s := ⟨rfl, rfl⟩

/-- The parts of the state other than the turn and the ports are replaced. -/
@[simp] theorem sameTurn_mk {c w r z m o a b n c' q} : SameTurn s ⟨c, w, r, z, m, o, a, b, n, s.ports, s.sel, c', q⟩ :=
  ⟨rfl, rfl⟩

@[simp] theorem sameTurn_updPort {p : Nat} {f : Port → Port} (h : SameTurn s x) : SameTurn s (x.updPort p f) :=
  ⟨h.sel, (length_updPort x p f).trans h.length⟩

@[simp] theorem sameTurn_setWaitSet {c : Condition} {ws : List Nat} (h : SameTurn s x) :
    SameTurn s (x.setWaitSet c ws) :=
  ⟨(setWaitSet_sel x c ws).trans h.sel, (congrArg List.length (setWaitSet_ports x c ws)).trans h.length⟩

@[simp] theorem sameTurn_wakeOne {c : Condition} {k : Nat} (h : SameTurn s x) : SameTurn s (wakeOne c k x) := by
  unfold wakeOne
  split
  · exact h
  · exact sameTurn_updPort (sameTurn_setWaitSet h)

theorem portAt_goto_of_ne {r : Nat} (h : SameTurn s x) (hr : r ≠ s.me) (st : PState) :
    (x.goto st).portAt r = x.portAt r :=
  portAt_updPort_of_ne x _ (h.me.symm ▸ hr)

theorem portAt_complete_of_ne {r : Nat} (h : SameTurn s x) (hr : r ≠ s.me) (ok : Bool) (c : Cause) :
    (complete ok c x).portAt r = x.portAt r :=
  portAt_updPort_of_ne x _ (h.me.symm ▸ hr)

theorem st_goto_me (h : SameTurn s x) (hme : s.me < s.ports.length) (st : PState) :
    ((x.goto st).portAt s.me).st = st := by
  rw [portAt_goto _ _ _ (h.me_lt hme), if_pos h.me.symm]

theorem st_complete_me (h : SameTurn s x) (hme : s.me < s.ports.length) (ok : Bool) (c : Cause) :
    ((complete ok c x).portAt s.me).st = .done := by
  rw [portAt_complete _ _ _ _ (h.me_lt hme), if_pos h.me.symm]

end

theorem wakeOne_of_nil {c : Condition} {s : State} (h : s.waitSet c = []) (k : Nat) : wakeOne c k s = s := by
  rw [wakeOne, if_pos h]

/-- The states a command can go to at `ISSUE`. -/
theorem firstState_cases {i : Instr} {st : PState} (h : firstState i = some st) :
    st = .check ∨ st = .acqTry ∨ st = .acqTimed := by
  cases i <;> simp only [firstState, Option.some.injEq, reduceCtorEq] at h <;> simp [← h]

theorem moved_length {i : Instr} {s t : State} (h : Moved i s t) : t.ports.length = s.ports.length := by
  cases h <;> simp [issued, enterWait, leaveWait]

/-! ### The other ports and the wait sets -/

/-- What a turn of command `i` does to the ports not in turn and to the wait sets. -/
inductive WaitMove (i : Instr) (s t : State) : Prop where
  | same (ho : ∀ r, r ≠ s.me → t.portAt r = s.portAt r) (hw : ∀ c, t.waitSet c = s.waitSet c)
      (hc : t = s ∨ (s.cur.st ≠ .cwait ∧ (t.portAt s.me).st ≠ .cwait))
  | enter (ho : ∀ r, r ≠ s.me → t.portAt r = s.portAt r) (hi : isMpmc i = true) (hs : s.cur.st = .pred)
      (ha : ∀ cw, s.sel.act ≠ .issue cw)
      (hw : ∀ c, t.waitSet c = if c = waitsOn (opDir i.op) then insertWaiter s.me (s.waitSet c) else s.waitSet c)
      (ht : t.portAt s.me = { s.cur with st := .cwait })
  | leave (ho : ∀ r, r ≠ s.me → t.portAt r = s.portAt r) (hi : isMpmc i = true) (hs : s.cur.st = .cwait)
      (ha : ∀ cw, s.sel.act ≠ .issue cw)
      (hw : ∀ c, t.waitSet c = if c = waitsOn (opDir i.op) then removeWaiter s.me (s.waitSet c) else s.waitSet c)
      (ht : (t.portAt s.me).st = .reacq)
  | wake (d : Condition) (w : Nat) (hi : isMpmc i = true) (hs : s.cur.st = .sig) (hm : w ∈ s.waitSet d)
      (ho : ∀ r, r ≠ s.me → t.portAt r = if r = w then { s.portAt r with st := .reacq } else s.portAt r)
      (hw : ∀ c, t.waitSet c = if c = d then removeWaiter w (s.waitSet c) else s.waitSet c)
      (ht : (t.portAt s.me).st = .done)

section
variable {i : Instr} {s : State} (hme : s.me < s.ports.length)
include hme

theorem enterWait_wait {alt : Bool} {k : Nat} (ha : s.sel.act = .move alt k) (hi : isMpmc i = true)
    (hs : s.cur.st = .pred) : WaitMove i s (enterWait (opDir i.op) s) := by
  have hx : ∀ ws, SameTurn s ({ s with owner := none }.setWaitSet (waitsOn (opDir i.op)) ws) := by simp
  refine .enter (fun r hr => ?_) hi hs (by simp [ha]) (fun c => ?_) ?_
  · rw [enterWait, portAt_goto_of_ne (hx _) hr, portAt_setWaitSet]
    exact portAt_congr rfl r
  · rw [enterWait, waitSet_goto, setWaitSet_waitSet]
    by_cases hc : c = waitsOn (opDir i.op)
    · rw [if_pos hc, if_pos hc, hc]
    · rw [if_neg hc, if_neg hc]
      cases c <;> rfl
  · rw [enterWait, portAt_goto _ _ _ ((hx _).me_lt hme), (hx _).me, if_pos rfl, portAt_setWaitSet]
    rfl

theorem leaveWait_wait {alt : Bool} {k : Nat} (ha : s.sel.act = .move alt k) (hi : isMpmc i = true)
    (hs : s.cur.st = .cwait) : WaitMove i s (leaveWait (opDir i.op) s) := by
  have hx : ∀ ws, SameTurn s (s.setWaitSet (waitsOn (opDir i.op)) ws) := by simp
  refine .leave (fun r hr => ?_) hi hs (by simp [ha]) (fun c => ?_) (st_goto_me (hx _) hme _)
  · rw [leaveWait, portAt_goto_of_ne (hx _) hr, portAt_setWaitSet]
  · rw [leaveWait, waitSet_goto, setWaitSet_waitSet]
    by_cases hc : c = waitsOn (opDir i.op)
    · rw [if_pos hc, if_pos hc, hc]
    · rw [if_neg hc, if_neg hc]

theorem signal_wait (hi : isMpmc i = true) (hs : s.cur.st = .sig)
    (hws : ∀ c, ∀ w ∈ s.waitSet c, w < s.ports.length) (d : Condition) (k : Nat) :
    WaitMove i s (complete true .none (wakeOne d k s)) := by
  have hx : SameTurn s (wakeOne d k s) := by simp
  have hdone := st_complete_me hx hme true .none
  by_cases hn : s.waitSet d = []
  · rw [wakeOne_of_nil hn] at hx hdone ⊢
    exact .same (fun r hr => portAt_complete_of_ne hx hr _ _) (fun c => waitSet_complete _ _ _ c)
      (.inr ⟨by simp [hs], by simp [hdone]⟩)
  · refine .wake d _ hi hs (chooseWaiter_mem hn k) (fun r hr => ?_) (fun c => ?_) hdone
    · rw [portAt_complete_of_ne hx hr, portAt_wakeOne _ _ _ (hws d)]
      simp [hn]
    · rw [waitSet_complete, waitSet_wakeOne]
      by_cases hc : c = d
      · rw [if_pos hc, if_pos hc, hc]
      · rw [if_neg hc, if_neg hc]

end

section
variable {i : Instr} {s x : State} (hx : SameTurn s x) (hme : s.me < s.ports.length)
  (ho : ∀ r, r ≠ s.me → x.portAt r = s.portAt r) (hw : ∀ c, x.waitSet c = s.waitSet c) (hs : s.cur.st ≠ .cwait)
include hx hme ho hw hs

theorem goto_wait {st : PState} (hst : st ≠ .cwait) : WaitMove i s (x.goto st) :=
  .same (fun r hr => (portAt_goto_of_ne hx hr st).trans (ho r hr)) (fun c => (waitSet_goto x st c).trans (hw c))
    (.inr ⟨hs, by rwa [st_goto_me hx hme st]⟩)

theorem complete_wait (ok : Bool) (c : Cause) : WaitMove i s (complete ok c x) :=
  .same (fun r hr => (portAt_complete_of_ne hx hr ok c).trans (ho r hr))
    (fun d => (waitSet_complete ok c x d).trans (hw d)) (.inr ⟨hs, by simp [st_complete_me hx hme ok c]⟩)

end

theorem moved_wait {i : Instr} {s t : State} (h : Moved i s t) (hme : s.me < s.ports.length)
    (hws : ∀ c, ∀ w ∈ s.waitSet c, w < s.ports.length) : WaitMove i s t := by
  cases h
  case stall => exact .same (fun _ _ => rfl) (fun _ => rfl) (.inl rfl)
  case predWait alt k ha hi ht hs hg hl => exact enterWait_wait hme ha hi hs
  case wakeDeadline k ha hi ht hs hg => exact leaveWait_wait hme ha hi hs
  case wakeSpurious k ha hi ht hs hg => exact leaveWait_wait hme ha hi hs
  case signal alt k ha hi hs => exact signal_wait hme hi hs hws _ k
  case issue cw st ha hs hf =>
    exact goto_wait (sameTurn_updPort sameTurn_self) hme (fun r hr => portAt_updPort_of_ne s _ hr) (waitSet_updPort s _ _)
      (by simp [hs]) (by rcases firstState_cases hf with rfl | rfl | rfl <;> simp)
  case issueIllegal cw ha hs hf =>
    exact complete_wait (sameTurn_updPort sameTurn_self) hme (fun r hr => portAt_updPort_of_ne s _ hr) (waitSet_updPort s _ _)
      (by simp [hs]) _ _
  case lockGrant | elapsed | cRead | doDeq =>
    exact goto_wait (by simp) hme (fun r hr => by exact (portAt_updPort_of_ne _ _ hr).trans (portAt_congr rfl r))
      (fun c => by cases c <;> rfl) (by simp [*]) (by simp)
  case accept | pCheck | pWrite | cCheck | lockTry | predTrue | lockReacq | doEnq | unlock =>
    exact goto_wait (by simp) hme (fun _ _ => by rfl) (fun c => by cases c <;> rfl) (by simp [*]) (by simp)
  case pFull | pAdv | cEmpty | cAdv | lockBusy | lockExpire | elapsedLate | predFail | predLate =>
    exact complete_wait (by simp) hme (fun _ _ => by rfl) (fun c => by cases c <;> rfl) (by simp [*]) _ _

/-! ### The lock -/

/-- What a turn at an MPMC port does to the lock, with whether the state of the port in turn is one that holds it (R45). -/
inductive LockMove (s t : State) : Prop where
  | same (ho : t.owner = s.owner) (hh : (t.portAt s.me).st.holdsLock = s.cur.st.holdsLock)
  | acquire (hs : s.owner = none) (ho : t.owner = some s.me) (hh : (t.portAt s.me).st.holdsLock = true)
  | release (hs : s.cur.st.holdsLock = true) (ho : t.owner = none) (hh : (t.portAt s.me).st.holdsLock = false)

theorem moved_lock {i : Instr} {s t : State} (h : Moved i s t) (hme : s.me < s.ports.length)
    (hn : isSpsc i = false) : LockMove s t := by
  cases h
  case pFull | pCheck | pWrite | pAdv | cEmpty | cCheck | cRead | cAdv => simp_all  -- steps of the other variant
  case stall => exact .same rfl rfl
  case issue cw st ha hs hf =>
    refine .same rfl ?_
    rcases firstState_cases hf with rfl | rfl | rfl <;> simp [issued, st_goto_me, hme, hs, PState.holdsLock]
  case lockTry | lockReacq | lockGrant =>
    exact .acquire ‹_› rfl (by simp [st_goto_me, hme, PState.holdsLock])
  case unlock | elapsedLate | predFail | predLate | predWait =>
    exact .release (by simp [*, PState.holdsLock]) (by simp [enterWait])
      (by simp [enterWait, st_goto_me, hme, st_complete_me, PState.holdsLock])
  all_goals
    exact .same (by simp [issued, leaveWait])
      (by simp [issued, leaveWait, st_goto_me, st_complete_me, PState.holdsLock, *])

/-! ### The queue -/

/-- The steps at which an element enters or leaves the queue (R70). -/
def transfers (i : Instr) (st : PState) : Bool := (isSpsc i && st == .adv) || (isMpmc i && st == .xfer)

/-- What a turn of command `i` does to the queue. -/
inductive QueueMove (i : Instr) (s t : State) : Prop where
  | keep (hn : ∀ alt k, s.sel.act = .move alt k → transfers i s.cur.st = false) (hw : t.wi = s.wi) (hr : t.ri = s.ri)
      (hz : t.size = s.size) (hm : t.storage = s.storage)
  | write (alt : Bool) (k : Nat) (ha : s.sel.act = .move alt k) (hi : isSpsc i = true) (hd : opDir i.op = .enq)
      (hs : s.cur.st = .xfer) (hl : s.wi < s.cfg.capacity) (hw : t.wi = s.wi) (hr : t.ri = s.ri) (hz : t.size = s.size)
      (hm : t.storage = putSlot s.storage s.wi s.cur.data)
  | pAdv (alt : Bool) (k : Nat) (ha : s.sel.act = .move alt k) (hi : isSpsc i = true) (hd : opDir i.op = .enq)
      (hs : s.cur.st = .adv) (hw : t.wi = adv s.cfg s.wi) (hr : t.ri = s.ri) (hz : t.size = s.size)
      (hm : t.storage = s.storage)
  | cAdv (alt : Bool) (k : Nat) (ha : s.sel.act = .move alt k) (hi : isSpsc i = true) (hd : opDir i.op = .deq)
      (hs : s.cur.st = .adv) (hw : t.wi = s.wi) (hr : t.ri = adv s.cfg s.ri) (hz : t.size = s.size)
      (hm : t.storage = s.storage)
  | doEnq (alt : Bool) (k : Nat) (ha : s.sel.act = .move alt k) (hi : isMpmc i = true) (hd : opDir i.op = .enq)
      (hs : s.cur.st = .xfer) (hl : s.wi < s.cfg.capacity) (hw : t.wi = adv s.cfg s.wi) (hr : t.ri = s.ri)
      (hz : t.size = s.size + 1) (hm : t.storage = putSlot s.storage s.wi s.cur.data)
      (ht : (t.portAt s.me).st = .rel)
  | doDeq (alt : Bool) (k : Nat) (ha : s.sel.act = .move alt k) (hi : isMpmc i = true) (hd : opDir i.op = .deq)
      (hs : s.cur.st = .xfer) (hl : s.ri < s.cfg.capacity) (hw : t.wi = s.wi) (hr : t.ri = adv s.cfg s.ri)
      (hz : t.size = s.size - 1) (hm : t.storage = s.storage) (ht : (t.portAt s.me).st = .rel)

theorem isMpmc_of_isSpsc {i : Instr} (h : isSpsc i = true) : isMpmc i = false := by
  cases i <;> simp_all [isSpsc, isMpmc]

theorem transfers_of_unguarded {i : Instr} {st : PState} (h : unguarded i st = false) : transfers i st = false := by
  cases st <;> simp_all [unguarded, transfers]

theorem moved_queue {i : Instr} {s t : State} (h : Moved i s t) (hme : s.me < s.ports.length) : QueueMove i s t := by
  cases h
  case stall hg => exact .keep (fun alt k ha => transfers_of_unguarded (hg.move alt k ha)) rfl rfl rfl rfl
  case pWrite alt k ha hi hd hs hw => exact .write alt k ha hi hd hs hw rfl rfl rfl rfl
  case pAdv alt k ha hi hd hs => exact .pAdv alt k ha hi hd hs rfl rfl rfl rfl
  case cAdv alt k ha hi hd hs => exact .cAdv alt k ha hi hd hs rfl rfl rfl rfl
  case doEnq alt k ha hi hd hs hw =>
    exact .doEnq alt k ha hi hd hs hw rfl rfl rfl rfl (by simp [st_goto_me, hme])
  case doDeq alt k v ha hi hd hs hr hv =>
    exact .doDeq alt k ha hi hd hs hr rfl rfl rfl rfl (by simp [st_goto_me, hme])
  case cRead alt k v ha hi hd hs hr hv =>
    exact .keep (fun _ _ _ => by simp [transfers, hs, isMpmc_of_isSpsc hi]) rfl rfl rfl rfl
  all_goals refine .keep ?_ ?_ ?_ ?_ ?_
  all_goals simp [*, transfers, issued, enterWait, leaveWait]

end Sys2Proof.Machine
end

section
/-! SUPPORT. Every turn at a port of a consistent SPSC machine keeps the invariants of R40 to R44: `SpscQueue` is the part of
`SpscInv` that speaks of the queue, and there is one lemma per step of R124 to R130. -/

namespace Sys2Proof.Machine

/-! ### The slots that hold a value -/

/-- Each of the `n` slots from slot `ri` on holds a value. -/
def Filled (m : List (Nat × Nat)) (c : Config) (ri n : Nat) : Prop :=
  ∀ k, k < n → (slotAt m ((ri + k) % c.capacity)).isSome = true

section
variable {m : List (Nat × Nat)} {c : Config} {ri n : Nat}

theorem Filled.putSlot (h : Filled m c ri n) (j v : Nat) : Filled (putSlot m j v) c ri n := by
  intro k hk
  rw [slotAt_putSlot]
  split
  · rfl
  · exact h k hk

theorem Filled.snoc (h : Filled m c ri n) (hn : (slotAt m ((ri + n) % c.capacity)).isSome = true) :
    Filled m c ri (n + 1) := by
  intro k hk
  rcases Nat.lt_succ_iff_lt_or_eq.mp hk with hk | rfl
  · exact h k hk
  · exact hn

theorem Filled.tail (h : Filled m c ri (n + 1)) : Filled m c (adv c ri) n := by
  intro k hk
  rw [adv_add]
  exact h (k + 1) (Nat.succ_lt_succ hk)

end

/-! ### The command in flight -/

/-- A command in flight after a turn was in flight before it, or has just been issued. -/
theorem own_inFlight {i : Instr} {s : State} {q : Port} (h : Own i s q) (hq : q.inFlight = true) :
    (s.cur.inFlight = true ∧ q.op = s.cur.op) ∨
      (q.op = i.op ∧ ∃ st, firstState i = some st) := by
  cases h
  case stall => exact .inl ⟨hq, rfl⟩
  case issue cw st ha hs hf => exact .inr ⟨latch_op _ _ _ _ _ _ _, st, hf⟩
  case issueIllegal | accept | fail | succeed => cases hq
  case go st alt k ha hg => exact .inl ⟨by cases hg <;> simp [Port.inFlight, *], rfl⟩
  case grant | elapsed | read => exact .inl ⟨by simp [Port.inFlight, *], rfl⟩

/-- On an SPSC machine an enqueue in flight is at P and a dequeue in flight at C (R120). -/
theorem spsc_port_of_dir {i : Instr} {s : State} (hS : s.SpscInv) (hc : Coherent i s)
    (ha : ∀ cw, s.sel.act ≠ .issue cw) (hf : s.cur.inFlight = true) :
    (opDir i.op = .enq → s.me = portP) ∧ (opDir i.op = .deq → s.me = portC) := by
  rw [hc.op_eq ha]
  rcases hS.roles s.me hf with ⟨hm, ho⟩ | ⟨hm, ho⟩
  · exact ⟨fun _ => hm, fun h => by simp [State.cur, ho] at h⟩
  · exact ⟨fun h => by simp [State.cur, ho] at h, fun _ => hm⟩

theorem own_spscCode {i : Instr} {s : State} {q : Port} (h : Own i s q) (hm : isMpmc i = false)
    (hf : ∀ st, firstState i = some st → st = .check) (hs : s.cur.st.spscCode.isSome = true) :
    q.st.spscCode.isSome = true := by
  cases h
  case stall => exact hs
  case issue cw st ha hs hf' => rw [hf st hf']; rfl
  case issueIllegal | accept | fail | succeed => rfl
  case go st alt k ha hg =>
    cases hg
    case check | write => rfl
    all_goals simp_all  -- steps of the other variant
  case grant | elapsed => simp_all
  case read alt k v st ha hd hs' hst hv =>
    rcases hst with ⟨_, rfl⟩ | ⟨hi, _⟩
    · rfl
    · simp_all

/-! ### The queue -/

/-- The invariants of an SPSC machine that speak of the queue (R40 to R44). -/
structure State.SpscQueue (s : State) : Prop where
  guard_P : (s.portAt portP).st = .xfer ∨ (s.portAt portP).st = .adv → adv s.cfg s.wi ≠ s.ri
  guard_C : (s.portAt portC).st = .xfer ∨ (s.portAt portC).st = .adv → s.wi ≠ s.ri
  written : (s.portAt portP).st = .adv → slotAt s.storage s.wi = some (s.portAt portP).data
  read : (s.portAt portC).st = .adv → slotAt s.storage s.ri = some (s.portAt portC).rspData
  filled : Filled s.storage s.cfg s.ri s.spscCount

theorem spscQueue_of_inv {s : State} (h : s.SpscInv) : s.SpscQueue :=
  ⟨h.guard_P, h.guard_C, h.written, h.read, h.holds⟩

/-- A turn that leaves the queue alone and brings no port past its check. -/
theorem spscQueue_of_quiet {s t : State} (h : s.SpscQueue) (hq : t.cfg = s.cfg ∧ t.wi = s.wi ∧ t.ri = s.ri ∧
    t.storage = s.storage)
    (hp : ∀ p, (t.portAt p).st = .xfer ∨ (t.portAt p).st = .adv → t.portAt p = s.portAt p) : t.SpscQueue := by
  obtain ⟨hc, hw, hr, hm⟩ := hq
  refine ⟨fun hs => ?_, fun hs => ?_, fun hs => ?_, fun hs => ?_, ?_⟩
  · rw [hc, hw, hr]
    exact h.guard_P (hp portP hs ▸ hs)
  · rw [hw, hr]
    exact h.guard_C (hp portC hs ▸ hs)
  · rw [hm, hw, hp portP (.inr hs)]
    exact h.written (hp portP (.inr hs) ▸ hs)
  · rw [hm, hr, hp portC (.inr hs)]
    exact h.read (hp portC (.inr hs) ▸ hs)
  · rw [hm, hc, hr, spscCount_eq, hc, hw, hr]
    exact h.filled

/-- Such a turn, when its own port is neither at its access nor at its advance afterwards. -/
theorem spscQueue_of_idle_turn {s t : State} (h : s.SpscQueue) (hq : t.cfg = s.cfg ∧ t.wi = s.wi ∧ t.ri = s.ri ∧
    t.storage = s.storage) (ho : ∀ r, r ≠ s.me → t.portAt r = s.portAt r)
    (hs : (t.portAt s.me).st ≠ .xfer ∧ (t.portAt s.me).st ≠ .adv) : t.SpscQueue := by
  refine spscQueue_of_quiet h hq fun p hp => ?_
  by_cases hm : p = s.me
  · subst hm
    exact absurd hp (not_or.mpr hs)
  · exact ho p hm

section
variable {s : State} (h : s.SpscQueue) (hme : s.me < s.ports.length)
include h hme

/-- `P_CHECK` on a queue that is not full (R124). -/
theorem spscQueue_pCheck (hp : s.me = portP) (hg : adv s.cfg s.wi ≠ s.ri) : (s.goto .xfer).SpscQueue := by
  have hP : ((s.goto .xfer).portAt portP).st = .xfer := by rw [← hp, st_goto_me sameTurn_self hme]
  have hC : (s.goto .xfer).portAt portC = s.portAt portC := portAt_goto_of_ne sameTurn_self (by rw [hp]; decide) _
  exact ⟨fun _ => hg, hC.symm ▸ h.guard_C, by simp [hP], hC.symm ▸ h.read, h.filled⟩

/-- `C_CHECK` on a queue that is not empty (R128). -/
theorem spscQueue_cCheck (hp : s.me = portC) (hg : s.wi ≠ s.ri) : (s.goto .xfer).SpscQueue := by
  have hC : ((s.goto .xfer).portAt portC).st = .xfer := by rw [← hp, st_goto_me sameTurn_self hme]
  have hP : (s.goto .xfer).portAt portP = s.portAt portP := portAt_goto_of_ne sameTurn_self (by rw [hp]; decide) _
  exact ⟨hP.symm ▸ h.guard_P, fun _ => hg, hP.symm ▸ h.written, by simp [hC], h.filled⟩

/-- `P_WRITE` (R125): the slot stored to is not one that holds an element. -/
theorem spscQueue_pWrite (hp : s.me = portP) (hs : s.cur.st = .xfer) :
    ({ s with storage := putSlot s.storage s.wi s.cur.data }.goto .adv).SpscQueue := by
  have hcur : s.cur = s.portAt portP := by rw [State.cur, hp]
  have hP : ({ s with storage := putSlot s.storage s.wi s.cur.data }.goto .adv).portAt portP =
      { s.portAt portP with st := .adv } := by
    rw [← hp]
    exact ((portBecomes_goto (s := { s with storage := putSlot s.storage s.wi s.cur.data }) hme .adv).2 s.me).trans
      (if_pos rfl)
  have hC : ({ s with storage := putSlot s.storage s.wi s.cur.data }.goto .adv).portAt portC = s.portAt portC :=
    portAt_goto_of_ne (s := s) sameTurn_mk (by rw [hp]; decide) _
  refine ⟨fun _ => h.guard_P (.inl (hcur ▸ hs)), hC.symm ▸ h.guard_C, fun _ => ?_, fun hc => ?_, h.filled.putSlot _ _⟩
  · rw [hP, hcur]
    exact slotAt_putSlot_same _ _ _
  · rw [hC] at hc ⊢
    exact (slotAt_putSlot_ne _ _ (h.guard_C (.inr hc)).symm).trans (h.read hc)

/-- `P_ADV` (R126): the slot taken in was written before. -/
theorem spscQueue_pAdv (hw : s.wi < s.cfg.capacity) (hr : s.ri < s.cfg.capacity) (hp : s.me = portP)
    (hs : s.cur.st = .adv) : (complete true .none { s with wi := adv s.cfg s.wi }).SpscQueue := by
  have hcur : s.cur = s.portAt portP := by rw [State.cur, hp]
  have hg := h.guard_P (.inr (hcur ▸ hs))
  have hP : ((complete true .none { s with wi := adv s.cfg s.wi }).portAt portP).st = .done := by
    rw [← hp, st_complete_me sameTurn_mk hme]
  have hC : (complete true .none { s with wi := adv s.cfg s.wi }).portAt portC = s.portAt portC :=
    portAt_complete_of_ne (s := s) sameTurn_mk (by rw [hp]; decide) _ _
  refine ⟨by simp [hP], fun _ => hg, by simp [hP], hC.symm ▸ h.read, ?_⟩
  rw [spscCount_eq]
  show Filled s.storage s.cfg s.ri (indexGap s.cfg.capacity (adv s.cfg s.wi) s.ri)
  rw [indexGap_adv_wi hw hr hg]
  refine h.filled.snoc ?_
  rw [spscCount_eq, add_indexGap hw hr, h.written (hcur ▸ hs)]
  rfl

/-- `C_READ` (R129). -/
theorem spscQueue_cRead {v : Nat} (hp : s.me = portC) (hs : s.cur.st = .xfer) (hv : slotAt s.storage s.ri = some v) :
    ((s.updPort s.me fun q => { q with rspData := v }).goto .adv).SpscQueue := by
  have hcur : s.cur = s.portAt portC := by rw [State.cur, hp]
  have hC := (portBecomes_updPort_goto hme (fun q => { q with rspData := v }) .adv).2 portC
  rw [if_pos hp.symm] at hC
  have hP : ((s.updPort s.me fun q => { q with rspData := v }).goto .adv).portAt portP = s.portAt portP := by
    rw [portAt_goto_of_ne (sameTurn_updPort sameTurn_self) (by rw [hp]; decide),
      portAt_updPort_of_ne _ _ (by rw [hp]; decide)]
  exact ⟨hP.symm ▸ h.guard_P, fun _ => h.guard_C (.inl (hcur ▸ hs)), hP.symm ▸ h.written, fun _ => by rw [hC]; exact hv,
    h.filled⟩

/-- `C_ADV` (R130). -/
theorem spscQueue_cAdv (hw : s.wi < s.cfg.capacity) (hr : s.ri < s.cfg.capacity) (hp : s.me = portC)
    (hs : s.cur.st = .adv) : (complete true .none { s with ri := adv s.cfg s.ri }).SpscQueue := by
  have hcur : s.cur = s.portAt portC := by rw [State.cur, hp]
  have hg := h.guard_C (.inr (hcur ▸ hs))
  have hC : ((complete true .none { s with ri := adv s.cfg s.ri }).portAt portC).st = .done := by
    rw [← hp, st_complete_me sameTurn_mk hme]
  have hP : (complete true .none { s with ri := adv s.cfg s.ri }).portAt portP = s.portAt portP :=
    portAt_complete_of_ne (s := s) sameTurn_mk (by rw [hp]; decide) _ _
  refine ⟨fun _ e => hg (adv_inj hw hr e), by simp [hC], hP.symm ▸ h.written, by simp [hC], ?_⟩
  have hf := h.filled
  rw [spscCount_eq, ← indexGap_adv_ri hw hr hg] at hf
  exact hf.tail

end

/-! ### A turn -/

/-- An SPSC command touches neither the lock nor `size` (R23). -/
theorem moved_owner_size {i : Instr} {s t : State} (h : Moved i s t) (hm : isMpmc i = false) :
    t.owner = s.owner ∧ t.size = s.size := by
  cases h
  case stall | issue | issueIllegal | accept | pFull | pCheck | pWrite | pAdv | cEmpty | cCheck | cRead | cAdv =>
    exact ⟨rfl, rfl⟩
  all_goals simp_all  -- steps of the other variant

section
variable {i : Instr} {s t : State} (hI : s.Inv) (hv : s.cfg.variant = .spsc) (hc : Coherent i s) (h : Moved i s t)
include hI hv hc h

theorem moved_spscQueue (hme : s.me < s.ports.length) (ho : ∀ r, r ≠ s.me → t.portAt r = s.portAt r) : t.SpscQueue := by
  have hS := hI.spsc hv
  have hQ := spscQueue_of_inv hS
  have hm : isMpmc i = false := (kind_variant hc).1 hv
  have hdir : ∀ {alt : Bool} {k : Nat}, s.sel.act = .move alt k → s.cur.inFlight = true →
      (opDir i.op = .enq → s.me = portP) ∧ (opDir i.op = .deq → s.me = portC) :=
    fun ha hf => spsc_port_of_dir hS hc (by simp [ha]) hf
  cases h
  case stall => exact hQ
  case issue cw st ha hs hf =>
    refine spscQueue_of_idle_turn hQ ⟨rfl, rfl, rfl, rfl⟩ ho ?_
    rcases firstState_cases hf with rfl | rfl | rfl <;> simp [issued, st_goto_me, hme]
  case issueIllegal | accept | pFull | cEmpty =>
    exact spscQueue_of_idle_turn hQ ⟨rfl, rfl, rfl, rfl⟩ ho (by simp [issued, st_goto_me, st_complete_me, hme])
  case pCheck alt k ha hi hd hs hg =>
    exact spscQueue_pCheck hQ hme ((hdir ha (by simp [Port.inFlight, hs])).1 hd) hg
  case pWrite alt k ha hi hd hs hw =>
    exact spscQueue_pWrite hQ hme ((hdir ha (by simp [Port.inFlight, hs])).1 hd) hs
  case pAdv alt k ha hi hd hs =>
    exact spscQueue_pAdv hQ hme hI.typed.wi_lt hI.typed.ri_lt ((hdir ha (by simp [Port.inFlight, hs])).1 hd) hs
  case cCheck alt k ha hi hd hs hg =>
    exact spscQueue_cCheck hQ hme ((hdir ha (by simp [Port.inFlight, hs])).2 hd) hg
  case cRead alt k v ha hi hd hs hr hv' =>
    exact spscQueue_cRead hQ hme ((hdir ha (by simp [Port.inFlight, hs])).2 hd) hs hv'
  case cAdv alt k ha hi hd hs =>
    exact spscQueue_cAdv hQ hme hI.typed.wi_lt hI.typed.ri_lt ((hdir ha (by simp [Port.inFlight, hs])).2 hd) hs
  all_goals simp_all  -- steps of the other variant

theorem moved_spscInv (hme : s.me < s.ports.length) (ho : ∀ r, r ≠ s.me → t.portAt r = s.portAt r)
    (hown : Own i s (t.portAt s.me)) (hw : ∀ c, t.waitSet c = s.waitSet c) : t.SpscInv := by
  have hS := hI.spsc hv
  have hm : isMpmc i = false := (kind_variant hc).1 hv
  have hn : s.me < 2 := by simpa [Config.numPorts, hv] using hc.me_lt
  have hfirst : ∀ st, firstState i = some st →
      st = .check ∧ ((s.me = portP ∧ i.op = 0#3) ∨ (s.me = portC ∧ i.op = 1#3)) := by
    obtain ⟨op, d, tmo, rfl⟩ := hc.fields
    rw [hv, decodeFields_op]
    exact (spsc_kinds s.me op d tmo hn).2.2
  obtain ⟨hP, hC, hwr, hre, hf⟩ := moved_spscQueue hI hv hc h hme ho
  refine ⟨fun p => ?_, fun p hp => ?_, hP, hC, hwr, hre, hf, ?_⟩
  · by_cases e : p = s.me
    · exact e ▸ own_spscCode hown hm (fun st hf => (hfirst st hf).1) (hS.states s.me)
    · exact ho p e ▸ hS.states p
  · by_cases e : p = s.me
    · subst e
      rcases own_inFlight hown hp with ⟨hf, hop⟩ | ⟨hop, st, hf⟩
      · exact hop ▸ hS.roles s.me hf
      · exact hop ▸ (hfirst st hf).2
    · rw [ho p e] at hp ⊢
      exact hS.roles p hp
  · obtain ⟨hown, hrtr, hrtw, hz⟩ := hS.no_mpmc_state
    obtain ⟨ho', hz'⟩ := moved_owner_size h hm
    exact ⟨ho'.trans hown, (hw .rtr).trans hrtr, (hw .rtw).trans hrtw, hz'.trans hz⟩

end

end Sys2Proof.Machine
end

section
/-! SUPPORT. Every turn at a port of a consistent MPMC machine keeps the invariants of R45 to R50 and R170: what each port's
record alone must satisfy (`Port.MpmcOk`), the lock, the wait sets, and the queue. -/

namespace Sys2Proof.Machine

/-! ### The times of one port -/

/-- The states in which a timed command's deadline stands (R157, R170). -/
abbrev PState.budgeted (st : PState) : Prop :=
  st = .pred ∨ st = .cwait ∨ st = .reacq ∨ st = .xfer ∨ st = .rel ∨ st = .sig

section
variable {c : Config} {now : Nat} {q : Port} (h : q.TimesOk c now)
include h

theorem start_le_of_inFlight (hf : q.inFlight = true) : q.start ≤ now :=
  h.start_le fun e => by simp [Port.inFlight, e] at hf

/-- A step that goes on without touching a time. -/
theorem timesOk_go (hf : q.inFlight = true) (v : Nat) {st : PState} (hst : st ≠ .elapsed ∧ st ≠ .done)
    (hb : opTimed q.op = true → st.budgeted → q.st.budgeted) : ({ q with rspData := v, st := st } : Port).TimesOk c now where
  start_le _ := (start_le_of_inFlight h hf : q.start ≤ now)
  unwrapped _ := h.unwrapped hf
  granted e := absurd e hst.1
  budget ht hs := h.budget ht (hb ht hs)
  late _ _ e := absurd e hst.2

/-- A completion: a timed command that fails does so no earlier than its timeout (R215). -/
theorem timesOk_completed (hf : q.inFlight = true) {ok : Bool} {cause : Cause}
    (hl : opTimed q.op = true → ok = false → q.start + q.timeout ≤ now) : (q.completed ok cause).TimesOk c now where
  start_le _ := (start_le_of_inFlight h hf : q.start ≤ now)
  unwrapped e := by cases e
  granted e := by cases e
  budget _ hs := by simp at hs
  late ht _ _ hok := hl ht hok

/-- The lock is granted to a timed command (R153). -/
theorem timesOk_granted (hf : q.inFlight = true) : ({ q with t1 := now, st := .elapsed } : Port).TimesOk c now where
  start_le _ := (start_le_of_inFlight h hf : q.start ≤ now)
  unwrapped _ := h.unwrapped hf
  granted _ := ⟨(start_le_of_inFlight h hf : q.start ≤ now), Nat.le_refl _⟩
  budget _ hs := by simp at hs
  late _ _ e := by cases e

/-- `ELAPSED` sets the deadline (R157). -/
theorem timesOk_elapsed (hs : q.st = .elapsed) (hg : q.t1 - q.start < q.timeout) :
    ({ q with deadline := deadlineOf (c.legacyDeqBudget && opDir q.op == .deq) q.start q.t1 q.timeout, st := .pred } :
      Port).TimesOk c now where
  start_le _ := (start_le_of_inFlight h (by simp [Port.inFlight, hs]) : q.start ≤ now)
  unwrapped _ := h.unwrapped (by simp [Port.inFlight, hs])
  granted e := by cases e
  budget _ _ := ⟨(h.granted hs).1, (h.granted hs).2, hg, rfl⟩
  late _ _ e := by cases e

/-- The deadline of a timed command is not before its timeout has passed since `ISSUE` (R213, R221). -/
theorem timeout_le_deadline (ht : opTimed q.op = true) (hs : q.st.budgeted) : q.start + q.timeout ≤ q.deadline := by
  obtain ⟨h1, _, h3, h4⟩ := h.budget ht hs
  rw [h4]
  unfold deadlineOf
  split <;> omega

end

theorem timesOk_idle (c : Config) (now : Nat) (q : Port) : ({ q with st := .idle } : Port).TimesOk c now where
  start_le e := absurd rfl e
  unwrapped e := by cases e
  granted e := by cases e
  budget _ hs := by simp at hs
  late _ _ e := by cases e

/-- `ISSUE` latches the time it reads (R150). -/
theorem timesOk_issued {c : Config} (hl : c.tow < c.tw) (op : Op) (d tmo now seq : Nat) (q : Port) {st : PState}
    (hst : st = .check ∨ st = .acqTry ∨ st = .acqTimed) :
    ({ latch .mpmc op d tmo now seq q with st := st } : Port).TimesOk c now where
  start_le _ := Nat.le_refl now
  unwrapped _ := by
    have := Nat.pow_lt_pow_right (a := 2) (by decide) hl
    simp only [latch_mpmc]
    omega
  granted e := by rcases hst with rfl | rfl | rfl <;> cases e
  budget _ hs := by rcases hst with rfl | rfl | rfl <;> simp at hs
  late _ _ e := by rcases hst with rfl | rfl | rfl <;> cases e

theorem timesOk_issuedIllegal (c : Config) {op : Op} (hr : opReserved op = true) (d tmo now seq : Nat) (q : Port) :
    ((latch .mpmc op d tmo now seq q).completed false .illegalOp).TimesOk c now where
  start_le _ := Nat.le_refl now
  unwrapped e := by cases e
  granted e := by cases e
  budget _ hs := by simp at hs
  late _ hn := by simp [hr] at hn

/-! ### One port -/

/-- What `MpmcInv` asks of the record of one port alone. -/
structure Port.MpmcOk (c : Config) (now : Nat) (q : Port) : Prop where
  state : q.st.mpmcCode.isSome = true
  unreserved : q.inFlight = true → opReserved q.op = false
  nonblocking : q.st = .acqTry → opTimed q.op = false
  timed : q.st = .acqTimed ∨ q.st = .elapsed ∨ q.st = .cwait ∨ q.st = .reacq → opTimed q.op = true
  times : q.TimesOk c now

theorem mpmcOk_of_inv {s : State} (h : s.MpmcInv) (p : Nat) : (s.portAt p).MpmcOk s.cfg s.now :=
  ⟨h.states p, h.unreserved p, h.nonblocking p, h.timed p, h.times p⟩

/-- The record of a port that a `SIGNAL` wakes (R161). -/
theorem mpmcOk_woken {c : Config} {now : Nat} {q : Port} (h : q.MpmcOk c now) (hs : q.st = .cwait) :
    ({ q with st := .reacq } : Port).MpmcOk c now where
  state := rfl
  unreserved _ := h.unreserved (by simp [Port.inFlight, hs])
  nonblocking e := by cases e
  timed _ := h.timed (.inr (.inr (.inl hs)))
  times := timesOk_go h.times (by simp [Port.inFlight, hs]) q.rspData (by simp) (fun _ _ => .inr (.inl hs))

section
variable {i : Instr} {s : State} {q : Port}

theorem own_mpmcCode (h : Own i s q) (hsp : isSpsc i = false)
    (hf : ∀ st, firstState i = some st → st = .acqTry ∨ st = .acqTimed)
    (hs : s.cur.st.mpmcCode.isSome = true) : q.st.mpmcCode.isSome = true := by
  cases h
  case stall => exact hs
  case issue cw st ha hs hf' => rcases hf st hf' with rfl | rfl <;> rfl
  case issueIllegal | accept | fail | succeed | grant | elapsed => rfl
  case go st alt k ha hg =>
    cases hg
    case check | write => simp_all  -- steps of the other variant
    all_goals rfl
  case read alt k v st ha hd hs' hst hv =>
    rcases hst with ⟨hi, _⟩ | ⟨_, rfl⟩
    · simp_all
    · rfl

/-- Only a nonblocking command stands in `ACQ_TRY`, and only a timed one in the states that wait for the lock or a
condition. -/
theorem own_timed (h : Own i s q) (hop : (∀ cw, s.sel.act ≠ .issue cw) → i.op = s.cur.op)
    (hf : ∀ st, firstState i = some st → (st = .acqTry ∧ opTimed i.op = false) ∨ (st = .acqTimed ∧ opTimed i.op = true))
    (hs : (s.cur.st = .acqTry → opTimed s.cur.op = false) ∧
      (s.cur.st = .acqTimed ∨ s.cur.st = .elapsed ∨ s.cur.st = .cwait ∨ s.cur.st = .reacq → opTimed s.cur.op = true)) :
    (q.st = .acqTry → opTimed q.op = false) ∧
      (q.st = .acqTimed ∨ q.st = .elapsed ∨ q.st = .cwait ∨ q.st = .reacq → opTimed q.op = true) := by
  cases h
  case stall => exact hs
  case issue cw st ha hs hf' => rcases hf st hf' with ⟨rfl, ht⟩ | ⟨rfl, ht⟩ <;> simp [ht]
  case issueIllegal | accept | fail | succeed | elapsed => simp
  case go st alt k ha hg =>
    have hop := hop (by simp [ha])
    cases hg
    case wait ht _ _ _ | wake ht _ _ => simp [← hop, ht]
    all_goals simp
  case grant k ha hi ht hs' hg => simp [← hop (by simp [ha]), ht]
  case read alt k v st ha hd hs' hst hv => rcases hst with ⟨_, rfl⟩ | ⟨_, rfl⟩ <;> simp

/-- A failing timed command fails no earlier than its timeout (R215). -/
theorem fails_late {c : Cause} (hf : Fails i s c) (hsp : isSpsc i = false) (hop : i.op = s.cur.op)
    (ht : s.cur.TimesOk s.cfg s.now) (htimed : opTimed s.cur.op = true) : s.cur.start + s.cur.timeout ≤ s.now := by
  rw [← hop] at htimed
  cases hf
  case full | empty | lockBusy | pred => simp_all
  case expired _ _ hs hg =>
    have := start_le_of_inFlight ht (by simp [Port.inFlight, hs])
    omega
  case late _ _ hs hg =>
    have := ht.granted hs
    omega
  case waited _ _ hs _ hl => exact Nat.le_trans (timeout_le_deadline ht (hop ▸ htimed) (.inl hs)) hl

theorem own_timesOk (h : Own i s q) (hv : s.cfg.variant = .mpmc) (hl : s.cfg.tow < s.cfg.tw) (hsp : isSpsc i = false)
    (hop : (∀ cw, s.sel.act ≠ .issue cw) → i.op = s.cur.op) (hres : firstState i = none → opReserved i.op = true)
    (ht : s.cur.TimesOk s.cfg s.now) : q.TimesOk s.cfg s.now := by
  cases h
  case stall => exact ht
  case issue cw st ha hs hf => exact hv ▸ timesOk_issued hl _ _ _ _ _ _ (firstState_cases hf)
  case issueIllegal cw ha hs hf => exact hv ▸ timesOk_issuedIllegal _ (hres hf) _ _ _ _ _
  case accept => exact timesOk_idle _ _ _
  case fail c alt k ha hf =>
    refine timesOk_completed ht (by cases hf <;> simp [Port.inFlight, *]) fun htimed _ => ?_
    exact fails_late hf hsp (hop (by simp [ha])) ht htimed
  case succeed alt k ha hs =>
    exact timesOk_completed ht (by rcases hs with ⟨_, hs⟩ | ⟨_, hs⟩ <;> simp [Port.inFlight, hs]) (by simp)
  case go st alt k ha hg =>
    refine timesOk_go ht (by cases hg <;> simp [Port.inFlight, *]) s.cur.rspData (by cases hg <;> simp) fun htimed _ => ?_
    have hop := hop (by simp [ha])
    cases hg
    case check | write | lockTry => simp_all
    all_goals simp [PState.budgeted, *]
  case grant k ha hi htimed hs hg => exact timesOk_granted ht (by simp [Port.inFlight, hs])
  case elapsed alt k ha hi htimed hs hg =>
    rw [hop (by simp [ha])]
    exact timesOk_elapsed ht hs hg
  case read alt k v st ha hd hs hst hv =>
    refine timesOk_go ht (by simp [Port.inFlight, hs]) v ?_ fun _ _ => by simp [PState.budgeted, hs]
    rcases hst with ⟨_, rfl⟩ | ⟨_, rfl⟩ <;> simp

end

theorem own_mpmcOk {i : Instr} {s : State} {q : Port} (hI : s.Inv) (hv : s.cfg.variant = .mpmc) (hc : Coherent i s)
    (h : Own i s q) : q.MpmcOk s.cfg s.now := by
  obtain ⟨hst, hun, hnb, htm, hti⟩ := mpmcOk_of_inv (hI.mpmc hv) s.me
  have hsp : isSpsc i = false := (kind_variant hc).2 hv
  have hkinds : (∀ st, firstState i = some st →
      opReserved i.op = false ∧ ((st = .acqTry ∧ opTimed i.op = false) ∨ (st = .acqTimed ∧ opTimed i.op = true))) ∧
      (firstState i = none → opReserved i.op = true) := by
    obtain ⟨op, d, tmo, rfl⟩ := hc.fields
    rw [hv, decodeFields_op]
    exact (mpmc_kinds s.me op d tmo).2.2
  obtain ⟨hfirst, hnone⟩ := hkinds
  obtain ⟨hnb', htm'⟩ := own_timed h hc.op_eq (fun st hf => (hfirst st hf).2) ⟨hnb, htm⟩
  refine ⟨own_mpmcCode h hsp (fun st hf => ((hfirst st hf).2).imp And.left And.left) hst, fun hq => ?_, hnb', htm',
    own_timesOk h hv hI.typed.legal.2.2.2.1 hsp hc.op_eq hnone hti⟩
  rcases own_inFlight h hq with ⟨hf, hop⟩ | ⟨hop, st, hf⟩
  · exact hop ▸ hun hf
  · exact hop ▸ (hfirst st hf).1

/-! ### The other ports -/

theorem WaitMove.other {i : Instr} {s t : State} (h : WaitMove i s t) {r : Nat} (hr : r ≠ s.me) :
    t.portAt r = s.portAt r ∨ ∃ d, r ∈ s.waitSet d ∧ t.portAt r = { s.portAt r with st := .reacq } := by
  cases h
  case same ho _ _ | enter ho _ _ _ _ _ | leave ho _ _ _ _ _ => exact .inl (ho r hr)
  case wake d w hi hs hm ho hw ht =>
    rw [ho r hr]
    split
    · rename_i e
      exact .inr ⟨d, e ▸ hm, rfl⟩
    · exact .inl rfl

section
variable {i : Instr} {s t : State} (hM : s.MpmcInv) (hw : WaitMove i s t)
include hM hw

theorem other_mpmcOk {r : Nat} (hr : r ≠ s.me) : (t.portAt r).MpmcOk s.cfg s.now := by
  rcases hw.other hr with e | ⟨d, hm, e⟩
  · exact e ▸ mpmcOk_of_inv hM r
  · exact e ▸ mpmcOk_woken (mpmcOk_of_inv hM r) ((hM.waits d r).mp hm).1

/-- A port not in turn is woken from `CWAIT` to `REACQ` or keeps its state: in neither does it hold the lock otherwise. -/
theorem other_holdsLock {r : Nat} (hr : r ≠ s.me) : (t.portAt r).st.holdsLock = (s.portAt r).st.holdsLock := by
  rcases hw.other hr with e | ⟨d, hm, e⟩
  · rw [e]
  · rw [e, ((hM.waits d r).mp hm).1]
    rfl

/-! ### The lock (R45) -/

theorem moved_owner_iff (hl : LockMove s t) (p : Nat) : t.owner = some p ↔ (t.portAt p).st.holdsLock = true := by
  have hinv := hM.lock
  by_cases hp : p = s.me
  · subst hp
    cases hl
    case same ho hh =>
      rw [ho, hh]
      exact hinv s.me
    case acquire hs ho hh => simp [ho, hh]
    case release hs ho hh => simp [ho, hh]
  · rw [other_holdsLock hM hw hp, ← hinv p]
    cases hl
    case same ho hh => rw [ho]
    case acquire hs ho hh => simp [ho, hs, Ne.symm hp]
    case release hs ho hh => simp [ho, (hinv s.me).mpr hs, Ne.symm hp]

/-! ### The wait sets (R48, R50) -/

theorem moved_mem_waitSet (hop : (∀ cw, s.sel.act ≠ .issue cw) → i.op = s.cur.op) (c : Condition) (p : Nat) :
    p ∈ t.waitSet c ↔ (t.portAt p).st = .cwait ∧ waitsOn (opDir (t.portAt p).op) = c := by
  have hinv := hM.waits
  have hme : ∀ d, s.me ∈ s.waitSet d → s.cur.st = .cwait := fun d hm => ((hinv d s.me).mp hm).1
  cases hw
  case same ho hws hc =>
    rw [hws c]
    by_cases hp : p = s.me
    · subst hp
      rcases hc with rfl | ⟨hs, ht⟩
      · exact hinv c t.me
      · exact ⟨fun hm => absurd (hme c hm) hs, fun h => absurd h.1 ht⟩
    · rw [ho p hp]
      exact hinv c p
  case enter ho hi hs ha hws ht =>
    rw [hws c, hop ha]
    by_cases hp : p = s.me
    · subst hp
      have hn : s.me ∉ s.waitSet c := fun hm => by simpa [hs] using hme c hm
      rw [ht]
      split
      · simp [mem_insertWaiter, *]
      · rename_i hne
        exact ⟨fun hm => absurd hm hn, fun h => absurd h.2.symm hne⟩
    · rw [ho p hp, ← hinv c p]
      split
      · simp [mem_insertWaiter, hp]
      · rfl
  case leave ho hi hs ha hws ht =>
    rw [hws c, hop ha]
    by_cases hp : p = s.me
    · subst hp
      rw [ht]
      split
      · simp [mem_removeWaiter]
      · rename_i hc
        simp only [reduceCtorEq, false_and, iff_false]
        exact fun hm => hc ((hinv c s.me).mp hm).2.symm
    · rw [ho p hp, ← hinv c p]
      split
      · simp [mem_removeWaiter, hp]
      · rfl
  case wake d w hi hs hm ho hws ht =>
    rw [hws c]
    by_cases hp : p = s.me
    · subst hp
      have hn : ∀ d, s.me ∉ s.waitSet d := fun d hm => by simpa [hs] using hme d hm
      rw [ht]
      split <;> simp [mem_removeWaiter, hn]
    · rw [ho p hp]
      by_cases hpw : p = w
      · subst hpw
        rw [if_pos rfl]
        split
        · simp [mem_removeWaiter]
        · rename_i hc
          simp only [reduceCtorEq, false_and, iff_false]
          exact fun hm' => hc (((hinv c p).mp hm').2.symm.trans ((hinv d p).mp hm).2)
      · rw [if_neg hpw, ← hinv c p]
        split
        · simp [mem_removeWaiter, hpw]
        · rfl

theorem moved_waitSet_sorted (c : Condition) : (t.waitSet c).Pairwise (· < ·) := by
  have hs := hM.waits_sorted c
  cases hw
  case same ho hws hc => rwa [hws c]
  case enter hws _ =>
    rw [hws c]
    split
    · exact insertWaiter_sorted _ hs
    · exact hs
  case leave hws _ | wake hws _ =>
    rw [hws c]
    split
    · exact removeWaiter_sorted _ hs
    · exact hs

end

/-! ### The queue (R46, R47, R50) -/

/-- A port that a turn brings to its transfer has found the predicate true (R158). -/
theorem own_xfer {i : Instr} {s : State} {q : Port} (h : Own i s q) (hsp : isSpsc i = false) (hq : q.st = .xfer) :
    q = s.cur ∨ ((∃ alt k, s.sel.act = .move alt k) ∧ s.pred (opDir i.op) = true ∧ q.op = s.cur.op) := by
  cases h
  case stall => exact .inl rfl
  case issue cw st ha hs hf => rcases firstState_cases hf with rfl | rfl | rfl <;> simp at hq
  case issueIllegal | accept | fail | succeed | grant | elapsed => simp at hq
  case go st alt k ha hg =>
    cases hg
    case pred hi hs hg => exact .inr ⟨⟨alt, k, ha⟩, hg, rfl⟩
    case check => simp_all  -- steps of the other variant
    all_goals simp at hq
  case read alt k v st ha hd hs hst hv => rcases hst with ⟨_, rfl⟩ | ⟨_, rfl⟩ <;> simp at hq

/-- No two ports hold the lock (R45). -/
theorem holdsLock_unique {s : State} (hM : s.MpmcInv) {p r : Nat} (hp : (s.portAt p).st.holdsLock = true)
    (hr : (s.portAt r).st.holdsLock = true) : p = r :=
  Option.some.inj (((hM.lock p).mpr hp).symm.trans ((hM.lock r).mpr hr))

section
variable {i : Instr} {s t : State} (hM : s.MpmcInv) (hop : (∀ cw, s.sel.act ≠ .issue cw) → i.op = s.cur.op)
  (hcfg : t.cfg = s.cfg) (hq : QueueMove i s t) (hsp : isSpsc i = false)
include hM hop hcfg hq hsp

/-- `size`, the two indices and the slots after a turn. -/
theorem moved_mpmcQueue : t.size ≤ t.cfg.capacity ∧ (t.ri + t.size) % t.cfg.capacity = t.wi ∧
    Filled t.storage t.cfg t.ri t.size := by
  have hf : Filled s.storage s.cfg s.ri s.size := hM.holds
  have hpred : ∀ {alt k}, s.sel.act = .move alt k → s.cur.st = .xfer → s.pred (opDir i.op) = true :=
    fun ha hs => hop (by simp [ha]) ▸ hM.transfer s.me hs
  rw [hcfg]
  cases hq
  case write | pAdv | cAdv => simp_all  -- steps of the other variant
  case keep hn hw hr hz hm =>
    rw [hw, hr, hz, hm]
    exact ⟨hM.size_le, hM.index, hf⟩
  case doEnq alt k ha hi hd hs hl hw hr hz hm ht =>
    have hroom : s.size < s.cfg.capacity := by simpa [State.pred, hd] using hpred ha hs
    rw [hw, hr, hz, hm]
    refine ⟨hroom, ?_, (hf.putSlot _ _).snoc (by rw [hM.index, slotAt_putSlot_same]; rfl)⟩
    rw [adv, ← hM.index, Nat.mod_add_mod, Nat.add_assoc]
  case doDeq alt k ha hi hd hs hl hw hr hz hm ht =>
    have hsome : 0 < s.size := by simpa [State.pred, hd] using hpred ha hs
    have hsize : s.size - 1 + 1 = s.size := Nat.sub_add_cancel hsome
    rw [hw, hr, hz, hm]
    refine ⟨Nat.le_trans (Nat.sub_le _ _) hM.size_le, ?_, Filled.tail (by rwa [hsize])⟩
    rw [adv_add, hsize, hM.index]

theorem moved_transfer (hw : WaitMove i s t) (hown : Own i s (t.portAt s.me)) (p : Nat)
    (hp : (t.portAt p).st = .xfer) : t.pred (opDir (t.portAt p).op) = true := by
  have hother : p ≠ s.me → t.portAt p = s.portAt p := by
    intro hne
    rcases hw.other hne with e | ⟨d, _, e⟩
    · exact e
    · simp [e] at hp
  have hnone : s.cur.st = .xfer → (t.portAt s.me).st = .rel → False := by
    intro hs ht
    by_cases hne : p = s.me
    · simp [hne, ht] at hp
    · rw [hother hne] at hp
      exact hne (holdsLock_unique hM (by rw [hp]; rfl) (by rw [show (s.portAt s.me).st = .xfer from hs]; rfl))
  cases hq
  case write | pAdv | cAdv => simp_all  -- steps of the other variant
  case doEnq hs _ _ _ _ _ ht => exact (hnone hs ht).elim
  case doDeq hs _ _ _ _ _ ht => exact (hnone hs ht).elim
  case keep hn hwi hri hz hm =>
    have hpred : ∀ d, t.pred d = s.pred d := by intro d; cases d <;> simp [State.pred, hz, hcfg]
    rw [hpred]
    by_cases hne : p = s.me
    · subst hne
      rcases own_xfer hown hsp hp with e | ⟨⟨alt, k, ha⟩, hg, e⟩
      · rw [e] at hp ⊢
        exact hM.transfer s.me hp
      · rwa [e, ← hop (by simp [ha])]
    · rw [hother hne] at hp ⊢
      exact hM.transfer p hp

end

/-! ### A turn -/

theorem moved_mpmcInv {i : Instr} {s t : State} (hI : s.Inv) (hv : s.cfg.variant = .mpmc) (hc : Coherent i s)
    (hcfg : t.cfg = s.cfg) (hnow : t.now = s.now) (hown : Own i s (t.portAt s.me)) (hw : WaitMove i s t)
    (hl : LockMove s t) (hq : QueueMove i s t) : t.MpmcInv := by
  have hM := hI.mpmc hv
  have hsp : isSpsc i = false := (kind_variant hc).2 hv
  have hp : ∀ p, (t.portAt p).MpmcOk t.cfg t.now := by
    intro p
    rw [hcfg, hnow]
    by_cases e : p = s.me
    · exact e ▸ own_mpmcOk hI hv hc hown
    · exact other_mpmcOk hM hw e
  obtain ⟨hsize, hindex, hfilled⟩ := moved_mpmcQueue hM hc.op_eq hcfg hq hsp
  exact ⟨fun p => (hp p).state, fun p => (hp p).unreserved, fun p => (hp p).nonblocking, fun p => (hp p).timed,
    moved_owner_iff hM hw hl, moved_mem_waitSet hM hw hc.op_eq, moved_waitSet_sorted hM hw, hsize, hindex,
    moved_transfer hM hc.op_eq hcfg hq hsp hw hown, hfilled, fun p => (hp p).times⟩

end Sys2Proof.Machine
end

section
/-! SUPPORT. Every step that is not a `RESET` leaves a consistent state consistent: the ranges and the responses after a
turn, then the turn and the tick as a whole. -/

namespace Sys2Proof.Machine

/-! ### Ranges (R8, R20, R21, R30) -/

/-- The operands and the element of a port fit their widths. -/
abbrev Port.InRange (c : Config) (q : Port) : Prop :=
  q.data < 2 ^ c.dw ∧ q.timeout < 2 ^ c.tow ∧ q.rspData < 2 ^ c.dw

theorem latch_inRange {c : Config} {q : Port} (h : q.InRange c) {d tmo : Nat} (hd : d < 2 ^ c.dw)
    (ht : tmo < 2 ^ c.tow) (v : Variant) (op : Op) (now seq : Nat) : (latch v op d tmo now seq q).InRange c := by
  obtain ⟨_, ht', hr⟩ := h
  cases v
  · exact ⟨hd, ht', hr⟩
  · exact ⟨hd, ht, hr⟩

theorem own_inRange {i : Instr} {s : State} {q : Port} (hT : s.Typed) (hc : Coherent i s) (h : Own i s q) :
    q.InRange s.cfg := by
  have hcur : s.cur.InRange s.cfg := ⟨hT.data_lt s.me, hT.timeout_lt s.me, hT.rspData_lt s.me⟩
  cases h
  case issue cw st ha hs hf => exact latch_inRange hcur (hc.data_lt ha) (hc.timeout_lt ha) _ _ _ _
  case issueIllegal cw ha hs hf => exact latch_inRange hcur (hc.data_lt ha) (hc.timeout_lt ha) _ _ _ _
  case read alt k v st ha hd hs hst hv => exact ⟨hcur.1, hcur.2.1, (hT.storage_range _ (mem_of_slotAt hv)).2⟩
  all_goals exact hcur

/-- The two indices stay in range, and a store keeps the listing canonical and in range. -/
theorem moved_queue_typed {i : Instr} {s t : State} (hT : s.Typed) (hq : QueueMove i s t) :
    t.wi < s.cfg.capacity ∧ t.ri < s.cfg.capacity ∧ Memory.wf t.storage ∧
      ∀ e ∈ t.storage, e.1 < s.cfg.capacity ∧ e.2 < 2 ^ s.cfg.dw := by
  have hadv : ∀ j, adv s.cfg j < s.cfg.capacity := fun j => adv_lt s.cfg j hT.legal.1
  have hput : ∀ e ∈ putSlot s.storage s.wi s.cur.data, e.1 < s.cfg.capacity ∧ e.2 < 2 ^ s.cfg.dw := by
    intro e he
    rcases mem_putSlot he with rfl | he
    · exact ⟨hT.wi_lt, hT.data_lt s.me⟩
    · exact hT.storage_range e he
  cases hq
  case keep hn hw hr hz hm => exact hw ▸ hr ▸ hm ▸ ⟨hT.wi_lt, hT.ri_lt, hT.storage_wf, hT.storage_range⟩
  case write hl hw hr hz hm =>
    rw [hw, hr, hm]
    exact ⟨hT.wi_lt, hT.ri_lt, putSlot_wf hT.storage_wf _ _, hput⟩
  case pAdv hw hr hz hm =>
    rw [hw, hr, hm]
    exact ⟨hadv _, hT.ri_lt, hT.storage_wf, hT.storage_range⟩
  case cAdv hw hr hz hm =>
    rw [hw, hr, hm]
    exact ⟨hT.wi_lt, hadv _, hT.storage_wf, hT.storage_range⟩
  case doEnq hl hw hr hz hm ht =>
    rw [hw, hr, hm]
    exact ⟨hadv _, hT.ri_lt, putSlot_wf hT.storage_wf _ _, hput⟩
  case doDeq hl hw hr hz hm ht =>
    rw [hw, hr, hm]
    exact ⟨hT.wi_lt, hadv _, hT.storage_wf, hT.storage_range⟩

theorem moved_typed {i : Instr} {s t : State} (hT : s.Typed) (hc : Coherent i s) (hcfg : t.cfg = s.cfg)
    (hlen : t.ports.length = s.ports.length) (hown : Own i s (t.portAt s.me)) (hw : WaitMove i s t)
    (hq : QueueMove i s t) : t.Typed := by
  have hports : ∀ p, (t.portAt p).InRange s.cfg := by
    intro p
    have hp : (s.portAt p).InRange s.cfg := ⟨hT.data_lt p, hT.timeout_lt p, hT.rspData_lt p⟩
    by_cases e : p = s.me
    · exact e ▸ own_inRange hT hc hown
    · rcases hw.other e with e | ⟨d, _, e⟩ <;> rw [e] <;> exact hp
  obtain ⟨hwi, hri, hwf, hrange⟩ := moved_queue_typed hT hq
  rw [← hcfg] at hwi hri hrange hports
  exact ⟨hcfg ▸ hT.legal, hcfg ▸ hlen.trans hT.port_count, hwi, hri, hwf, hrange, fun p => (hports p).1,
    fun p => (hports p).2.1, fun p => (hports p).2.2⟩

/-! ### Responses (R97, R242) -/

theorem fails_allowed {i : Instr} {s : State} {c : Cause} (h : Fails i s c) :
    c ≠ .none ∧ causeAllowed i c = true := by
  cases h
  case full hi hd _ _ | empty hi hd _ _ => cases i <;> simp_all [isSpsc, Instr.op, causeAllowed]
  case lockBusy hi ht _ _ | expired hi ht _ _ | late hi ht _ _ | waited hi ht _ _ _ =>
    cases i <;> simp_all [isMpmc, Instr.op, causeAllowed]
  case pred hi ht _ _ => cases i <;> simp_all [isMpmc, Instr.op, causeAllowed, failCause]

theorem success_allowed {i : Instr} (h : isSpsc i = true ∨ isMpmc i = true) : causeAllowed i .none = true := by
  cases i <;> simp_all [isSpsc, isMpmc, causeAllowed]

theorem illegal_allowed {i : Instr} (h : firstState i = none) : causeAllowed i .illegalOp = true := by
  cases i <;> simp_all [firstState, causeAllowed]

/-- What the command of a turn can end with depends on the operation code latched, not on the operands. -/
theorem Coherent.causeAllowed_latched {i : Instr} {s : State} (hc : Coherent i s) {q : Port} (hop : q.op = i.op) (c : Cause) :
    causeAllowed (decodeFields s.cfg.variant s.me q.op q.data q.timeout) c = causeAllowed i c := by
  obtain ⟨op, d, tmo, rfl⟩ := hc.fields
  rw [hop, decodeFields_op]
  exact causeAllowed_fields _ _ _ _ _ _ _ _

/-- The response of the port in turn, if its command has completed. -/
theorem own_response {i : Instr} {s : State} {q : Port} (hR : s.Responses) (hc : Coherent i s) (h : Own i s q)
    (hq : q.st = .done) : (q.rspOk = true ↔ q.rspCause = .none) ∧
      causeAllowed (decodeFields s.cfg.variant s.me q.op q.data q.timeout) q.rspCause = true := by
  have hmove : ∀ {alt k}, s.sel.act = .move alt k → s.cur.op = i.op := fun ha => (hc.op_eq (by simp [ha])).symm
  cases h
  case stall => exact ⟨hR.ok_iff s.me hq, hR.allowed s.me hq⟩
  case issue cw st ha hs hf => exact absurd hq (firstState_ne_done hf)
  case issueIllegal cw ha hs hf =>
    exact ⟨by simp, (hc.causeAllowed_latched (latch_op _ _ _ _ _ _ _) _).trans (illegal_allowed hf)⟩
  case fail c alt k ha hf =>
    obtain ⟨hne, hal⟩ := fails_allowed hf
    exact ⟨by simp [hne], (hc.causeAllowed_latched (q := s.cur.completed false c) (hmove ha) c).trans hal⟩
  case succeed alt k ha hs =>
    exact ⟨by simp, (hc.causeAllowed_latched (q := s.cur.completed true .none) (hmove ha) .none).trans
      (success_allowed (hs.imp And.left And.left))⟩
  case go st alt k ha hg => cases hg <;> simp at hq
  case accept | grant | elapsed => simp at hq
  case read alt k v st ha hd hs hst hv => rcases hst with ⟨_, rfl⟩ | ⟨_, rfl⟩ <;> simp at hq

theorem moved_responses {i : Instr} {s t : State} (hR : s.Responses) (hc : Coherent i s) (hcfg : t.cfg = s.cfg)
    (hown : Own i s (t.portAt s.me)) (hw : WaitMove i s t) : t.Responses := by
  have hports : ∀ p, (t.portAt p).st = .done → ((t.portAt p).rspOk = true ↔ (t.portAt p).rspCause = .none) ∧
      causeAllowed (t.latched p) (t.portAt p).rspCause = true := by
    intro p hp
    rw [State.latched, hcfg]
    by_cases e : p = s.me
    · subst e
      exact own_response hR hc hown hp
    · rcases hw.other e with e | ⟨d, _, e⟩
      · rw [e] at hp ⊢
        exact ⟨hR.ok_iff p hp, hR.allowed p hp⟩
      · simp [e] at hp
  exact ⟨fun p hp => (hports p hp).1, fun p hp => (hports p hp).2⟩

/-! ### A turn -/

/-- A consistent state lists no waiter beyond its ports, and the port in turn only where it waits. -/
theorem inv_waitSet {s : State} (hI : s.Inv) {c : Condition} {w : Nat} (hw : w ∈ s.waitSet c) :
    w < s.ports.length ∧ (s.portAt w).st = .cwait := by
  cases hv : s.cfg.variant
  case spsc =>
    obtain ⟨_, hrtr, hrtw, _⟩ := (hI.spsc hv).no_mpmc_state
    cases c <;> simp [State.waitSet, hrtr, hrtw] at hw
  case mpmc =>
    have hs := (((hI.mpmc hv).waits c w).mp hw).1
    refine ⟨Nat.lt_of_not_le fun hle => ?_, hs⟩
    simp [portAt_of_length_le s hle, Port.reset] at hs

/-- On an SPSC machine a turn changes neither another port nor a wait set. -/
theorem WaitMove.of_not_mpmc {i : Instr} {s t : State} (h : WaitMove i s t) (hm : isMpmc i = false) :
    (∀ r, r ≠ s.me → t.portAt r = s.portAt r) ∧ ∀ c, t.waitSet c = s.waitSet c := by
  cases h
  case same ho hw hc => exact ⟨ho, hw⟩
  all_goals simp_all  -- steps of the other variant

theorem moved_now {i : Instr} {s t : State} (h : Moved i s t) : t.now = s.now := by
  cases h <;> simp [issued, enterWait, leaveWait]

/-- Every turn of every command keeps consistency. -/
theorem moved_inv {i : Instr} {s t : State} (hI : s.Inv) (hc : Coherent i s) (h : Moved i s t) : t.Inv := by
  have hme : s.me < s.ports.length := hI.typed.port_count ▸ hc.me_lt
  have hcfg := moved_cfg h
  have hown := moved_own hme h (fun c w hw => (inv_waitSet hI hw).1) (fun c hw => (inv_waitSet hI hw).2)
  have hw := moved_wait h hme fun c w hw => (inv_waitSet hI hw).1
  have hq := moved_queue h hme
  refine ⟨moved_typed hI.typed hc hcfg (moved_length h) hown hw hq, moved_responses hI.responses hc hcfg hown hw,
    fun hv => ?_, fun hv => ?_⟩
  · rw [hcfg] at hv
    obtain ⟨ho, hws⟩ := hw.of_not_mpmc ((kind_variant hc).1 hv)
    exact moved_spscInv hI hv hc h hme ho hown hws
  · rw [hcfg] at hv
    exact moved_mpmcInv hI hv hc hcfg (moved_now h) hown hw (moved_lock h hme ((kind_variant hc).2 hv)) hq

/-! ### A tick -/

/-- A tick that wraps no time keeps the times of every port (R293). -/
theorem timesOk_tick {c : Config} {now : Nat} {q : Port} (h : q.TimesOk c now)
    (hw : q.inFlight = true → now + 1 - q.start < 2 ^ c.tw - 2 ^ c.tow) : q.TimesOk c (now + 1) where
  start_le hs := Nat.le_succ_of_le (h.start_le hs)
  unwrapped := hw
  granted hs := ⟨(h.granted hs).1, Nat.le_succ_of_le (h.granted hs).2⟩
  budget ht hs :=
    have ⟨h1, h2, h3⟩ := h.budget ht hs
    ⟨h1, Nat.le_succ_of_le h2, h3⟩
  late ht hr hs hok := Nat.le_succ_of_le (h.late ht hr hs hok)

theorem unwrapped_of_tick {s : State} (hv : s.cfg.variant = .mpmc) (h : s.tickWraps = false) (p : Nat)
    (hf : (s.portAt p).inFlight = true) : s.now + 1 - (s.portAt p).start < 2 ^ s.cfg.tw - 2 ^ s.cfg.tow := by
  have hp : p < s.ports.length := by
    refine Nat.lt_of_not_le fun hle => ?_
    rw [portAt_of_length_le s hle] at hf
    cases hf
  have hmem : s.portAt p ∈ s.ports := by simp [State.portAt, hp]
  have hall : ∀ q ∈ s.ports, q.inFlight = true → ¬ 2 ^ s.cfg.tw - 2 ^ s.cfg.tow ≤ s.now + 1 - q.start := by
    simpa [State.tickWraps, hv] using h
  exact Nat.lt_of_not_le (hall _ hmem hf)

theorem tick_inv {s t : State} (hI : s.Inv) (h : tick s = .next t) : t.Inv := by
  obtain ⟨hwrap, rfl⟩ := tick_next h
  have hw : ∀ c, ({ s with now := s.now + 1 } : State).waitSet c = s.waitSet c := by intro c; cases c <;> rfl
  have hp : ∀ d, ({ s with now := s.now + 1 } : State).pred d = s.pred d := by intro d; cases d <;> rfl
  obtain ⟨⟨t1, t2, t3, t4, t5, t6, t7, t8, t9⟩, ⟨r1, r2⟩, hspsc, hmpmc⟩ := hI
  refine ⟨⟨t1, t2, t3, t4, t5, t6, t7, t8, t9⟩, ⟨r1, r2⟩, fun hv => ?_, fun hv => ?_⟩
  · obtain ⟨c1, c2, c3, c4, c5, c6, c7, c8⟩ := hspsc hv
    exact ⟨c1, c2, c3, c4, c5, c6, c7, c8⟩
  · obtain ⟨c1, c2, c3, c4, c5, c6, c7, c8, c9, c10, c11, c12⟩ := hmpmc hv
    exact ⟨c1, c2, c3, c4, c5, fun c => (hw c).symm ▸ c6 c, fun c => (hw c).symm ▸ c7 c, c8, c9,
      fun p hs => (hp _).trans (c10 p hs), c11, fun p => timesOk_tick (c12 p) (unwrapped_of_tick (s := s) hv hwrap p)⟩

/-! ### A step -/

/-- The state in which a port takes its turn, seen from the step: consistent, and the command is the turn's own. -/
theorem turn_coherent {s : State} (hI : s.Inv) {i : Instr} {p : Nat} {a : Act}
    (hd : decode s.cfg p (s.takeEvent.withTurn p a).commandWord = .ok i) :
    (s.takeEvent.withTurn p a).Inv ∧ Coherent i (s.takeEvent.withTurn p a) :=
  ⟨inv_withTurn (inv_takeEvent hI) p a, coherent_of_decode (inv_takeEvent hI) hd⟩

/-- Every step that is not a `RESET` keeps consistency. -/
theorem step_inv {s t : State} (hI : s.Inv) (h : step s = .next t) (hr : s.nextEvent ≠ .reset) : t.Inv := by
  rcases (step_next h).2 with ⟨_, ht⟩ | ⟨he, _⟩ | ⟨p, a, i, _, hd, hx⟩
  · exact tick_inv (inv_takeEvent hI) ht
  · exact absurd he hr
  · obtain ⟨hI', hc⟩ := turn_coherent hI hd
    exact moved_inv hI' hc (exec_moved hx)

end Sys2Proof.Machine
end

section
/-! SUPPORT. The queue as a list (R41, R50, R70, R71): a step appends what enters and takes what leaves from the front, hence
so does a run of any length; from an empty queue nothing leaves but what entered (R72). -/

namespace Sys2Proof.Machine

/-! ### Contents and count -/

theorem count_spsc {s : State} (hv : s.cfg.variant = .spsc) : s.count = indexGap s.cfg.capacity s.wi s.ri := by
  rw [State.count, hv]
  exact spscCount_eq s

theorem count_mpmc {s : State} (hv : s.cfg.variant = .mpmc) : s.count = s.size := by
  rw [State.count, hv]

/-- Every slot counted holds a value (R41, R44, R50). -/
theorem inv_filled {s : State} (hI : s.Inv) : Filled s.storage s.cfg s.ri s.count := by
  cases hv : s.cfg.variant
  case spsc =>
    rw [count_spsc hv]
    exact (hI.spsc hv).holds
  case mpmc =>
    rw [count_mpmc hv]
    exact (hI.mpmc hv).holds

theorem length_contents {s : State} (hI : s.Inv) : s.contents.length = s.count := length_held (inv_filled hI)

theorem contents_of_count_zero {s : State} (h : s.count = 0) : s.contents = [] := by
  rw [contents_held, h]
  rfl

/-- The output `empty` is 1 when no element is held (R34). -/
theorem empty_of_count_zero {s : State} (hI : s.Inv) (h : s.count = 0) : s.empty = true := by
  cases hv : s.cfg.variant
  case spsc =>
    have hi := add_indexGap hI.typed.wi_lt hI.typed.ri_lt
    rw [← count_spsc hv, h, Nat.add_zero, Nat.mod_eq_of_lt hI.typed.ri_lt] at hi
    simp [State.empty, hv, State.spscEmpty, hi]
  case mpmc =>
    rw [count_mpmc hv] at h
    simp [State.empty, hv, State.mpmcEmpty, h]

/-! ### What enters and leaves at a turn -/

/-- `State.entering`, read off the state in which the turn is taken. -/
def State.entersNow (s : State) : Option Nat :=
  match s.sel.act, s.cfg.variant with
  | .move _ _, .spsc => if s.me = portP ∧ s.cur.st = .adv then some s.cur.data else none
  | .move _ _, .mpmc => if s.cur.st = .xfer ∧ opDir s.cur.op = .enq then some s.cur.data else none
  | _, _ => none

/-- `State.leaving`, read off the state in which the turn is taken. -/
def State.leavesNow (s : State) : Option Nat :=
  match s.sel.act, s.cfg.variant with
  | .move _ _, .spsc => if s.me = portC ∧ s.cur.st = .adv then some s.cur.rspData else none
  | .move _ _, .mpmc => if s.cur.st = .xfer ∧ opDir s.cur.op = .deq then slotAt s.storage s.ri else none
  | _, _ => none

theorem entering_of_turn {s : State} {p : Nat} {a : Act} (he : s.nextEvent = .turn p a) :
    s.entering = (s.takeEvent.withTurn p a).entersNow := by
  simp only [State.entering, he, State.entersNow, withTurn_sel, withTurn_cfg, takeEvent_cfg]
  cases a with
  | issue cw => rfl
  | accept => rfl
  | move alt wake => cases s.cfg.variant <;> rfl

theorem leaving_of_turn {s : State} {p : Nat} {a : Act} (he : s.nextEvent = .turn p a) :
    s.leaving = (s.takeEvent.withTurn p a).leavesNow := by
  simp only [State.leaving, he, State.leavesNow, withTurn_sel, withTurn_cfg, takeEvent_cfg]
  cases a with
  | issue cw => rfl
  | accept => rfl
  | move alt wake => cases s.cfg.variant <;> rfl

section
variable {s : State} {alt : Bool} {k : Nat} (ha : s.sel.act = .move alt k)
include ha

theorem entersNow_spsc (hv : s.cfg.variant = .spsc) :
    s.entersNow = if s.me = portP ∧ s.cur.st = .adv then some s.cur.data else none := by
  simp only [State.entersNow, ha, hv]

theorem leavesNow_spsc (hv : s.cfg.variant = .spsc) :
    s.leavesNow = if s.me = portC ∧ s.cur.st = .adv then some s.cur.rspData else none := by
  simp only [State.leavesNow, ha, hv]

theorem entersNow_mpmc (hv : s.cfg.variant = .mpmc) :
    s.entersNow = if s.cur.st = .xfer ∧ opDir s.cur.op = .enq then some s.cur.data else none := by
  simp only [State.entersNow, ha, hv]

theorem leavesNow_mpmc (hv : s.cfg.variant = .mpmc) :
    s.leavesNow = if s.cur.st = .xfer ∧ opDir s.cur.op = .deq then slotAt s.storage s.ri else none := by
  simp only [State.leavesNow, ha, hv]

end

theorem entersNow_leavesNow_of_not_move {s : State} (ha : ∀ alt k, s.sel.act ≠ .move alt k) :
    s.entersNow = none ∧ s.leavesNow = none := by
  cases hact : s.sel.act
  case move alt k => exact absurd hact (ha alt k)
  all_goals simp [State.entersNow, State.leavesNow, hact]

/-! ### A turn -/

section
variable {i : Instr} {s t : State} (hI : s.Inv) (hc : Coherent i s) (hcfg : t.cfg = s.cfg)
include hI hc

/-- Nothing enters or leaves but at the linearization points (R70). -/
theorem entersNow_leavesNow_of_not_transfers
    (hn : ∀ alt k, s.sel.act = .move alt k → transfers i s.cur.st = false) :
    s.entersNow = none ∧ s.leavesNow = none := by
  by_cases hact : ∃ alt k, s.sel.act = .move alt k
  · obtain ⟨alt, k, ha⟩ := hact
    have ht := hn alt k ha
    have hkind := kind_of_inflight hI hc (by simp [ha])
    cases hv : s.cfg.variant
    case spsc =>
      have hs : s.cur.st ≠ .adv := fun e => by
        simp [transfers, e, (hkind (by simp [Port.inFlight, e])).1 hv] at ht
      simp [entersNow_spsc ha hv, leavesNow_spsc ha hv, hs]
    case mpmc =>
      have hs : s.cur.st ≠ .xfer := fun e => by
        simp [transfers, e, (hkind (by simp [Port.inFlight, e])).2 hv] at ht
      simp [entersNow_mpmc ha hv, leavesNow_mpmc ha hv, hs]
  · exact entersNow_leavesNow_of_not_move fun alt k ha => hact ⟨alt, k, ha⟩

include hcfg

theorem moved_contents_spsc (hv : s.cfg.variant = .spsc) (hq : QueueMove i s t) :
    s.contents ++ s.entersNow.toList = s.leavesNow.toList ++ t.contents := by
  have hS := hI.spsc hv
  have hwi := hI.typed.wi_lt
  have hri := hI.typed.ri_lt
  have hmpmc : isMpmc i = false := (kind_variant hc).1 hv
  have hport : ∀ {alt k}, s.sel.act = .move alt k → s.cur.inFlight = true →
      (opDir i.op = .enq → s.me = portP) ∧ (opDir i.op = .deq → s.me = portC) :=
    fun ha hf => spsc_port_of_dir hS hc (by simp [ha]) hf
  rw [contents_held, contents_held, count_spsc hv, count_spsc (hcfg ▸ hv), hcfg]
  cases hq
  case doEnq | doDeq => simp_all  -- steps of the other variant
  case keep hn hw hr hz hm =>
    obtain ⟨he, hl⟩ := entersNow_leavesNow_of_not_transfers hI hc hn
    simp [he, hl, hw, hr, hm]
  case write alt k ha hi hd hs hl hw hr hz hm =>
    have hput := held_putSlot s.storage s.cfg s.cur.data hri (indexGap_lt hwi hri)
    rw [add_indexGap hwi hri] at hput
    simp [entersNow_spsc ha hv, leavesNow_spsc ha hv, hs, hw, hr, hm, hput]
  case pAdv alt k ha hi hd hs hw hr hz hm =>
    have hme : s.me = portP := (hport ha (by simp [Port.inFlight, hs])).1 hd
    have hcur : s.cur = s.portAt portP := by rw [State.cur, hme]
    rw [hw, hr, hm, indexGap_adv_wi hwi hri (hS.guard_P (.inr (hcur ▸ hs))), held_snoc, add_indexGap hwi hri,
      hS.written (hcur ▸ hs), ← hcur]
    simp [entersNow_spsc ha hv, leavesNow_spsc ha hv, hs, hme, portP, portC]
  case cAdv alt k ha hi hd hs hw hr hz hm =>
    have hme : s.me = portC := (hport ha (by simp [Port.inFlight, hs])).2 hd
    have hcur : s.cur = s.portAt portC := by rw [State.cur, hme]
    rw [hw, hr, hm, ← indexGap_adv_ri hwi hri (hS.guard_C (.inr (hcur ▸ hs))), held_cons, Nat.mod_eq_of_lt hri,
      hS.read (hcur ▸ hs), ← hcur]
    simp [entersNow_spsc ha hv, leavesNow_spsc ha hv, hs, hme, portP, portC]

theorem moved_contents_mpmc (hv : s.cfg.variant = .mpmc) (hq : QueueMove i s t) :
    s.contents ++ s.entersNow.toList = s.leavesNow.toList ++ t.contents := by
  have hM := hI.mpmc hv
  have hri := hI.typed.ri_lt
  have hspsc : isSpsc i = false := (kind_variant hc).2 hv
  rw [contents_held, contents_held, count_mpmc hv, count_mpmc (hcfg ▸ hv), hcfg]
  cases hq
  case write | pAdv | cAdv => simp_all  -- steps of the other variant
  case keep hn hw hr hz hm =>
    obtain ⟨he, hl⟩ := entersNow_leavesNow_of_not_transfers hI hc hn
    simp [he, hl, hr, hz, hm]
  case doEnq alt k ha hi hd hs hl hw hr hz hm ht =>
    rw [hc.op_eq (by simp [ha])] at hd
    have hroom : s.size < s.cfg.capacity := by
      simpa [State.pred, show opDir (s.portAt s.me).op = .enq from hd] using hM.transfer s.me hs
    have hput := held_putSlot s.storage s.cfg s.cur.data hri hroom
    rw [hM.index] at hput
    rw [hr, hz, hm, held_snoc, hM.index, hput, slotAt_putSlot_same]
    simp [entersNow_mpmc ha hv, leavesNow_mpmc ha hv, hs, hd]
  case doDeq alt k ha hi hd hs hl hw hr hz hm ht =>
    rw [hc.op_eq (by simp [ha])] at hd
    have hsome : 0 < s.size := by
      simpa [State.pred, show opDir (s.portAt s.me).op = .deq from hd] using hM.transfer s.me hs
    have hcons := held_cons s.storage s.cfg s.ri (s.size - 1)
    rw [Nat.sub_add_cancel hsome, Nat.mod_eq_of_lt hri] at hcons
    rw [hr, hz, hm, hcons]
    simp [entersNow_mpmc ha hv, leavesNow_mpmc ha hv, hs, hd]

end

/-- A turn appends what enters and takes what leaves from the front (R41, R50, R70). -/
theorem moved_contents {i : Instr} {s t : State} (hI : s.Inv) (hc : Coherent i s) (h : Moved i s t) :
    s.contents ++ s.entersNow.toList = s.leavesNow.toList ++ t.contents := by
  have hq := moved_queue h (hI.typed.port_count ▸ hc.me_lt)
  cases hv : s.cfg.variant
  case spsc => exact moved_contents_spsc hI hc (moved_cfg h) hv hq
  case mpmc => exact moved_contents_mpmc hI hc (moved_cfg h) hv hq

/-! ### A step -/

theorem tick_contents {s t : State} (h : tick s = .next t) : t.contents = s.contents := by
  obtain ⟨_, rfl⟩ := tick_next h
  rfl

theorem entering_leaving_of_tick {s : State} (he : s.nextEvent = .tick) : s.entering = none ∧ s.leaving = none := by
  simp only [State.entering, State.leaving, he, and_self]

/-- The same for every step that is not a `RESET`. -/
theorem step_contents {s t : State} (hI : s.Inv) (h : step s = .next t) (hr : s.nextEvent ≠ .reset) :
    s.contents ++ s.entering.toList = s.leaving.toList ++ t.contents := by
  rcases (step_next h).2 with ⟨he, ht⟩ | ⟨he, _⟩ | ⟨p, a, i, he, hd, hx⟩
  · obtain ⟨hen, hle⟩ := entering_leaving_of_tick he
    simp [hen, hle, tick_contents ht]
  · exact absurd he hr
  · obtain ⟨hI', hc⟩ := turn_coherent hI hd
    have hm := moved_contents hI' hc (exec_moved hx)
    rwa [← entering_of_turn he, ← leaving_of_turn he] at hm

/-! ### A run -/

/-- A run of `k + 1` steps is a step and a run of `k`, and what is observed of it splits so. -/
theorem run_succ {k : Nat} {s t : State} (h : Sys2Proof.core.run (k + 1) s = .next t) :
    ∃ u, step s = .next u ∧ Sys2Proof.core.run k u = .next t ∧
      State.entered (k + 1) s = s.entering.toList ++ State.entered k u ∧
      State.left (k + 1) s = s.leaving.toList ++ State.left k u ∧
      (State.noReset (k + 1) s → s.nextEvent ≠ .reset ∧ State.noReset k u) := by
  cases hs : step s with
  | next u =>
    have hcore : Sys2Proof.core.step s = .next u := hs
    simp only [Host.Core.run, hcore] at h
    exact ⟨u, rfl, h, by simp only [State.entered, hs], by simp only [State.left, hs], fun hn => by
      simpa only [State.noReset, hs] using hn⟩
  | fault f =>
    have hcore : Sys2Proof.core.step s = .fault f := hs
    simp [Host.Core.run, hcore] at h
  | refused r =>
    have hcore : Sys2Proof.core.step s = .refused r := hs
    simp [Host.Core.run, hcore] at h

/-- Every run without a `RESET` keeps consistency. -/
theorem run_inv {k : Nat} {s t : State} (hI : s.Inv) (hn : State.noReset k s) (h : Sys2Proof.core.run k s = .next t) :
    t.Inv := by
  induction k generalizing s with
  | zero =>
    cases h
    exact hI
  | succ k ih =>
    obtain ⟨u, hs, hu, _, _, hnr⟩ := run_succ h
    exact ih (step_inv hI hs (hnr hn).1) (hnr hn).2 hu

/-- Settles O40: by induction on the number of steps, from what one step does to the contents. -/
theorem fifo : Obligations.Fifo := by
  intro k
  induction k with
  | zero =>
    intro s t _ _ h
    cases h
    simp [State.entered, State.left]
  | succ k ih =>
    intro s t hI hn h
    obtain ⟨u, hs, hu, hen, hle, hnr⟩ := run_succ h
    obtain ⟨hr, hn'⟩ := hnr hn
    calc s.contents ++ State.entered (k + 1) s
        = (s.contents ++ s.entering.toList) ++ State.entered k u := by rw [hen, List.append_assoc]
      _ = s.leaving.toList ++ (u.contents ++ State.entered k u) := by rw [step_contents hI hs hr, List.append_assoc]
      _ = s.leaving.toList ++ (State.left k u ++ t.contents) := by rw [ih u t (step_inv hI hs hr) hn' hu]
      _ = State.left (k + 1) s ++ t.contents := by rw [hle, List.append_assoc]

/-- Settles O41: from an empty queue, what entered is what left followed by what is held at the end. -/
theorem conservation : Obligations.Conservation := by
  intro k s t hI hn h hzero
  have hsplit : State.entered k s = State.left k s ++ t.contents := by
    simpa [contents_of_count_zero hzero] using fifo k s t hI hn h
  refine ⟨⟨t.contents, hsplit.symm⟩, fun hlen => ?_⟩
  have hT := run_inv hI hn h
  refine empty_of_count_zero hT ?_
  rw [hsplit, List.length_append, length_contents hT] at hlen
  omega

end Sys2Proof.Machine
end

section
/-! SUPPORT. The packed words read back (R95, R101): command words both ways, the opcode map as the decoder's rows by
`w % 8` (R98), and the fields of a response word (R97, R241). -/

namespace Sys2Proof

/-! ### Command words -/

/-- Every command well formed at a port is the one its own fields decode to there (R98, R101). -/
theorem decodeFields_of_wellFormed {c : Config} {p : Nat} {i : Instr} (h : i.wellFormed c p = true) :
    decodeFields c.variant p i.op i.data i.timeout = i := by
  cases i with
  | spscEnq d t => exact Laws.FieldsDecode.spscEnq d t c p h
  | spscDeq d t => exact Laws.FieldsDecode.spscDeq d t c p h
  | mpmcEnq d t => exact Laws.FieldsDecode.mpmcEnq d t c p h
  | mpmcDeq d t => exact Laws.FieldsDecode.mpmcDeq d t c p h
  | mpmcEnqt d t => exact Laws.FieldsDecode.mpmcEnqt d t c p h
  | mpmcDeqt d t => exact Laws.FieldsDecode.mpmcDeqt d t c p h
  | reserved low d t => exact Laws.FieldsDecode.reserved low d t c p h
  | spscIllegalTimed dir d t => exact Laws.FieldsDecode.spscIllegalTimed dir d t c p h
  | spscIllegalDeqOnP d t => exact Laws.FieldsDecode.spscIllegalDeqOnP d t c p h
  | spscIllegalEnqOnC d t => exact Laws.FieldsDecode.spscIllegalEnqOnC d t c p h

theorem wellFormed_iff {c : Config} {p : Nat} {i : Instr} :
    i.wellFormed c p = true ↔
      p < c.numPorts ∧ i.data < 2 ^ c.dw ∧ i.timeout < 2 ^ c.tow ∧ i.readAt c.variant p = true := by
  simp [Instr.wellFormed, and_assoc]

/-- What a port that exists decodes is in a row of the opcode map that it reads: an SPSC port is P or C (R91, R98). -/
theorem readAt_decodeFields {c : Config} {p : Nat} (hp : p < c.numPorts) (op : Op) (d t : Nat) :
    (decodeFields c.variant p op d t).readAt c.variant p = true := by
  by_cases hr : opReserved op = true
  · simp [decodeFields, hr, Instr.readAt]
  · cases hv : c.variant
    case mpmc => cases ht : opTimed op <;> cases hd : opDir op <;> simp [decodeFields, hr, ht, hd, Instr.readAt]
    case spsc =>
      have hC : p ≠ portP → p = portC := by
        have : p < 2 := by simpa [Config.numPorts, hv] using hp
        intro hne
        simp only [portP, portC] at *
        omega
      by_cases hP : p = portP
      · cases ht : opTimed op <;> cases hd : opDir op <;> simp [decodeFields, hr, ht, hd, hP, Instr.readAt]
      · cases ht : opTimed op <;> cases hd : opDir op <;> simp [decodeFields, hr, ht, hd, hC hP, Instr.readAt]

/-- Settles O2: the packed fields are read back, and they decode to the command they came from. -/
theorem decodeOfEncode : Obligations.DecodeOfEncode := by
  intro c p i h
  obtain ⟨hp, hd, ht, -⟩ := wellFormed_iff.mp h
  rw [encode, decode_packCommand hp hd ht, decodeFields_of_wellFormed h]

/-- Settles O3: a decoded command has the fields of the word, which fit, and a word is the packing of its fields. -/
theorem encodeOfDecode : Obligations.EncodeOfDecode := by
  intro c p w i h
  obtain ⟨hp, hw, rfl⟩ := decode_ok h
  refine ⟨wellFormed_iff.mpr ⟨hp, ?_, ?_, readAt_decodeFields hp _ _ _⟩, ?_⟩
  · rw [decodeFields_data]
    exact wordData_lt c w
  · rw [decodeFields_timeout]
    exact wordTimeout_lt c w
  · rw [encode, decodeFields_op, decodeFields_data, decodeFields_timeout, packCommand_fields c w hw]

/-! ### The opcode map -/

theorem toNat_wordOp (w : Nat) : (wordOp w).toNat = w % 8 := BitVec.toNat_ofNat w 3

/-- `CW[2:0]` is `w mod 8` (R95). -/
theorem wordOp_of_mod {w n : Nat} (h : w % 8 = n) : wordOp w = BitVec.ofNat 3 n := by
  apply BitVec.eq_of_toNat_eq
  rw [toNat_wordOp, BitVec.toNat_ofNat, ← h, Nat.mod_mod]

/-- `op[2] = 1` is `op >= 4`, and the two bits below it are the rest (R92). -/
theorem reserved_of_four_le : ∀ op : Op, 4 ≤ op.toNat → opReserved op = true ∧ (op.setWidth 2).toNat = op.toNat - 4 := by
  decide

/-- Settles O4: the word decodes by its fields, and each clause fixes the operation code, the variant and the port that the
decoder branches on. -/
theorem opcodeMap : Obligations.OpcodeMap := by
  intro c p w hp hw
  rw [decode_of_lt hp hw]
  refine ⟨fun h => ?_, fun hv => ⟨fun h => ?_, fun h => ?_, fun h => ?_, fun h => ?_⟩,
    fun hv => ⟨fun h => ?_, fun h => ?_, fun hP => ⟨fun h => ?_, fun h => ?_⟩, fun hC => ⟨fun h => ?_, fun h => ?_⟩⟩⟩
  · rw [← toNat_wordOp] at h ⊢
    obtain ⟨hr, hlow⟩ := reserved_of_four_le (wordOp w) h
    exact ⟨_, hlow, by simp [decodeFields, hr]⟩
  all_goals  -- the operation code is known: the decoder's branch is
    rw [wordOp_of_mod h]
    simp [decodeFields, *]

/-! ### The worked encodings -/

/-- Settles O1: the tables of R104 by evaluation of the decoder, the encoder and the packing of a response. -/
theorem workedEncodings : Obligations.WorkedEncodings :=
  ⟨⟨rfl, rfl, rfl, rfl, rfl, rfl, rfl, rfl⟩, ⟨rfl, rfl, rfl, rfl, rfl, rfl⟩, ⟨rfl, rfl, rfl, rfl, rfl, rfl, rfl, rfl⟩⟩

end Sys2Proof

namespace Sys2Proof.Machine

/-! ### Response words -/

section
variable (c : Config) (ok : Bool) (k : Cause) (d : Nat)

theorem bitField_packResponse_ok : bitField (packResponse c ok k d) 0 1 = ok.toNat := by
  have hok := Bool.toNat_lt ok
  simp only [bitField, packResponse]
  omega

theorem bitField_packResponse_cause : bitField (packResponse c ok k d) 1 3 = k.code.toNat := by
  have hok := Bool.toNat_lt ok
  have hk : k.code.toNat < 8 := k.code.isLt
  simp only [bitField, packResponse]
  omega

theorem bitField_packResponse_data : bitField (packResponse c ok k d) 4 c.dw = d % 2 ^ c.dw := by
  have hok := Bool.toNat_lt ok
  have hk : k.code.toNat < 8 := k.code.isLt
  have hdiv : packResponse c ok k d / 2 ^ 4 = d % 2 ^ c.dw := by
    simp only [packResponse]
    omega
  rw [bitField, hdiv, Nat.mod_mod]

theorem packResponse_lt : packResponse c ok k d < 2 ^ c.responseWidth := by
  have hok := Bool.toNat_lt ok
  have hk : k.code.toNat < 8 := k.code.isLt
  have hd := mod_pow_lt d c.dw
  simp only [packResponse, Config.responseWidth, Nat.pow_add]
  omega

end

theorem rspDataOut_of_carriesElement {s : State} {p : Nat} (hok : (s.portAt p).rspOk = true)
    (hd : opDir (s.portAt p).op = .deq) : s.rspDataOut p = (s.portAt p).rspData := by
  simp [State.rspDataOut, Port.carriesElement, hok, hd]

/-- Settles O5: each field of the packing is read back. -/
theorem responseWordFields : Obligations.ResponseWordFields := by
  intro s p
  refine ⟨?_, bitField_packResponse_cause _ _ _ _, fun hok hd hlt => ?_, packResponse_lt _ _ _ _⟩
  · rw [State.responseWord, bitField_packResponse_ok]
    cases (s.portAt p).rspOk <;> simp
  · rw [State.responseWord, bitField_packResponse_data, rspDataOut_of_carriesElement hok hd, Nat.mod_eq_of_lt hlt]

end Sys2Proof.Machine
end

section
/-! SUPPORT. What `exec` is at each kind of turn, said once for all commands: an `ISSUE`, an `ACCEPT`, a step of the port. From
it, what `ISSUE` latches (R99, R123, R150), which turns change nothing (log 2), and the frame of an illegal command (R99). -/

namespace Sys2Proof.Machine

/-! ### The latched command -/

/-- Settles O11: the latches of a consistent state fit their widths, so the word of a turn that is no `ISSUE` decodes to the
latched command. -/
theorem latchedCommandRuns : Obligations.LatchedCommandRuns := by
  intro s p a hI hp he ha
  exact stepRunsDecodedCommand s p a _ hI.typed.legal he (fun cw h => absurd h (ha cw)) fun _ =>
    decode_packCommand hp (hI.typed.data_lt p) (hI.typed.timeout_lt p)

/-! ### A turn by its kind -/

section
variable {i : Instr} {s : State}

/-- An `ISSUE` of a command that is executed (R123, R150). -/
theorem exec_issue {cw : Nat} {st : PState} (ha : s.sel.act = .issue cw) (hf : firstState i = some st) :
    exec i s = issue i.op i.data i.timeout st s := by
  cases i <;> cases hf <;>
    simp only [exec, execSpscEnq, execSpscDeq, execMpmcEnq, execMpmcDeq, execMpmcEnqt, execMpmcDeqt, ha] <;> rfl

/-- The path of R99 is that of every illegal command. -/
theorem exec_illegal (hf : firstState i = none) : exec i s = illegalCommand i.op i.data i.timeout s := by
  cases i
  case reserved | spscIllegalTimed | spscIllegalDeqOnP | spscIllegalEnqOnC => rfl
  all_goals cases hf

theorem exec_illegal_issue {cw : Nat} (ha : s.sel.act = .issue cw) (hf : firstState i = none) :
    exec i s = issueIllegal i.op i.data i.timeout s := by
  simp only [exec_illegal hf, illegalCommand, ha]

theorem exec_illegal_move {alt : Bool} {k : Nat} (ha : s.sel.act = .move alt k) (hf : firstState i = none) :
    exec i s = .next s := by
  simp only [exec_illegal hf, illegalCommand, ha, stall]

theorem exec_accept (i : Instr) (ha : s.sel.act = .accept) : exec i s = accept s := by
  cases i <;>
    simp only [exec, execSpscEnq, execSpscDeq, execMpmcEnq, execMpmcDeq, execMpmcEnqt, execMpmcDeqt, execReserved,
      execSpscIllegalTimed, execSpscIllegalDeqOnP, execSpscIllegalEnqOnC, illegalCommand, ha]

/-- No command has a step of its port in `IDLE` or `DONE` (R31, R32). -/
theorem exec_move_idle_or_done (i : Instr) {alt : Bool} {k : Nat} (ha : s.sel.act = .move alt k)
    (hs : s.cur.st = .idle ∨ s.cur.st = .done) : exec i s = .next s := by
  rcases hs with hs | hs <;> cases i <;>
    simp only [exec, execSpscEnq, execSpscDeq, execMpmcEnq, execMpmcDeq, execMpmcEnqt, execMpmcDeqt, execReserved,
      execSpscIllegalTimed, execSpscIllegalDeqOnP, execSpscIllegalEnqOnC, illegalCommand, ha, hs, stall]

/-- The states in which a timed command waits, for the lock (R153, R154, R155) or for its condition (R162, R163). -/
theorem exec_timed_waiting {d tmo : Nat} (hi : i = .mpmcEnqt d tmo ∨ i = .mpmcDeqt d tmo) {alt : Bool} {k : Nat}
    (ha : s.sel.act = .move alt k) :
    (s.cur.st = .acqTimed → exec i s = if alt then lockExpire s else lockGrant s) ∧
    (s.cur.st = .cwait →
      exec i s = if alt then wakeSpurious (opDir i.op) s else wakeDeadline (opDir i.op) s) ∧
    (s.cur.st = .reacq → exec i s = lockReacq s) := by
  rcases hi with rfl | rfl <;> refine ⟨fun hs => ?_, fun hs => ?_, fun hs => ?_⟩ <;>
    simp only [exec, execMpmcEnqt, execMpmcDeqt, ha, hs, Instr.op, opDir_2, opDir_3]

end

/-! ### What `ISSUE` latches -/

theorem onlyPort_updPort_complete {s : State} (h : s.me < s.ports.length) (f : Port → Port) (ok : Bool) (c : Cause) :
    s.onlyPort (complete ok c (s.updPort s.me f)) ((f s.cur).completed ok c) := by
  refine ⟨⟨rfl, rfl, rfl, fun _ => rfl⟩, rfl, ⟨rfl, rfl⟩, ⟨rfl, rfl, rfl, rfl, rfl⟩, by simp, fun r => ?_⟩
  rw [portAt_complete _ _ _ _ (by simpa using h), me_updPort, portAt_updPort _ _ _ _ h, portAt_updPort _ _ _ _ h,
    if_pos rfl]
  by_cases hr : r = s.me
  · rw [if_pos hr, if_pos hr]
    rfl
  · rw [if_neg hr, if_neg hr, if_neg hr]

section
variable {i : Instr} {s : State} {v : Variant} {cw : Nat} (hv : s.cfg.variant = v) (hme : s.me < s.ports.length)
  (ha : s.sel.act = .issue cw) (hs : s.cur.st = .idle)
include hv hme ha hs

theorem issue_latches {st : PState} (hf : firstState i = some st) :
    ∃ t n, exec i s = .next t ∧
      s.onlyPort t { latch v i.op i.data i.timeout s.now n s.cur with st := st } := by
  refine ⟨_, s.seq, ?_, onlyPort_updPort_goto hme (latch v i.op i.data i.timeout s.now s.seq) st⟩
  rw [exec_issue ha hf, issue, if_pos hs, hv]

theorem issueIllegal_latches {op : Op} (hf : firstState i = none) (hop : i.op = op) :
    ∃ t n, exec i s = .next t ∧
      s.onlyPort t ((latch v op i.data i.timeout s.now n s.cur).completed false .illegalOp) := by
  refine ⟨_, s.seq, ?_, onlyPort_updPort_complete hme (latch v op i.data i.timeout s.now s.seq) false .illegalOp⟩
  rw [exec_illegal_issue ha hf, issueIllegal, if_pos hs, hv, hop]

end

/-- Settles O13: each command's first state, and the latches of its variant. -/
theorem issueLatches : Obligations.IssueLatches :=
  ⟨fun _ _ d tmo hv hme ha hs =>
    ⟨issue_latches (i := .spscEnq d tmo) hv hme ha hs rfl, issue_latches (i := .spscDeq d tmo) hv hme ha hs rfl⟩,
   fun _ _ d tmo hv hme ha hs =>
    ⟨issue_latches (i := .mpmcEnq d tmo) hv hme ha hs rfl, issue_latches (i := .mpmcDeq d tmo) hv hme ha hs rfl,
     issue_latches (i := .mpmcEnqt d tmo) hv hme ha hs rfl, issue_latches (i := .mpmcDeqt d tmo) hv hme ha hs rfl⟩⟩

/-- The operation codes with `op[2] = 1`, as numbers (R92). -/
theorem reserved_op_eq : ∀ low : BitVec 2, 1#1 ++ low = BitVec.ofNat 3 (4 + low.toNat) := by decide

theorem timed_op_eq (dir : Dir) : opOf false true dir = if dir = .enq then 2#3 else 3#3 := by cases dir <;> rfl

/-- Settles O14: an illegal command has no first state; each row's operation code, and the latches of its variant. -/
theorem illegalIssue : Obligations.IllegalIssue := by
  intro s cw d tmo hme ha hs
  refine ⟨fun hv => ⟨fun dir => ?_, ?_, ?_, fun low => ?_⟩, fun hv low => ?_⟩
  · exact issueIllegal_latches (i := .spscIllegalTimed dir d tmo) hv hme ha hs rfl (timed_op_eq dir)
  · exact issueIllegal_latches (i := .spscIllegalDeqOnP d tmo) hv hme ha hs rfl rfl
  · exact issueIllegal_latches (i := .spscIllegalEnqOnC d tmo) hv hme ha hs rfl rfl
  · exact issueIllegal_latches (i := .reserved low d tmo) hv hme ha hs rfl (reserved_op_eq low)
  · exact issueIllegal_latches (i := .reserved low d tmo) hv hme ha hs rfl (reserved_op_eq low)

/-! ### Turns that change nothing -/

/-- The four illegal rows of the opcode map (R98, R99). -/
theorem firstState_of_illegal {i : Instr} {d tmo : Nat}
    (h : (∃ low, i = .reserved low d tmo) ∨ (∃ dir, i = .spscIllegalTimed dir d tmo) ∨ i = .spscIllegalDeqOnP d tmo ∨
      i = .spscIllegalEnqOnC d tmo) : firstState i = none := by
  rcases h with ⟨low, rfl⟩ | ⟨dir, rfl⟩ | rfl | rfl <;> rfl

theorem exec_issue_of_not_idle (i : Instr) {s : State} {cw : Nat} (ha : s.sel.act = .issue cw) (hs : s.cur.st ≠ .idle) :
    exec i s = .next s := by
  cases hf : firstState i with
  | none => rw [exec_illegal_issue ha hf, issueIllegal, if_neg hs, stall]
  | some st => rw [exec_issue ha hf, issue, if_neg hs, stall]

/-- Settles O16: the step of each disabled turn is known, and its guard is false. -/
theorem disabledTurnsChangeNothing : Obligations.DisabledTurnsChangeNothing := by
  intro i s
  refine ⟨fun ⟨cw, ha⟩ hs => exec_issue_of_not_idle i ha hs, fun ha hs => ?_, fun alt k ha => ⟨fun hs => ?_, fun d tmo =>
    ⟨fun hi => ?_, fun hi => ?_⟩⟩⟩
  · rw [exec_accept i ha, accept, if_neg hs, stall]
  · exact exec_move_idle_or_done i ha hs
  · exact exec_illegal_move ha (firstState_of_illegal hi)
  · obtain ⟨hacq, hcwait, hreacq⟩ := exec_timed_waiting hi ha
    refine ⟨fun hs halt ho => ?_, fun hs halt hlt => ?_, fun hs ho => ?_, fun hs halt hlt => ?_, fun hs halt hsw => ?_⟩
    · simp [hacq hs, halt, lockGrant, ho, stall]
    · simp [hacq hs, halt, lockExpire, Nat.not_le_of_lt hlt, stall]
    · simp [hreacq hs, lockReacq, ho, stall]
    · simp [hcwait hs, halt, wakeDeadline, Nat.not_le_of_lt hlt, stall]
    · simp [hcwait hs, halt, wakeSpurious, hsw, stall]

/-! ### The frame of an illegal command -/

theorem onlyPort_self (s : State) : s.onlyPort s s.cur := by
  refine ⟨⟨rfl, rfl, rfl, fun _ => rfl⟩, rfl, ⟨rfl, rfl⟩, ⟨rfl, rfl, rfl, rfl, rfl⟩, rfl, fun r => ?_⟩
  by_cases hr : r = s.me
  · rw [if_pos hr, hr, State.cur]
  · rw [if_neg hr]

/-- Every record that a turn of an illegal command can leave at its port: the path of R99 has no step of the port. -/
inductive IllegalOwn (i : Instr) (s : State) : Port → Prop where
  | stall : IllegalOwn i s s.cur
  | accept (hs : s.cur.st = .done) : IllegalOwn i s { s.cur with st := .idle }
  | issue (cw n : Nat) (ha : s.sel.act = .issue cw) (hs : s.cur.st = .idle) :
      IllegalOwn i s ((latch s.cfg.variant i.op i.data i.timeout s.now n s.cur).completed false .illegalOp)

/-- A turn of an illegal command leaves nothing but such a record. -/
theorem illegal_onlyPort {i : Instr} {s t : State} (hf : firstState i = none) (hme : s.me < s.ports.length)
    (h : exec i s = .next t) : ∃ q, IllegalOwn i s q ∧ s.onlyPort t q := by
  have hstall : exec i s = .next s → ∃ q, IllegalOwn i s q ∧ s.onlyPort t q := by
    intro hx
    cases hx.symm.trans h
    exact ⟨_, .stall, onlyPort_self s⟩
  cases ha : s.sel.act with
  | issue cw =>
    by_cases hs : s.cur.st = .idle
    · obtain ⟨u, n, hx, honly⟩ := issueIllegal_latches rfl hme ha hs hf rfl
      cases hx.symm.trans h
      exact ⟨_, .issue cw n ha hs, honly⟩
    · exact hstall (exec_issue_of_not_idle i ha hs)
  | accept =>
    by_cases hs : s.cur.st = .done
    · rw [exec_accept i ha, accept, if_pos hs] at h
      cases h
      exact ⟨_, .accept hs, onlyPort_goto hme .idle⟩
    · exact hstall (by rw [exec_accept i ha, accept, if_neg hs, stall])
  | move alt k => exact hstall (exec_illegal_move ha hf)

/-- Settles O30: only the port's record can differ, and each of the three it can be keeps what the statement names. -/
theorem frameIllegal : Obligations.FrameIllegal := by
  intro i s t d tmo hi hme h
  obtain ⟨q, hown, hqueue, howner, hwait, hrest, hlen, hports⟩ := illegal_onlyPort (firstState_of_illegal hi) hme h
  refine ⟨hqueue, howner, hwait, hrest, hlen, fun r hr => (hports r).trans (if_neg hr), ?_⟩
  rw [(hports s.me).trans (if_pos rfl)]
  cases hown with
  | stall => simp
  | accept hs => simp
  | issue cw n ha hs => simp +contextual [ha, hs, latch_spsc]

end Sys2Proof.Machine
end

section
/-! SUPPORT. What a whole step does to the record of one port (`PortStep`), from `Own` for the port in turn and `WaitMove`
for the others. From it, that a response stands until it is accepted (R91), and, by induction over a run in which the last
command issued is carried along, what every accepted response is (R97, R242, R299). -/

namespace Sys2Proof.Machine

/-! ### One step, one port -/

/-- Every record that a step of the machine can leave at port `p`. -/
inductive PortStep (s : State) (p : Nat) : Port → Prop where
  | keep (he : ∀ a, s.nextEvent ≠ .turn p a) : PortStep s p (s.portAt p)
  | reset (he : s.nextEvent = .reset) (hs : (s.portAt p).st = .idle) : PortStep s p Port.reset
  | wake (he : ∀ a, s.nextEvent ≠ .turn p a) (hs : (s.portAt p).st = .cwait) :
      PortStep s p { s.portAt p with st := .reacq }
  | turn (a : Act) (i : Instr) (he : s.nextEvent = .turn p a)
      (hd : decode s.cfg p (s.takeEvent.withTurn p a).commandWord = .ok i) (q : Port)
      (hown : Own i (s.takeEvent.withTurn p a) q) : PortStep s p q

theorem idle_of_all_idle {s : State} (h : ∀ q ∈ s.ports, q.st = .idle) (p : Nat) : (s.portAt p).st = .idle := by
  by_cases hp : p < s.ports.length
  · exact h _ (by simp [State.portAt, hp])
  · rw [portAt_of_length_le s (Nat.le_of_not_lt hp)]
    rfl

theorem step_port {s t : State} (hI : s.Inv) (h : step s = .next t) (p : Nat) : PortStep s p (t.portAt p) := by
  rcases (step_next h).2 with ⟨he, ht⟩ | ⟨he, ht⟩ | ⟨r, a, i, he, hd, hx⟩
  · obtain ⟨-, rfl⟩ := tick_next ht
    exact .keep (by simp [he])
  · obtain ⟨hidle, rfl⟩ := reset_next ht
    have hp : (({ State.resetFor s.takeEvent.cfg s.takeEvent.now with
        sel := s.takeEvent.sel, script := s.takeEvent.script, seq := s.takeEvent.seq } : State).portAt p) = Port.reset :=
      (portAt_congr rfl p).trans (portAt_resetFor s.cfg s.now p)
    rw [hp]
    exact .reset he (idle_of_all_idle hidle p)
  · obtain ⟨hI', hc⟩ := turn_coherent hI hd
    have hm := exec_moved hx
    have hme : r < s.ports.length := hI.typed.port_count ▸ hc.me_lt
    by_cases hp : p = r
    · subst hp
      exact .turn a i he hd _ (moved_own hme hm (fun c w hw => (inv_waitSet hI' hw).1) fun c hw => (inv_waitSet hI' hw).2)
    · have hother : ∀ b, s.nextEvent ≠ .turn p b := by
        intro b hb
        rw [he] at hb
        cases hb
        exact hp rfl
      rcases (moved_wait hm hme fun c w hw => (inv_waitSet hI' hw).1).other hp with e | ⟨d, hw, e⟩
      · rw [e]
        exact .keep hother
      · rw [e]
        exact .wake hother (inv_waitSet hI' hw).2

/-- No step changes a parameter (R284). -/
theorem step_cfg {s t : State} (h : step s = .next t) : t.cfg = s.cfg := by
  rcases (step_next h).2 with ⟨_, ht⟩ | ⟨_, ht⟩ | ⟨r, a, i, _, _, hx⟩
  · obtain ⟨-, rfl⟩ := tick_next ht
    rfl
  · obtain ⟨-, rfl⟩ := reset_next ht
    rfl
  · exact (moved_cfg (exec_moved hx)).trans rfl

/-! ### A response stands (R91) -/

theorem responseWord_congr {s t : State} {p : Nat} (hc : t.cfg = s.cfg) (hp : t.portAt p = s.portAt p) :
    t.responseWord p = s.responseWord p := by
  simp only [State.responseWord, State.rspDataOut, hc, hp]

/-- A turn at a port in `DONE` that is not an `ACCEPT` leaves its record. -/
theorem own_of_done {i : Instr} {s : State} {q : Port} (h : Own i s q) (hs : s.cur.st = .done)
    (ha : s.sel.act ≠ .accept) : q = s.cur := by
  cases h
  case stall => rfl
  case accept => exact absurd ‹_› ha
  case fail c alt k ha hf => cases hf <;> simp_all
  case go st alt k ha hg => cases hg <;> simp_all
  all_goals simp_all

/-- Settles O55: a port in `DONE` is not reset, not woken, and no turn but `ACCEPT` changes its record. -/
theorem responseStable : Obligations.ResponseStable := by
  intro s t p hI h hs he
  have hp : t.portAt p = s.portAt p := by
    have hport := step_port hI h p
    generalize t.portAt p = q at hport
    cases hport with
    | keep _ => rfl
    | reset _ hidle => simp [hs] at hidle
    | wake _ hw => simp [hs] at hw
    | turn a i ht hd _ hown => exact own_of_done hown hs fun ha => he (by rw [ht]; exact congrArg _ ha)
  exact ⟨hp, responseWord_congr (step_cfg h) hp⟩

/-! ### Consistency along a run -/

@[simp] theorem Port.reset_st : Port.reset.st = .idle := rfl
@[simp] theorem Port.reset_inFlight : Port.reset.inFlight = false := rfl
@[simp] theorem waitSet_resetFor (c : Config) (now : Nat) (d : Condition) : (State.resetFor c now).waitSet d = [] := by
  cases d <;> rfl

section
variable {c : Config} (now : Nat)

theorem typed_resetFor (hl : c.Legal) : (State.resetFor c now).Typed := by
  have hpow : ∀ n, 0 < 2 ^ n := fun n => Nat.pow_pos (by decide)
  have hport : ∀ p, ((State.resetFor c now).portAt p).InRange c := fun p => by
    rw [portAt_resetFor]
    exact ⟨hpow c.dw, hpow c.tow, hpow c.dw⟩
  exact ⟨hl, List.length_replicate, hl.1, hl.1, .nil, fun _ he => absurd he List.not_mem_nil, fun p => (hport p).1,
    fun p => (hport p).2.1, fun p => (hport p).2.2⟩

theorem spscInv_resetFor : (State.resetFor c now).SpscInv :=
  ⟨fun p => by rw [portAt_resetFor]; rfl, by simp, by simp, by simp, by simp, by simp,
    fun k hk => absurd hk (Nat.not_lt_zero k), ⟨rfl, rfl, rfl, rfl⟩⟩

theorem mpmcInv_resetFor : (State.resetFor c now).MpmcInv :=
  ⟨fun p => by rw [portAt_resetFor]; rfl, by simp, by simp, by simp,
    fun p => by rw [portAt_resetFor]; simp [State.resetFor, PState.holdsLock], by simp, by simp, Nat.zero_le _,
    Nat.zero_mod _, by simp, fun k hk => absurd hk (Nat.not_lt_zero k),
    fun p => by rw [portAt_resetFor]; exact timesOk_idle _ _ Port.reset⟩

end

theorem inv_resetFor {c : Config} (hl : c.Legal) (now : Nat) : (State.resetFor c now).Inv :=
  ⟨typed_resetFor now hl, ⟨by simp, by simp⟩, fun _ => spscInv_resetFor now, fun _ => mpmcInv_resetFor now⟩

theorem reset_inv {s t : State} (hl : s.cfg.Legal) (h : reset s = .next t) : t.Inv := by
  obtain ⟨-, rfl⟩ := reset_next h
  exact inv_withSchedule (inv_resetFor hl s.now) _ _ _

/-- Every step keeps consistency, `RESET` included. -/
theorem inv_of_step {s t : State} (hI : s.Inv) (h : step s = .next t) : t.Inv := by
  by_cases hr : s.nextEvent = .reset
  · rcases (step_next h).2 with ⟨he, _⟩ | ⟨_, ht⟩ | ⟨p, a, i, he, _, _⟩
    · simp [hr] at he
    · exact reset_inv (s := s.takeEvent) hI.typed.legal ht
    · simp [hr] at he
  · exact step_inv hI h hr

/-! ### The command behind a response -/

/-- `c` has the operation code that the port's command was issued with, if the port has a command. -/
def LastIssued (s : State) (p : Nat) (c : Command) : Prop := (s.portAt p).st ≠ .idle → c.op = (s.portAt p).op

theorem issuedAt_of_not_idle {s : State} {p : Nat} (hs : (s.portAt p).st ≠ .idle) : s.issuedAt p = none := by
  cases h : s.issuedAt p with
  | none => rfl
  | some c =>
    obtain ⟨_, _, _, hidle, _⟩ := issuedAt_eq_some h
    exact absurd hidle hs

theorem issuedAt_of_issue {s : State} {p cw : Nat} {i : Instr} (he : s.nextEvent = .turn p (.issue cw))
    (hs : (s.portAt p).st = .idle) (hd : decode s.cfg p cw = .ok i) : s.issuedAt p = some (commandOf i) := by
  simp [State.issuedAt, he, State.cmdReady, hs, hd]

/-- The operation code of a record changes only where an idle port takes an `ISSUE`. -/
theorem own_op {i : Instr} {s : State} {q : Port} (h : Own i s q) (hq : q.st ≠ .idle) :
    ((∃ cw, s.sel.act = .issue cw) ∧ s.cur.st = .idle ∧ q.op = i.op) ∨ (s.cur.st ≠ .idle ∧ q.op = s.cur.op) := by
  cases h
  case stall => exact .inr ⟨hq, rfl⟩
  case issue cw st ha hs hf => exact .inl ⟨⟨cw, ha⟩, hs, latch_op _ _ _ _ _ _ _⟩
  case issueIllegal cw ha hs hf => exact .inl ⟨⟨cw, ha⟩, hs, latch_op _ _ _ _ _ _ _⟩
  case accept => exact absurd rfl hq
  case fail c alt k ha hf => exact .inr ⟨by cases hf <;> simp [*], rfl⟩
  case succeed alt k ha hs => exact .inr ⟨by rcases hs with ⟨_, hs⟩ | ⟨_, hs⟩ <;> simp [hs], rfl⟩
  case go st alt k ha hg => exact .inr ⟨by cases hg <;> simp [*], rfl⟩
  case grant | elapsed | read => exact .inr ⟨by simp [*], rfl⟩

theorem step_lastIssued {s t : State} {p : Nat} {c : Command} (hI : s.Inv) (h : step s = .next t)
    (hc : LastIssued s p c) : LastIssued t p ((s.issuedAt p).getD c) := by
  have hkeep : (s.portAt p).st ≠ .idle → ((s.issuedAt p).getD c).op = (s.portAt p).op := by
    intro hs
    rw [issuedAt_of_not_idle hs]
    exact hc hs
  have hport := step_port hI h p
  unfold LastIssued
  generalize t.portAt p = q at hport ⊢
  intro hq
  cases hport with
  | keep _ => exact hkeep hq
  | reset _ _ => exact absurd rfl hq
  | wake _ hs => exact hkeep (by simp [hs])
  | turn a i he hd _ hown =>
    rcases own_op hown hq with ⟨⟨cw, rfl⟩, hs, hop⟩ | ⟨hs, hop⟩
    · rw [issuedAt_of_issue he hs hd, hop]
      rfl
    · rw [hop]
      exact hkeep hs

/-! ### What every response is (R97, R242) -/

/-- What the host can have of a command it issued at port `p`. -/
def Result.Possible (v : Variant) (p : Nat) (r : Result) : Prop :=
  (r.ok = true ↔ r.cause = .none) ∧
  causeAllowed (decodeFields v p r.command.op r.command.data r.command.timeout) r.cause = true ∧
  (r.data.isSome = true ↔ r.ok = true ∧ opDir r.command.op = .deq)

theorem resultAt_possible {s : State} {p : Nat} {c : Command} {r : Result} (hI : s.Inv) (hc : LastIssued s p c)
    (h : s.resultAt p c = some r) : r.Possible s.cfg.variant p := by
  obtain ⟨_, hs, hcmd, hok, hcause, hdata⟩ := resultAt_eq_some h
  have hop : r.command.op = (s.portAt p).op := hcmd ▸ hc (by simp [hs])
  refine ⟨?_, ?_, ?_⟩
  · rw [hok, hcause]
    exact hI.responses.ok_iff p hs
  · rw [hop, hcause, causeAllowed_fields _ _ _ _ _ (s.portAt p).data (s.portAt p).timeout]
    exact hI.responses.allowed p hs
  · rw [hdata, hok, hop]
    simp [Port.carriesElement]

theorem resultsAfter_possible (p k : Nat) : ∀ {s : State} {c : Command}, s.Inv → LastIssued s p c →
    ∀ r ∈ State.resultsAfter p c k s, r.Possible s.cfg.variant p := by
  induction k with
  | zero => simp
  | succ k ih =>
    intro s c hI hc r hr
    cases hstep : step s with
    | next t =>
      rw [resultsAfter_succ p c k hstep, List.mem_append, Option.mem_toList] at hr
      rcases hr with hr | hr
      · exact resultAt_possible hI hc hr
      · exact step_cfg hstep ▸ ih (inv_of_step hI hstep) (step_lastIssued hI hstep hc) r hr
    | fault f => simp [State.resultsAfter, hstep] at hr
    | refused x => simp [State.resultsAfter, hstep] at hr

/-- Settles O47: a command in flight at the start is the one latched, and from there the last command issued is carried along
the run. -/
theorem observedResponses : Obligations.ObservedResponses :=
  fun k _ p hI => resultsAfter_possible p k hI fun _ => rfl

end Sys2Proof.Machine
end

section
/-! SUPPORT. The ignored fields (R93, R94, R100): a change of the operands latched at one port passes through every step that
does not read them. `State.mapOperands` is that change; one lemma per step function says that the two commute, with the
operand the step does read, if any, as its hypothesis. -/

namespace Sys2Proof.Machine

/-- The latched operands replaced; every other field is as it was. -/
def Port.mapOperands (fd ft : Nat → Nat) (q : Port) : Port := { q with data := fd q.data, timeout := ft q.timeout }

/-- The operands latched at port `p` replaced. -/
def State.mapOperands (p : Nat) (fd ft : Nat → Nat) (s : State) : State := s.updPort p (Port.mapOperands fd ft)

/-- The change `f` of the state that an outcome leaves. -/
def mapNext (f : State → State) : Res → Res
  | .next s => .next (f s)
  | .fault r => .fault r
  | .refused r => .refused r

/-! ### What the change leaves, and what it commutes with -/

/-- Two updates of ports commute if they do where they meet. -/
theorem updPort_comm (s : State) (p r : Nat) {f g : Port → Port} (h : r = p → ∀ q, f (g q) = g (f q)) :
    (s.updPort p g).updPort r f = (s.updPort r f).updPort p g := by
  have hports : (s.ports.modify p g).modify r f = (s.ports.modify r f).modify p g := by
    apply List.ext_getElem?
    intro n
    by_cases hr : r = n <;> by_cases hp : p = n
    · have hfg : f ∘ g = g ∘ f := funext (h (hr.trans hp.symm))
      simp [hr, hp, Option.map_map, hfg]
    all_goals simp [hr, hp]
  simp only [State.updPort, hports]

section
variable (s : State) (p : Nat) (fd ft : Nat → Nat)

@[simp] theorem mapOperands_cfg : (s.mapOperands p fd ft).cfg = s.cfg := rfl
@[simp] theorem mapOperands_sel : (s.mapOperands p fd ft).sel = s.sel := rfl
@[simp] theorem mapOperands_me : (s.mapOperands p fd ft).me = s.me := rfl
@[simp] theorem mapOperands_owner : (s.mapOperands p fd ft).owner = s.owner := rfl
@[simp] theorem mapOperands_now : (s.mapOperands p fd ft).now = s.now := rfl
@[simp] theorem mapOperands_waitSet (c : Condition) : (s.mapOperands p fd ft).waitSet c = s.waitSet c :=
  waitSet_updPort s p _ c
@[simp] theorem mapOperands_pred (d : Dir) : (s.mapOperands p fd ft).pred d = s.pred d := pred_updPort s p _ d

/-- The record of a port is the old one, or, at a port `p` that exists, that with its operands replaced. -/
theorem portAt_mapOperands (r : Nat) : (s.mapOperands p fd ft).portAt r = s.portAt r ∨
    (r = p ∧ (s.mapOperands p fd ft).portAt r = (s.portAt r).mapOperands fd ft) := by
  by_cases hr : r = p
  · by_cases hp : p < s.ports.length
    · exact .inr ⟨hr, by rw [State.mapOperands, portAt_updPort _ _ _ _ hp, if_pos hr, hr]⟩
    · subst hr
      have hlen : (s.mapOperands r fd ft).ports.length = s.ports.length := length_updPort s r _
      rw [portAt_of_length_le s (by omega), portAt_of_length_le _ (by omega)]
      exact .inl rfl
  · exact .inl (portAt_updPort_of_ne s _ hr)

/-- Only the operands of a record differ. -/
theorem portAt_mapOperands_rest (r : Nat) :
    ((s.mapOperands p fd ft).portAt r).st = (s.portAt r).st ∧ ((s.mapOperands p fd ft).portAt r).op = (s.portAt r).op ∧
    ((s.mapOperands p fd ft).portAt r).start = (s.portAt r).start ∧
    ((s.mapOperands p fd ft).portAt r).t1 = (s.portAt r).t1 ∧
    ((s.mapOperands p fd ft).portAt r).deadline = (s.portAt r).deadline := by
  rcases portAt_mapOperands s p fd ft r with h | ⟨_, h⟩ <;> rw [h] <;> exact ⟨rfl, rfl, rfl, rfl, rfl⟩

@[simp] theorem mapOperands_st (r : Nat) : ((s.mapOperands p fd ft).portAt r).st = (s.portAt r).st :=
  (portAt_mapOperands_rest s p fd ft r).1
@[simp] theorem mapOperands_op (r : Nat) : ((s.mapOperands p fd ft).portAt r).op = (s.portAt r).op :=
  (portAt_mapOperands_rest s p fd ft r).2.1
@[simp] theorem mapOperands_cur_st : (s.mapOperands p fd ft).cur.st = s.cur.st := mapOperands_st s p fd ft s.me
@[simp] theorem mapOperands_cur_start : (s.mapOperands p fd ft).cur.start = s.cur.start :=
  (portAt_mapOperands_rest s p fd ft s.me).2.2.1
@[simp] theorem mapOperands_cur_t1 : (s.mapOperands p fd ft).cur.t1 = s.cur.t1 :=
  (portAt_mapOperands_rest s p fd ft s.me).2.2.2.1
@[simp] theorem mapOperands_cur_deadline : (s.mapOperands p fd ft).cur.deadline = s.cur.deadline :=
  (portAt_mapOperands_rest s p fd ft s.me).2.2.2.2

variable {s p fd ft}

theorem mapOperands_cur_data (hd : s.me = p → fd = id) : (s.mapOperands p fd ft).cur.data = s.cur.data := by
  rcases portAt_mapOperands s p fd ft s.me with h | ⟨hp, h⟩
  · exact congrArg Port.data h
  · exact (congrArg Port.data h).trans (congrFun (hd hp) s.cur.data)

theorem mapOperands_cur_timeout (ht : s.me = p → ft = id) : (s.mapOperands p fd ft).cur.timeout = s.cur.timeout := by
  rcases portAt_mapOperands s p fd ft s.me with h | ⟨hp, h⟩
  · exact congrArg Port.timeout h
  · exact (congrArg Port.timeout h).trans (congrFun (ht hp) s.cur.timeout)

variable (s p fd ft)

theorem goto_mapOperands (st : PState) :
    (s.mapOperands p fd ft).goto st = (s.goto st).mapOperands p fd ft :=
  updPort_comm s p s.me fun _ _ => rfl

theorem complete_mapOperands (ok : Bool) (c : Cause) :
    complete ok c (s.mapOperands p fd ft) = (complete ok c s).mapOperands p fd ft :=
  updPort_comm s p s.me fun _ _ => rfl

theorem setWaitSet_mapOperands (c : Condition) (ws : List Nat) :
    (s.mapOperands p fd ft).setWaitSet c ws = (s.setWaitSet c ws).mapOperands p fd ft := by cases c <;> rfl

/-- A further update of the port in turn, and the step to its next state. -/
theorem updPort_goto_mapOperands {f : Port → Port} (st : PState)
    (hf : s.me = p → ∀ q : Port, f (q.mapOperands fd ft) = (f q).mapOperands fd ft) :
    ((s.mapOperands p fd ft).updPort s.me f).goto st = ((s.updPort s.me f).goto st).mapOperands p fd ft := by
  rw [State.mapOperands, updPort_comm s p s.me hf]
  exact goto_mapOperands (s.updPort s.me f) p fd ft st

theorem wakeOne_mapOperands (c : Condition) (k : Nat) :
    wakeOne c k (s.mapOperands p fd ft) = (wakeOne c k s).mapOperands p fd ft := by
  unfold wakeOne
  rw [mapOperands_waitSet, setWaitSet_mapOperands]
  by_cases h : s.waitSet c = []
  · rw [if_pos h, if_pos h]
  · rw [if_neg h, if_neg h]
    exact updPort_comm _ p _ fun _ _ => rfl

/-! ### The steps that read no operand -/

/-- The change `State.mapOperands p fd ft` passes through the step `f` from `s`. -/
def Commutes (f : State → Res) : Prop := f (s.mapOperands p fd ft) = mapNext (State.mapOperands p fd ft) (f s)

theorem accept_commutes : Commutes s p fd ft accept := by
  unfold Commutes accept
  rw [mapOperands_cur_st]
  split
  · exact congrArg _ (goto_mapOperands s p fd ft _)
  · rfl

theorem pCheck_commutes : Commutes s p fd ft pCheck := by
  unfold Commutes pCheck
  rw [show (s.mapOperands p fd ft).spscFull = s.spscFull from rfl]
  split
  · exact congrArg _ (complete_mapOperands s p fd ft _ _)
  · exact congrArg _ (goto_mapOperands s p fd ft _)

theorem pAdv_commutes : Commutes s p fd ft pAdv :=
  congrArg _ (complete_mapOperands { s with wi := adv s.cfg s.wi } p fd ft _ _)

theorem cCheck_commutes : Commutes s p fd ft cCheck := by
  unfold Commutes cCheck
  rw [show (s.mapOperands p fd ft).spscEmpty = s.spscEmpty from rfl]
  split
  · exact congrArg _ (complete_mapOperands s p fd ft _ _)
  · exact congrArg _ (goto_mapOperands s p fd ft _)

theorem cRead_commutes : Commutes s p fd ft cRead := by
  unfold Commutes cRead
  rw [show memRead (s.mapOperands p fd ft) (s.mapOperands p fd ft).ri = memRead s s.ri from rfl]
  split
  · exact congrArg _ (updPort_goto_mapOperands s p fd ft _ fun _ _ => rfl)
  · rfl

theorem cAdv_commutes : Commutes s p fd ft cAdv :=
  congrArg _ (complete_mapOperands { s with ri := adv s.cfg s.ri } p fd ft _ _)

theorem lockTry_commutes : Commutes s p fd ft lockTry := by
  unfold Commutes lockTry
  rw [mapOperands_owner]
  split
  · exact congrArg _ (goto_mapOperands { s with owner := some s.me } p fd ft _)
  · exact congrArg _ (complete_mapOperands s p fd ft _ _)

theorem lockGrant_commutes : Commutes s p fd ft lockGrant := by
  unfold Commutes lockGrant
  rw [mapOperands_owner]
  split
  · exact congrArg _ (updPort_goto_mapOperands { s with owner := some s.me } p fd ft _ fun _ _ => rfl)
  · rfl

theorem lockReacq_commutes : Commutes s p fd ft lockReacq := by
  unfold Commutes lockReacq
  rw [mapOperands_owner]
  split
  · exact congrArg _ (goto_mapOperands { s with owner := some s.me } p fd ft _)
  · rfl

theorem unlock_commutes : Commutes s p fd ft unlock :=
  congrArg _ (goto_mapOperands { s with owner := none } p fd ft _)

theorem predNonblocking_commutes (dir : Dir) : Commutes s p fd ft (predNonblocking dir) := by
  unfold Commutes predNonblocking
  rw [mapOperands_pred]
  split
  · exact congrArg _ (goto_mapOperands s p fd ft _)
  · exact congrArg _ (complete_mapOperands { s with owner := none } p fd ft _ _)

theorem enterWait_mapOperands (dir : Dir) :
    enterWait dir (s.mapOperands p fd ft) = (enterWait dir s).mapOperands p fd ft := by
  unfold enterWait
  rw [mapOperands_waitSet, mapOperands_me, ← goto_mapOperands, ← setWaitSet_mapOperands]
  rfl

theorem predTimed_commutes (dir : Dir) : Commutes s p fd ft (predTimed dir) := by
  unfold Commutes predTimed
  rw [mapOperands_pred, mapOperands_cur_deadline, mapOperands_now]
  split
  · exact congrArg _ (goto_mapOperands s p fd ft _)
  · split
    · exact congrArg _ (complete_mapOperands { s with owner := none } p fd ft _ _)
    · exact congrArg _ (enterWait_mapOperands s p fd ft dir)

theorem leaveWait_mapOperands (dir : Dir) :
    leaveWait dir (s.mapOperands p fd ft) = (leaveWait dir s).mapOperands p fd ft := by
  unfold leaveWait
  rw [mapOperands_waitSet, mapOperands_me, setWaitSet_mapOperands, goto_mapOperands]

theorem wakeDeadline_commutes (dir : Dir) : Commutes s p fd ft (wakeDeadline dir) := by
  unfold Commutes wakeDeadline
  rw [mapOperands_cur_deadline, mapOperands_now]
  split
  · exact congrArg _ (leaveWait_mapOperands s p fd ft dir)
  · rfl

theorem wakeSpurious_commutes (dir : Dir) : Commutes s p fd ft (wakeSpurious dir) := by
  unfold Commutes wakeSpurious
  rw [mapOperands_cfg]
  split
  · exact congrArg _ (leaveWait_mapOperands s p fd ft dir)
  · rfl

theorem signal_commutes (dir : Dir) (k : Nat) : Commutes s p fd ft (signal dir k) := by
  unfold Commutes signal
  rw [wakeOne_mapOperands, complete_mapOperands]
  rfl

theorem doDeq_commutes : Commutes s p fd ft doDeq := by
  unfold Commutes doDeq
  rw [show memRead (s.mapOperands p fd ft) (s.mapOperands p fd ft).ri = memRead s s.ri from rfl]
  split
  · exact congrArg _
      (updPort_goto_mapOperands { s with ri := adv s.cfg s.ri, size := s.size - 1 } p fd ft _ fun _ _ => rfl)
  · rfl

/-! ### The steps that read an operand -/

variable {s p fd ft}

/-- An `ISSUE` at another port. -/
theorem issue_commutes (h : s.me ≠ p) (op : Op) (d tmo : Nat) (st : PState) :
    Commutes s p fd ft (issue op d tmo st) := by
  unfold Commutes issue
  rw [mapOperands_cur_st]
  split
  · exact congrArg _ (updPort_goto_mapOperands s p fd ft _ fun e => absurd e h)
  · rfl

theorem issueIllegal_commutes (h : s.me ≠ p) (op : Op) (d tmo : Nat) :
    Commutes s p fd ft (issueIllegal op d tmo) := by
  unfold Commutes issueIllegal
  rw [mapOperands_cur_st]
  split
  · rw [State.mapOperands, me_updPort, updPort_comm s p s.me fun e => absurd e h]
    exact congrArg _ (complete_mapOperands (s.updPort s.me _) p fd ft _ _)
  · rfl

section
variable (hd : s.me = p → fd = id)
include hd

/-- A store of the latched element, and the step to the next state. -/
theorem memWrite_mapOperands : memWrite (s.mapOperands p fd ft) s.wi (s.mapOperands p fd ft).cur.data =
    (memWrite s s.wi s.cur.data).map (State.mapOperands p fd ft) := by
  unfold memWrite
  rw [mapOperands_cur_data hd, mapOperands_cfg]
  split <;> rfl

theorem pWrite_commutes : Commutes s p fd ft pWrite := by
  unfold Commutes pWrite
  rw [show (s.mapOperands p fd ft).wi = s.wi from rfl, memWrite_mapOperands hd]
  cases memWrite s s.wi s.cur.data with
  | ok u => exact congrArg _ (goto_mapOperands u p fd ft _)
  | error f => rfl

theorem doEnq_commutes : Commutes s p fd ft doEnq := by
  unfold Commutes doEnq
  rw [show (s.mapOperands p fd ft).wi = s.wi from rfl, memWrite_mapOperands hd]
  cases memWrite s s.wi s.cur.data with
  | ok u => exact congrArg _ (goto_mapOperands { u with wi := adv s.cfg s.wi, size := s.size + 1 } p fd ft _)
  | error f => rfl

end

section
variable (ht : s.me = p → ft = id)
include ht

theorem lockExpire_commutes : Commutes s p fd ft lockExpire := by
  unfold Commutes lockExpire
  rw [mapOperands_cur_timeout ht, mapOperands_cur_start, mapOperands_now]
  split
  · exact congrArg _ (complete_mapOperands s p fd ft _ _)
  · rfl

theorem judgeElapsed_commutes (legacy : Bool) : Commutes s p fd ft (judgeElapsed legacy) := by
  unfold Commutes judgeElapsed
  rw [mapOperands_cur_timeout ht, mapOperands_cur_start, mapOperands_cur_t1]
  split
  · exact congrArg _ (complete_mapOperands { s with owner := none } p fd ft _ _)
  · refine congrArg _ (updPort_goto_mapOperands s p fd ft _ fun e q => ?_)
    rw [ht e]
    rfl

end

/-! ### A command's turn -/

section
variable {alt : Bool} {k : Nat} (ha : s.sel.act = .move alt k)
include ha

theorem spscEnq_commutes (hd : s.me = p → fd = id) (d tmo : Nat) : Commutes s p fd ft (exec (.spscEnq d tmo)) := by
  unfold Commutes exec execSpscEnq
  simp only [mapOperands_sel, ha, mapOperands_cur_st]
  split
  · exact pCheck_commutes s p fd ft
  · exact pWrite_commutes hd
  · exact pAdv_commutes s p fd ft
  · rfl

theorem spscDeq_commutes (d tmo : Nat) : Commutes s p fd ft (exec (.spscDeq d tmo)) := by
  unfold Commutes exec execSpscDeq
  simp only [mapOperands_sel, ha, mapOperands_cur_st]
  split
  · exact cCheck_commutes s p fd ft
  · exact cRead_commutes s p fd ft
  · exact cAdv_commutes s p fd ft
  · rfl

theorem mpmcEnq_commutes (hd : s.me = p → fd = id) (d tmo : Nat) : Commutes s p fd ft (exec (.mpmcEnq d tmo)) := by
  unfold Commutes exec execMpmcEnq
  simp only [mapOperands_sel, ha, mapOperands_cur_st]
  split
  · exact lockTry_commutes s p fd ft
  · exact predNonblocking_commutes s p fd ft .enq
  · exact doEnq_commutes hd
  · exact unlock_commutes s p fd ft
  · exact signal_commutes s p fd ft .enq k
  · rfl

theorem mpmcDeq_commutes (d tmo : Nat) : Commutes s p fd ft (exec (.mpmcDeq d tmo)) := by
  unfold Commutes exec execMpmcDeq
  simp only [mapOperands_sel, ha, mapOperands_cur_st]
  split
  · exact lockTry_commutes s p fd ft
  · exact predNonblocking_commutes s p fd ft .deq
  · exact doDeq_commutes s p fd ft
  · exact unlock_commutes s p fd ft
  · exact signal_commutes s p fd ft .deq k
  · rfl

omit ha in
theorem acqTimed_commutes (ht : s.me = p → ft = id) :
    Commutes s p fd ft fun u => if alt then lockExpire u else lockGrant u := by
  cases alt
  · exact lockGrant_commutes s p fd ft
  · exact lockExpire_commutes ht

omit ha in
theorem cwait_commutes (dir : Dir) :
    Commutes s p fd ft fun u => if alt then wakeSpurious dir u else wakeDeadline dir u := by
  cases alt
  · exact wakeDeadline_commutes s p fd ft dir
  · exact wakeSpurious_commutes s p fd ft dir

theorem mpmcEnqt_commutes (hd : s.me = p → fd = id) (ht : s.me = p → ft = id) (d tmo : Nat) :
    Commutes s p fd ft (exec (.mpmcEnqt d tmo)) := by
  unfold Commutes exec execMpmcEnqt
  simp only [mapOperands_sel, ha, mapOperands_cur_st]
  split
  · exact acqTimed_commutes ht
  · exact judgeElapsed_commutes ht false
  · exact predTimed_commutes s p fd ft .enq
  · exact cwait_commutes .enq
  · exact lockReacq_commutes s p fd ft
  · exact doEnq_commutes hd
  · exact unlock_commutes s p fd ft
  · exact signal_commutes s p fd ft .enq k
  · rfl

theorem mpmcDeqt_commutes (ht : s.me = p → ft = id) (d tmo : Nat) : Commutes s p fd ft (exec (.mpmcDeqt d tmo)) := by
  unfold Commutes exec execMpmcDeqt
  simp only [mapOperands_sel, ha, mapOperands_cur_st]
  split
  · exact acqTimed_commutes ht
  · exact judgeElapsed_commutes ht s.cfg.legacyDeqBudget
  · exact predTimed_commutes s p fd ft .deq
  · exact cwait_commutes .deq
  · exact lockReacq_commutes s p fd ft
  · exact doDeq_commutes s p fd ft
  · exact unlock_commutes s p fd ft
  · exact signal_commutes s p fd ft .deq k
  · rfl

end

/-- Only an enqueue reads its element and only a timed command its timeout, after `ISSUE` (R93, R94, R100). -/
theorem exec_commutes {i : Instr} (hi : ∀ cw, s.sel.act = .issue cw → s.me ≠ p)
    (hd : opDir i.op = .enq → s.me = p → fd = id) (ht : opTimed i.op = true → s.me = p → ft = id) :
    Commutes s p fd ft (exec i) := by
  cases ha : s.sel.act with
  | issue cw =>
    cases hf : firstState i with
    | none =>
      rw [Commutes, exec_illegal_issue ha hf, exec_illegal_issue (s := s.mapOperands p fd ft) ha hf]
      exact issueIllegal_commutes (hi cw ha) i.op i.data i.timeout
    | some st =>
      rw [Commutes, exec_issue ha hf, exec_issue (s := s.mapOperands p fd ft) ha hf]
      exact issue_commutes (hi cw ha) i.op i.data i.timeout st
  | accept =>
    rw [Commutes, exec_accept i ha, exec_accept (s := s.mapOperands p fd ft) i ha]
    exact accept_commutes s p fd ft
  | move alt k =>
    have hillegal : firstState i = none → Commutes s p fd ft (exec i) := by
      intro hf
      rw [Commutes, exec_illegal_move ha hf, exec_illegal_move (s := s.mapOperands p fd ft) ha hf]
      rfl
    cases i with
    | spscEnq d tmo => exact spscEnq_commutes ha (hd opDir_0) d tmo
    | spscDeq d tmo => exact spscDeq_commutes ha d tmo
    | mpmcEnq d tmo => exact mpmcEnq_commutes ha (hd opDir_0) d tmo
    | mpmcDeq d tmo => exact mpmcDeq_commutes ha d tmo
    | mpmcEnqt d tmo => exact mpmcEnqt_commutes ha (hd opDir_2) (ht opTimed_2) d tmo
    | mpmcDeqt d tmo => exact mpmcDeqt_commutes ha (ht opTimed_3) d tmo
    | reserved | spscIllegalTimed | spscIllegalDeqOnP | spscIllegalEnqOnC => exact hillegal rfl

/-! ### A tick, and a step -/

variable (s p fd ft) in
theorem tick_commutes : Commutes s p fd ft tick := by
  have hany : ∀ P : Port → Bool, (∀ q : Port, P (q.mapOperands fd ft) = P q) →
      (s.mapOperands p fd ft).ports.any P = s.ports.any P := by
    intro P hP
    have hmap : (s.ports.modify p (Port.mapOperands fd ft)).map P = s.ports.map P := by
      apply List.ext_getElem?
      intro n
      by_cases hn : p = n <;> simp [hn, Option.map_map, Function.comp_def, hP]
    rw [← Function.id_comp P, ← List.any_map, ← List.any_map]
    exact congrArg (fun l => l.any id) hmap
  have hwraps : (s.mapOperands p fd ft).tickWraps = s.tickWraps :=
    congrArg (s.cfg.variant == .mpmc && ·) (hany _ fun _ => rfl)
  unfold Commutes tick
  rw [hwraps]
  split <;> rfl

end

/-- Outside an `ISSUE` the operands of the decoded command are not looked at (R91). -/
theorem exec_decodeFields_operands (v : Variant) (r p : Nat) (op : Op) (d tmo d' tmo' : Nat) (s : State) {a : Act}
    (ha : ∀ cw, a ≠ .issue cw) :
    exec (decodeFields v r op d tmo) (s.withTurn p a) = exec (decodeFields v r op d' tmo') (s.withTurn p a) := by
  cases a with
  | issue cw => exact absurd rfl (ha cw)
  | accept => rw [exec_accept _ rfl, exec_accept _ rfl]
  | move alt k =>
    unfold decodeFields
    split
    · rfl
    · split <;> (try split) <;> rfl

/-- Outside an `ISSUE` what is decoded is the operation code latched, with operands cut to their widths. -/
theorem decode_latched {s : State} {r : Nat} {a : Act} (hr : r < s.cfg.numPorts) (ha : ∀ cw, a ≠ .issue cw) :
    decode s.cfg r (s.withTurn r a).commandWord =
      .ok (decodeFields s.cfg.variant r (s.portAt r).op ((s.portAt r).data % 2 ^ s.cfg.dw)
        ((s.portAt r).timeout % 2 ^ s.cfg.tow)) := by
  rw [commandWord_withTurn_of_ne_issue _ r ha, decode_of_lt hr (packCommand_lt _ _ _ _), wordOp_packCommand,
    wordData_packCommand, wordTimeout_packCommand]

section
variable {s : State} {r p : Nat} {fd ft : Nat → Nat} {a : Act} {i : Instr} (he : s.nextEvent = .turn r a)
  (hd : decode s.cfg r (s.takeEvent.withTurn r a).commandWord = .ok i)
include hd

theorem op_of_decode_latched (ha : ∀ cw, a ≠ .issue cw) : i.op = (s.portAt r).op := by
  cases (decode_latched (s := s.takeEvent) (decode_ok hd).1 ha).symm.trans hd
  exact decodeFields_op _ _ _ _ _

include he

/-- After the change a turn runs the command it ran before. -/
theorem step_mapOperands_of_turn (hl : s.cfg.Legal) :
    step (s.mapOperands p fd ft) = exec i ((s.takeEvent.withTurn r a).mapOperands p fd ft) := by
  have hturn : ∀ {j}, decode s.cfg r ((s.takeEvent.mapOperands p fd ft).withTurn r a).commandWord = .ok j →
      step (s.mapOperands p fd ft) = exec j ((s.takeEvent.mapOperands p fd ft).withTurn r a) :=
    fun h => step_of_turn (s := s.mapOperands p fd ft) hl he h
  by_cases ha : ∃ cw, a = .issue cw
  · obtain ⟨cw, rfl⟩ := ha
    exact hturn hd
  · have hne : ∀ cw, a ≠ .issue cw := fun cw e => ha ⟨cw, e⟩
    have hr := (decode_ok hd).1
    cases (decode_latched (s := s.takeEvent) hr hne).symm.trans hd
    rw [hturn (decode_latched (s := s.takeEvent.mapOperands p fd ft) hr hne), mapOperands_op]
    exact exec_decodeFields_operands _ _ _ _ _ _ _ _ _ hne

end

theorem step_mapOperands {s t : State} {p : Nat} {fd ft : Nat → Nat} (h : step s = .next t) (hr : s.nextEvent ≠ .reset)
    (hi : ∀ cw, s.nextEvent ≠ .turn p (.issue cw)) (hd : opDir (s.portAt p).op = .enq → fd = id)
    (ht : opTimed (s.portAt p).op = true → ft = id) :
    step (s.mapOperands p fd ft) = .next (t.mapOperands p fd ft) := by
  obtain ⟨hl, ⟨he, hx⟩ | ⟨he, _⟩ | ⟨r, a, i, he, hdec, hx⟩⟩ := step_next h
  · have hstep : step (s.mapOperands p fd ft) = tick (s.takeEvent.mapOperands p fd ft) := by
      rw [step, if_pos (show (s.mapOperands p fd ft).cfg.Legal from hl),
        show (s.mapOperands p fd ft).nextEvent = .tick from he]
      rfl
    rw [hstep, tick_commutes, hx, mapNext]
  · exact absurd he hr
  · have hop : r = p → i.op = (s.portAt p).op := by
      rintro rfl
      exact op_of_decode_latched hdec fun cw e => hi cw (by rw [he, e])
    have hcomm : Commutes (s.takeEvent.withTurn r a) p fd ft (exec i) :=
      exec_commutes (fun cw ha hp => hi cw (by rw [he, ← hp]; exact congrArg _ ha))
        (fun hdir hp => hd (hop hp ▸ hdir)) (fun htimed hp => ht (hop hp ▸ htimed))
    rw [step_mapOperands_of_turn he hdec hl, hcomm, hx, mapNext]

/-- Settles O58: the element of a dequeue is read by no step after its `ISSUE`, nor is the timeout of a command without one. -/
theorem ignoredFields : Obligations.IgnoredFields := by
  intro s t p x h hr hi
  refine ⟨fun hd => ?_, fun ht => ?_⟩
  · exact step_mapOperands (fd := fun _ => x) (ft := id) h hr hi (fun he => by simp [hd] at he) fun _ => rfl
  · exact step_mapOperands (fd := id) (ft := fun _ => x) h hr hi (fun _ => rfl) fun he => by simp [ht] at he

end Sys2Proof.Machine
end

section
/-! SUPPORT. The steps of an SPSC enqueue (R124, R125, R126) and the acceptance of a response (R131, R168), each with the
record it leaves at the port; the transition graph of an SPSC port (R127). -/

namespace Sys2Proof.Machine

/-! ### `ACCEPT` -/

/-- Settles O15: an `ACCEPT` is the same step for every command, and in `DONE` it moves the port's state alone. -/
theorem acceptReturnsToIdle : Obligations.AcceptReturnsToIdle := by
  intro i s hme ha hs
  exact ⟨_, by rw [exec_accept i ha, accept, if_pos hs], onlyPort_goto hme .idle⟩

/-! ### Which step an enqueue takes -/

section
variable {s : State} (d tmo : Nat)

theorem exec_spscEnq_check (h : s.turnIn .check) : exec (.spscEnq d tmo) s = pCheck s := by
  obtain ⟨_, hs, alt, wake, ha⟩ := h
  simp only [exec, execSpscEnq, ha, hs]

theorem exec_spscEnq_xfer (h : s.turnIn .xfer) : exec (.spscEnq d tmo) s = pWrite s := by
  obtain ⟨_, hs, alt, wake, ha⟩ := h
  simp only [exec, execSpscEnq, ha, hs]

theorem exec_spscEnq_adv (h : s.turnIn .adv) : exec (.spscEnq d tmo) s = pAdv s := by
  obtain ⟨_, hs, alt, wake, ha⟩ := h
  simp only [exec, execSpscEnq, ha, hs]

end

/-! ### The steps that fill the queue -/

theorem pCheck_of_eq {s : State} (h : adv s.cfg s.wi = s.ri) : pCheck s = .next (complete false .full s) := by
  simp [pCheck, State.spscFull, h]

theorem pCheck_of_ne {s : State} (h : adv s.cfg s.wi ≠ s.ri) : pCheck s = .next (s.goto .xfer) := by
  simp [pCheck, State.spscFull, h]

theorem pWrite_of_lt {s : State} (h : s.wi < s.cfg.capacity) :
    pWrite s = .next ({ s with storage := putSlot s.storage s.wi s.cur.data }.goto .adv) := by
  simp only [pWrite, memWrite_of_lt s _ h]

/-- Settles O17: at each of the three states the step taken is known, and so is the record it leaves. -/
theorem spscEnqSteps : Obligations.SpscEnqSteps := by
  refine ⟨fun s d tmo h => ⟨fun he => ?_, fun hne => ?_⟩, fun s d tmo => ⟨fun h hw => ?_, fun h => ?_⟩⟩
  · exact ⟨_, (exec_spscEnq_check d tmo h).trans (pCheck_of_eq he), onlyPort_complete h.1 _ _⟩
  · exact ⟨_, (exec_spscEnq_check d tmo h).trans (pCheck_of_ne hne), onlyPort_goto h.1 _⟩
  · exact ⟨_, (exec_spscEnq_xfer d tmo h).trans (pWrite_of_lt hw), slotAt_putSlot_same _ _ _,
      fun j hj => slotAt_putSlot_ne _ _ hj, rfl, rfl, rfl, rfl, ⟨rfl, rfl⟩, ⟨rfl, rfl, rfl, rfl, rfl⟩,
      portBecomes_goto (s := { s with storage := putSlot s.storage s.wi s.cur.data }) h.1 _⟩
  · exact ⟨_, exec_spscEnq_adv d tmo h, rfl, rfl, rfl, fun _ => rfl, rfl, ⟨rfl, rfl⟩, ⟨rfl, rfl, rfl, rfl, rfl⟩,
      portBecomes_complete (s := { s with wi := adv s.cfg s.wi }) h.1 _ _⟩

/-! ### The transition graph of an SPSC port -/

/-- The first state of a command an SPSC port reads is `CHECK` (R127). -/
theorem firstState_spsc {i : Instr} {s : State} (hc : Coherent i s) (hv : s.cfg.variant = .spsc) {st : PState}
    (hf : firstState i = some st) : st = .check := by
  have hn : s.me < 2 := by simpa [Config.numPorts, hv] using hc.me_lt
  obtain ⟨op, d, tmo, rfl⟩ := hc.fields
  rw [hv] at hf
  exact ((spsc_kinds s.me op d tmo hn).2.2 st hf).1

/-- The edges of R127: the turn's act, the state before and the record after. -/
inductive SpscEdge (a : Act) (st : PState) (q : Port) : Prop where
  | stay (hq : q.st = st)
  | issue (cw : Nat) (ha : a = .issue cw) (hs : st = .idle)
      (hq : q.st = .check ∨ q.st = .done ∧ q.rspCause = .illegalOp)
  | accept (ha : a = .accept) (hs : st = .done) (hq : q.st = .idle)
  | check (alt : Bool) (k : Nat) (ha : a = .move alt k) (hs : st = .check)
      (hq : q.st = .xfer ∨ q.st = .done ∧ q.rspOk = false)
  | access (alt : Bool) (k : Nat) (ha : a = .move alt k) (hs : st = .xfer) (hq : q.st = .adv)
  | advance (alt : Bool) (k : Nat) (ha : a = .move alt k) (hs : st = .adv) (hq : q.st = .done ∧ q.rspOk = true)

/-- Every turn at an SPSC port is along one of them. -/
theorem own_spscEdge {i : Instr} {s : State} {q : Port} (h : Own i s q) (hm : isMpmc i = false)
    (hf : ∀ st, firstState i = some st → st = .check) : SpscEdge s.sel.act s.cur.st q := by
  cases h
  case stall => exact .stay rfl
  case issue cw st ha hs hf' => exact .issue cw ha hs (.inl (hf st hf'))
  case issueIllegal cw ha hs hf' => exact .issue cw ha hs (.inr ⟨rfl, rfl⟩)
  case accept ha hs => exact .accept ha hs rfl
  case fail c alt k ha hfails =>
    cases hfails
    case full hi hd hs hg => exact .check alt k ha hs (.inr ⟨rfl, rfl⟩)
    case empty hi hd hs hg => exact .check alt k ha hs (.inr ⟨rfl, rfl⟩)
    all_goals simp_all  -- steps of the other variant
  case succeed alt k ha hs =>
    rcases hs with ⟨_, hs⟩ | ⟨hi, _⟩
    · exact .advance alt k ha hs ⟨rfl, rfl⟩
    · simp_all
  case go st alt k ha hg =>
    cases hg
    case check hi hs => exact .check alt k ha hs (.inl rfl)
    case write hi hd hs => exact .access alt k ha hs rfl
    all_goals simp_all  -- steps of the other variant
  case grant | elapsed => simp_all
  case read alt k v st ha hd hs hst hv =>
    rcases hst with ⟨_, rfl⟩ | ⟨hi, _⟩
    · exact .access alt k ha hs rfl
    · simp_all

/-- Settles O50: a port that is not in turn keeps its record, none of an SPSC machine being ever woken, and a turn of the
port is along an edge of R127. -/
theorem spscTransitions : Obligations.SpscTransitions := by
  intro s t p hI hv h hr
  have hport := step_port hI h p
  generalize t.portAt p = q at hport
  cases hport with
  | keep _ => exact .inl rfl
  | reset he _ => exact absurd he hr
  | wake _ hs =>
    have := (hI.spsc hv).states p
    rw [hs] at this
    cases this
  | turn a i he hd _ hown =>
    obtain ⟨-, hc⟩ := turn_coherent hI hd
    have hedge := own_spscEdge hown ((kind_variant hc).1 hv) fun st hf => firstState_spsc hc hv hf
    cases hedge with
    | stay hq => exact .inl hq
    | issue cw ha hs hq => exact .inr (.inl ⟨⟨cw, he.trans (congrArg _ ha)⟩, hs, hq⟩)
    | accept ha hs hq => exact .inr (.inr (.inl ⟨he.trans (congrArg _ ha), hs, hq⟩))
    | check alt k ha hs hq => exact .inr (.inr (.inr ⟨⟨alt, k, he.trans (congrArg _ ha)⟩, .inl ⟨hs, hq⟩⟩))
    | access alt k ha hs hq => exact .inr (.inr (.inr ⟨⟨alt, k, he.trans (congrArg _ ha)⟩, .inr (.inl ⟨hs, hq⟩)⟩))
    | advance alt k ha hs hq => exact .inr (.inr (.inr ⟨⟨alt, k, he.trans (congrArg _ ha)⟩, .inr (.inr ⟨hs, hq⟩)⟩))

end Sys2Proof.Machine
end

section
/-! SUPPORT. Progress: a turn at a port answers a next state where the slots that its transfer needs are there, and where the
step of the port's state has no guard that state is another one (R120, R190, R193, R297). -/

namespace Sys2Proof.Machine

/-! ### When a step answers a next state -/

/-- Neither a fault nor a refusal. -/
def Answers (r : Res) : Prop := ∃ t, r = .next t

@[simp] theorem answers_next (t : State) : Answers (.next t) := ⟨t, rfl⟩

@[simp] theorem answers_ite (c : Prop) [Decidable c] {a b : Res} (ha : Answers a) (hb : Answers b) :
    Answers (if c then a else b) := by
  split
  · exact ha
  · exact hb

section
variable (s : State)

@[simp] theorem stall_answers : Answers (stall s) := answers_next s
@[simp] theorem pCheck_answers : Answers (pCheck s) := by simp [pCheck]
@[simp] theorem pAdv_answers : Answers (pAdv s) := answers_next _
@[simp] theorem cCheck_answers : Answers (cCheck s) := by simp [cCheck]
@[simp] theorem cAdv_answers : Answers (cAdv s) := answers_next _
@[simp] theorem lockTry_answers : Answers (lockTry s) := by simp [lockTry]
@[simp] theorem lockGrant_answers : Answers (lockGrant s) := by simp [lockGrant]
@[simp] theorem lockExpire_answers : Answers (lockExpire s) := by simp [lockExpire]
@[simp] theorem lockReacq_answers : Answers (lockReacq s) := by simp [lockReacq]
@[simp] theorem unlock_answers : Answers (unlock s) := answers_next _
@[simp] theorem judgeElapsed_answers (legacy : Bool) : Answers (judgeElapsed legacy s) := by simp [judgeElapsed]
@[simp] theorem predNonblocking_answers (d : Dir) : Answers (predNonblocking d s) := by simp [predNonblocking]
@[simp] theorem predTimed_answers (d : Dir) : Answers (predTimed d s) := by simp [predTimed]
@[simp] theorem wakeDeadline_answers (d : Dir) : Answers (wakeDeadline d s) := by simp [wakeDeadline]
@[simp] theorem wakeSpurious_answers (d : Dir) : Answers (wakeSpurious d s) := by simp [wakeSpurious]
@[simp] theorem signal_answers (d : Dir) (k : Nat) : Answers (signal d k s) := answers_next _

variable {s}

theorem pWrite_answers (h : s.wi < s.cfg.capacity) : Answers (pWrite s) := ⟨_, pWrite_of_lt h⟩

theorem doEnq_answers (h : s.wi < s.cfg.capacity) : Answers (doEnq s) := by
  simp [doEnq, memWrite_of_lt s _ h]

theorem cRead_answers (h : s.ri < s.cfg.capacity) (hv : (slotAt s.storage s.ri).isSome = true) : Answers (cRead s) := by
  obtain ⟨v, hv⟩ := Option.isSome_iff_exists.mp hv
  exact ⟨_, cRead_of_slotAt h hv⟩

theorem doDeq_answers (h : s.ri < s.cfg.capacity) (hv : (slotAt s.storage s.ri).isSome = true) : Answers (doDeq s) := by
  obtain ⟨v, hv⟩ := Option.isSome_iff_exists.mp hv
  exact ⟨_, doDeq_of_slotAt h hv⟩

end

/-- A step of the port faults at most in `XFER`: it needs the two indices to be addresses, and, for a dequeue, the slot it
reads to hold a value (R22, R60). -/
theorem exec_move_answers (i : Instr) {s : State} {alt : Bool} {k : Nat} (ha : s.sel.act = .move alt k)
    (hw : s.wi < s.cfg.capacity) (hr : s.ri < s.cfg.capacity)
    (hv : s.cur.st = .xfer → opDir i.op = .deq → (slotAt s.storage s.ri).isSome = true) : Answers (exec i s) := by
  cases i
  case reserved | spscIllegalTimed | spscIllegalDeqOnP | spscIllegalEnqOnC => exact ⟨s, exec_illegal_move ha rfl⟩
  case spscEnq =>
    simp only [exec, execSpscEnq, ha]
    split <;> simp [pWrite_answers hw]
  case spscDeq =>
    simp only [exec, execSpscDeq, ha]
    split <;> simp [*, cRead_answers, Instr.op] at hv ⊢
  case mpmcEnq =>
    simp only [exec, execMpmcEnq, ha]
    split <;> simp [doEnq_answers hw]
  case mpmcDeq =>
    simp only [exec, execMpmcDeq, ha]
    split <;> simp [*, doDeq_answers, Instr.op] at hv ⊢
  case mpmcEnqt =>
    simp only [exec, execMpmcEnqt, ha]
    split <;> simp [doEnq_answers hw]
  case mpmcDeqt =>
    simp only [exec, execMpmcDeqt, ha]
    split <;> simp [*, doDeq_answers, Instr.op] at hv ⊢

/-! ### In a consistent state -/

section
variable {i : Instr} {s : State} (hI : s.Inv)
include hI

/-- A slot is held for every dequeue that has passed its check (R43, R45). -/
theorem count_pos_of_transfer (hc : Coherent i s) (ha : ∀ cw, s.sel.act ≠ .issue cw) (hs : s.cur.st = .xfer)
    (hd : opDir i.op = .deq) : 0 < s.count := by
  cases hv : s.cfg.variant
  case spsc =>
    have hS := hI.spsc hv
    have hme : s.me = portC := (spsc_port_of_dir hS hc ha (by simp [Port.inFlight, hs])).2 hd
    have hg := hS.guard_C (.inl (hme ▸ hs))
    rw [count_spsc hv, ← indexGap_adv_ri hI.typed.wi_lt hI.typed.ri_lt hg]
    exact Nat.succ_pos _
  case mpmc =>
    have hp := (hI.mpmc hv).transfer s.me hs
    rw [show opDir (s.portAt s.me).op = .deq from hc.op_eq ha ▸ hd] at hp
    rw [count_mpmc hv]
    exact of_decide_eq_true hp

/-- Every step of a port answers a next state. -/
theorem exec_move_next (hc : Coherent i s) {alt : Bool} {k : Nat} (ha : s.sel.act = .move alt k) :
    ∃ t, exec i s = .next t := by
  refine exec_move_answers i ha hI.typed.wi_lt hI.typed.ri_lt fun hs hd => ?_
  have hslot := inv_filled hI 0 (count_pos_of_transfer hI hc (by simp [ha]) hs hd)
  rwa [Nat.add_zero, Nat.mod_eq_of_lt hI.typed.ri_lt] at hslot

/-- A port in flight that waits neither for the lock nor for its condition is in an unguarded state of its command. -/
theorem unguarded_of_inFlight (hc : Coherent i s) (ha : ∀ cw, s.sel.act ≠ .issue cw) (hf : s.cur.inFlight = true)
    (hw : s.cur.st ≠ .acqTimed ∧ s.cur.st ≠ .cwait ∧ s.cur.st ≠ .reacq) : unguarded i s.cur.st = true := by
  obtain ⟨hspsc, hmpmc⟩ := kind_of_inflight hI hc ha hf
  cases hv : s.cfg.variant
  case spsc =>
    have hst : s.cur.st.spscCode.isSome = true := (hI.spsc hv).states s.me
    cases hs : s.cur.st <;> simp_all [unguarded, Port.inFlight, PState.spscCode]
  case mpmc =>
    have hM := hI.mpmc hv
    have hst : s.cur.st.mpmcCode.isSome = true := hM.states s.me
    have htry : s.cur.st = .acqTry → opTimed i.op = false := hc.op_eq ha ▸ hM.nonblocking s.me
    have helapsed : s.cur.st = .elapsed → opTimed i.op = true := fun e => hc.op_eq ha ▸ hM.timed s.me (.inr (.inl e))
    cases hs : s.cur.st <;> simp_all [unguarded, Port.inFlight, PState.mpmcCode]

end

/-- A step in an unguarded state leads to another state. -/
theorem own_st_ne_of_unguarded {i : Instr} {s : State} {q : Port} (h : Own i s q) {alt : Bool} {k : Nat}
    (ha : s.sel.act = .move alt k) (hu : unguarded i s.cur.st = true) : q.st ≠ s.cur.st := by
  cases h
  case stall hg => simp [hg.move alt k ha] at hu
  case issue | issueIllegal | accept => simp_all
  case fail c alt k ha hf => cases hf <;> simp [*]
  case succeed alt k ha hs => rcases hs with ⟨_, hs⟩ | ⟨_, hs⟩ <;> simp [hs]
  case go st alt k ha hg => cases hg <;> simp [*]
  case grant | elapsed => simp [*]
  case read alt k v st ha hd hs hst hv => rcases hst with ⟨_, rfl⟩ | ⟨_, rfl⟩ <;> simp [hs]

/-- The record that a command's step leaves at its port, in a consistent state. -/
theorem exec_own {i : Instr} {s t : State} (hI : s.Inv) (hc : Coherent i s) (h : exec i s = .next t) :
    Own i s (t.portAt s.me) :=
  moved_own (hI.typed.port_count ▸ hc.me_lt) (exec_moved h) (fun _ _ hw => (inv_waitSet hI hw).1)
    fun _ hw => (inv_waitSet hI hw).2

/-- A port that is not there has no command in flight. -/
theorem lt_length_of_inFlight {s : State} {p : Nat} (hf : (s.portAt p).inFlight = true) : p < s.ports.length := by
  refine Nat.lt_of_not_le fun hle => ?_
  rw [portAt_of_length_le s hle] at hf
  cases hf

/-- The command latched at a port is that of every turn of the port (R91, R101). -/
theorem coherent_latched {s : State} {p : Nat} (hp : p < s.cfg.numPorts) (alt : Bool) (k : Nat) :
    Coherent (s.latched p) (s.takeEvent.withTurn p (.move alt k)) :=
  ⟨hp, fun _ ha => by simp at ha, fun _ => rfl⟩

/-- Settles O52: the turn runs the latched command, which answers, and the state it stands in is unguarded. -/
theorem unguardedStepsProgress : Obligations.UnguardedStepsProgress := by
  intro s p alt k hI he hf hacq hcwait hreacq
  have hp : p < s.cfg.numPorts := hI.typed.port_count ▸ lt_length_of_inFlight hf
  have hc := coherent_latched hp alt k
  have hI' : (s.takeEvent.withTurn p (.move alt k)).Inv := inv_withTurn (inv_takeEvent hI) _ _
  obtain ⟨t, hx⟩ := exec_move_next hI' hc rfl
  have hu := unguarded_of_inFlight hI' hc (by simp) hf ⟨hacq, hcwait, hreacq⟩
  have hstep := latchedCommandRuns s p (.move alt k) hI hp he (by simp)
  exact ⟨t, hstep.trans hx, own_st_ne_of_unguarded (exec_own hI' hc hx) rfl hu⟩

end Sys2Proof.Machine
end

section
/-! SUPPORT. A failing completion (R246): from the port's record (`Own`), which steps can be one, and, from what a turn can do
beside that record (`WaitMove`, `LockMove`, `QueueMove`), that none of these changes more than the lock. -/

namespace Sys2Proof.Machine

/-- A command fails before its transfer (R242, R246). -/
theorem st_of_fails {i : Instr} {s : State} {c : Cause} (h : Fails i s c) :
    s.cur.st ≠ .xfer ∧ s.cur.st ≠ .adv ∧ s.cur.st ≠ .sig := by
  cases h <;> simp [*]

/-- What a turn that leaves the record `q` at its port tells if it failed its command: where it was taken, and `q`. -/
structure FailingTurn (s : State) (q : Port) : Prop where
  not_transfer : s.cur.st ≠ .xfer ∧ s.cur.st ≠ .adv ∧ s.cur.st ≠ .sig
  record : s.cur.st ≠ .idle → q = s.cur.completed false q.rspCause

/-- Such a turn is one that leads to `DONE` with `rsp_ok = 0`. -/
theorem own_failingTurn {i : Instr} {s : State} {q : Port} (h : Own i s q) (hs : s.cur.st ≠ .done) (hq : q.st = .done)
    (hok : q.rspOk = false) : FailingTurn s q := by
  cases h
  case stall => exact absurd hq hs
  case issue cw st ha hs hf => exact absurd hq (firstState_ne_done hf)
  case issueIllegal cw ha hs hf => exact ⟨by simp [hs], fun hn => absurd hs hn⟩
  case accept | grant | elapsed => simp at hq
  case fail c alt k ha hf => exact ⟨st_of_fails hf, fun _ => rfl⟩
  case succeed => simp at hok
  case go st alt k ha hg => cases hg <;> simp at hq
  case read alt k v st ha hd hs hst hv => rcases hst with ⟨_, rfl⟩ | ⟨_, rfl⟩ <;> simp at hq

/-! ### Beside the record -/

section
variable {i : Instr} {s t : State}

theorem queueKept_of_storage (hw : t.wi = s.wi) (hr : t.ri = s.ri) (hz : t.size = s.size) (hm : t.storage = s.storage) :
    s.queueKept t := ⟨hw, hr, hz, fun _ => by rw [hm]⟩

/-- The queue changes only at an access or an advance. -/
theorem QueueMove.kept (h : QueueMove i s t) (hs : s.cur.st ≠ .xfer ∧ s.cur.st ≠ .adv) : s.queueKept t := by
  cases h
  case keep hn hw hr hz hm => exact queueKept_of_storage hw hr hz hm
  all_goals simp_all

/-- A turn that completes its command, but for a `SIGNAL`, touches no other port and no wait set. -/
theorem WaitMove.quiet (h : WaitMove i s t) (hs : s.cur.st ≠ .sig) (ht : (t.portAt s.me).st = .done) :
    s.waitersKept t ∧ ∀ r, r ≠ s.me → t.portAt r = s.portAt r := by
  cases h
  case same ho hw hc => exact ⟨⟨hw .rtr, hw .rtw⟩, ho⟩
  case enter ho hi hs' ha hw he => simp [he] at ht
  case leave ho hi hs' ha hw he => simp [he] at ht
  case wake d w hi hs' hm ho hw he => exact absurd hs' hs

/-- A completion releases the lock its port holds (R246), and touches no other. -/
theorem LockMove.released (h : LockMove s t) (hlock : s.owner = some s.me ↔ s.cur.st.holdsLock = true)
    (ht : (t.portAt s.me).st = .done) :
    (s.owner = some s.me → t.owner = none) ∧ (s.owner ≠ some s.me → t.owner = s.owner) := by
  have hnone : (t.portAt s.me).st.holdsLock = false := by rw [ht]; rfl
  cases h
  case same ho hh =>
    refine ⟨fun hm => ?_, fun _ => ho⟩
    rw [hnone, hlock.mp hm] at hh
    cases hh
  case acquire _ _ hh => simp [hnone] at hh
  case release hs ho _ => exact ⟨fun _ => ho, fun hm => absurd (hlock.mpr hs) hm⟩

/-- The same for every turn of a consistent machine: one of the SPSC variant has no lock (R23). -/
theorem moved_released (hI : s.Inv) (hc : Coherent i s) (h : Moved i s t) (ht : (t.portAt s.me).st = .done) :
    (s.owner = some s.me → t.owner = none) ∧ (s.owner ≠ some s.me → t.owner = s.owner) := by
  cases hv : s.cfg.variant
  case spsc =>
    obtain ⟨hnone, _⟩ := (hI.spsc hv).no_mpmc_state
    obtain ⟨ho, _⟩ := moved_owner_size h ((kind_variant hc).1 hv)
    simp [ho, hnone]
  case mpmc =>
    have hl := moved_lock h (hI.typed.port_count ▸ hc.me_lt) ((kind_variant hc).2 hv)
    exact hl.released ((hI.mpmc hv).lock s.me) ht

end

/-- What the failing completion of the command in turn leaves (R246). -/
theorem exec_failing {i : Instr} {s t : State} (hI : s.Inv) (hc : Coherent i s) (h : exec i s = .next t)
    (hs : s.cur.st ≠ .done) (ht : (t.portAt s.me).st = .done) (hok : (t.portAt s.me).rspOk = false) :
    s.queueKept t ∧ t.now = s.now ∧ s.waitersKept t ∧ (∀ r, r ≠ s.me → t.portAt r = s.portAt r) ∧
    (s.owner = some s.me → t.owner = none) ∧ (s.owner ≠ some s.me → t.owner = s.owner) ∧
    (s.cur.st ≠ .idle → t.portAt s.me = s.cur.completed false (t.portAt s.me).rspCause) := by
  have hm := exec_moved h
  have hme : s.me < s.ports.length := hI.typed.port_count ▸ hc.me_lt
  obtain ⟨⟨hxfer, hadv, hsig⟩, hrecord⟩ := own_failingTurn (exec_own hI hc h) hs ht hok
  obtain ⟨hwait, hother⟩ := (moved_wait hm hme fun _ _ hw => (inv_waitSet hI hw).1).quiet hsig ht
  obtain ⟨hheld, hfree⟩ := moved_released hI hc hm ht
  exact ⟨(moved_queue hm hme).kept ⟨hxfer, hadv⟩, moved_now hm, hwait, hother, hheld, hfree, hrecord⟩

/-- Only a turn of the port itself brings it to `DONE`. -/
theorem turn_of_step_to_done {s t : State} {p : Nat} (hI : s.Inv) (h : step s = .next t) (hs : (s.portAt p).st ≠ .done)
    (ht : (t.portAt p).st = .done) : ∃ a i, decode s.cfg p (s.takeEvent.withTurn p a).commandWord = .ok i ∧
      exec i (s.takeEvent.withTurn p a) = .next t := by
  have hturn : ∃ a, s.nextEvent = .turn p a := by
    have hport := step_port hI h p
    generalize t.portAt p = q at hport ht
    cases hport with
    | keep _ => exact absurd ht hs
    | reset _ _ => simp at ht
    | wake _ _ => simp at ht
    | turn a i he _ _ _ => exact ⟨a, he⟩
  obtain ⟨a, he⟩ := hturn
  rcases (step_next h).2 with ⟨he', _⟩ | ⟨he', _⟩ | ⟨r, b, i, he', hd, hx⟩
  · simp [he] at he'
  · simp [he] at he'
  · cases he.symm.trans he'
    exact ⟨a, i, hd, hx⟩

/-- Settles O54: the step is a turn of the port, and none of the steps that fail changes more than its record and the lock. -/
theorem failureChangesNothingElse : Obligations.FailureChangesNothingElse := by
  intro s t p hI h hs ht hok
  obtain ⟨a, i, hd, hx⟩ := turn_of_step_to_done hI h hs ht
  obtain ⟨hI', hc⟩ := turn_coherent hI hd
  exact exec_failing hI' hc hx hs ht hok

end Sys2Proof.Machine
end

section
/-! SUPPORT. An SPSC command whose port takes its turns undisturbed (R133, R135): its steps one after another, each as
IssueLatches, SpscEnqSteps and SpscDeqSteps state it, and the contents they leave against the abstract queue. -/

namespace Sys2Proof.Machine

/-! ### Full and empty as counts (R24) -/

/-- The queue is full when it holds `CAPACITY - 1` elements (R25). -/
theorem adv_eq_iff_full {c : Config} {wi ri : Nat} (hw : wi < c.capacity) (hr : ri < c.capacity) :
    adv c wi = ri ↔ c.capacity - 1 ≤ indexGap c.capacity wi ri := by
  rw [adv_eq c hw]
  unfold indexGap
  split <;> split <;> omega

theorem eq_iff_indexGap_zero {cap wi ri : Nat} (hr : ri < cap) : wi = ri ↔ indexGap cap wi ri = 0 := by
  unfold indexGap
  split <;> omega

/-! ### The elements held after a command -/

/-- The elements held depend on what the slots hold, not on how they are listed. -/
theorem held_congr {m m' : List (Nat × Nat)} (h : ∀ j, slotAt m j = slotAt m' j) (c : Config) (ri n : Nat) :
    held m c ri n = held m' c ri n := by
  simp only [held, h]

theorem contents_spsc {s : State} (hv : s.cfg.variant = .spsc) :
    s.contents = held s.storage s.cfg s.ri (indexGap s.cfg.capacity s.wi s.ri) := by
  rw [contents_held, count_spsc hv]

section
variable {s : State} (hI : s.Inv) (hv : s.cfg.variant = .spsc)
include hI hv

theorem length_contents_spsc : s.contents.length = indexGap s.cfg.capacity s.wi s.ri := by
  rw [length_contents hI, count_spsc hv]

/-- An element stored in slot `wi` of a queue that is not full is the last one once `wi` has advanced (R125, R126). -/
theorem held_after_enqueue (v : Nat) (hne : adv s.cfg s.wi ≠ s.ri) :
    held (putSlot s.storage s.wi v) s.cfg s.ri (indexGap s.cfg.capacity (adv s.cfg s.wi) s.ri) = s.contents ++ [v] := by
  have hw := hI.typed.wi_lt
  have hr := hI.typed.ri_lt
  have hput := held_putSlot s.storage s.cfg v hr (indexGap_lt hw hr)
  rw [add_indexGap hw hr] at hput
  rw [indexGap_adv_wi hw hr hne, held_snoc, add_indexGap hw hr, hput, slotAt_putSlot_same, contents_spsc hv]
  rfl

/-- The head of a queue that is not empty is in slot `ri`, and the rest is held from `adv(ri)` on (R129, R130). -/
theorem head_of_contents {v : Nat} {rest : List Nat} (h : s.contents = v :: rest) :
    s.wi ≠ s.ri ∧ slotAt s.storage s.ri = some v ∧
      held s.storage s.cfg (adv s.cfg s.ri) (indexGap s.cfg.capacity s.wi (adv s.cfg s.ri)) = rest := by
  have hw := hI.typed.wi_lt
  have hr := hI.typed.ri_lt
  have hne : s.wi ≠ s.ri := fun e => by
    have hlen := length_contents_spsc hI hv
    rw [h, (eq_iff_indexGap_zero hr).mp e] at hlen
    cases hlen
  have hpos : 0 < s.count := by
    rw [← length_contents hI, h]
    exact Nat.succ_pos _
  obtain ⟨u, hu⟩ := Option.isSome_iff_exists.mp (inv_filled hI 0 hpos)
  rw [Nat.add_zero, Nat.mod_eq_of_lt hr] at hu
  rw [contents_spsc hv, ← indexGap_adv_ri hw hr hne, held_cons, Nat.mod_eq_of_lt hr, hu] at h
  obtain ⟨rfl, hrest⟩ := List.cons.inj h
  exact ⟨hne, hu, hrest⟩

end

/-! ### The turns of one port, one after another -/

theorem runActs_nil (i : Instr) (s : State) : runActs i [] s = .next s := rfl

theorem runActs_cons {i : Instr} {a : Act} {s t : State} (h : exec i (s.withTurn s.me a) = .next t) (as : List Act) :
    runActs i (a :: as) s = runActs i as t := by
  simp only [runActs, h]

/-- From `s` to `t` only the port in turn took steps: the indices are now `wi` and `ri`, the slots hold what `m` lists, and
the other ports are as they were. -/
structure Undisturbed (s t : State) (wi ri : Nat) (m : List (Nat × Nat)) : Prop where
  cfg : t.cfg = s.cfg
  me : t.me = s.me
  length : t.ports.length = s.ports.length
  wi : t.wi = wi
  ri : t.ri = ri
  slots : ∀ j, slotAt t.storage j = slotAt m j
  others : ∀ r, r ≠ s.me → t.portAt r = s.portAt r

theorem undisturbed_self (s : State) : Undisturbed s s s.wi s.ri s.storage :=
  ⟨rfl, rfl, rfl, rfl, rfl, fun _ => rfl, fun _ _ => rfl⟩

section
variable {s t u : State} {wi ri : Nat} {m : List (Nat × Nat)} (h : Undisturbed s t wi ri m)
include h

/-- One more turn of the port. -/
theorem Undisturbed.turn {a : Act} {q : Port} {wi' ri' : Nat} {m' : List (Nat × Nat)}
    (hrest : (t.withTurn t.me a).restKept u) (hport : (t.withTurn t.me a).portBecomes u t.me q) (hw : u.wi = wi')
    (hr : u.ri = ri') (hm : ∀ j, slotAt u.storage j = slotAt m' j) : Undisturbed s u wi' ri' m' ∧ u.cur = q := by
  obtain ⟨hcfg, _, hsel, _, _⟩ := hrest
  obtain ⟨hlen, hports⟩ := hport
  have hme : u.me = t.me := by rw [State.me, hsel, withTurn_sel]
  refine ⟨⟨hcfg.trans h.cfg, hme.trans h.me, hlen.trans h.length, hw, hr, hm, fun r hr => ?_⟩, ?_⟩
  · exact (hports r).trans ((if_neg (h.me ▸ hr)).trans (h.others r hr))
  · exact (hports u.me).trans (if_pos hme)

/-- One more turn, which changes only the port's record. -/
theorem Undisturbed.onlyPort {a : Act} {q : Port} (ho : (t.withTurn t.me a).onlyPort u q) :
    Undisturbed s u wi ri m ∧ u.cur = q := by
  obtain ⟨⟨hw, hr, _, hm⟩, _, _, hrest, hport⟩ := ho
  exact h.turn hrest hport (hw.trans h.wi) (hr.trans h.ri) fun j => (hm j).trans (h.slots j)

theorem Undisturbed.turnIn (hme : s.me < s.ports.length) {st : PState} (hs : t.cur.st = st) (alt : Bool) (k : Nat) :
    (t.withTurn t.me (.move alt k)).turnIn st :=
  ⟨by simpa [h.me, h.length] using hme, hs, alt, k, rfl⟩

theorem Undisturbed.contents (hv : s.cfg.variant = .spsc) :
    t.contents = held m s.cfg ri (indexGap s.cfg.capacity wi ri) := by
  rw [contents_held, count_spsc (h.cfg ▸ hv), h.cfg, h.wi, h.ri, held_congr h.slots]

end

/-! ### The four runs -/

section
variable {s : State} (hv : s.cfg.variant = .spsc) (hme : s.me < s.ports.length) (hs : s.cur.st = .idle)
  (cw d tmo : Nat) (alt : Bool) (k : Nat)
include hv hme hs

/-- The `ISSUE` of a run (R123). -/
theorem undisturbed_issue {i : Instr} (hf : firstState i = some .check) :
    ∃ t, exec i (s.withTurn s.me (.issue cw)) = .next t ∧ Undisturbed s t s.wi s.ri s.storage ∧ t.cur.st = .check ∧
      t.cur.data = i.data := by
  obtain ⟨t, n, hx, ho⟩ := issue_latches (s := s.withTurn s.me (.issue cw)) hv hme rfl hs hf
  obtain ⟨hu, hcur⟩ := (undisturbed_self s).onlyPort ho
  exact ⟨t, hx, hu, by rw [hcur], by rw [hcur, latch_data]⟩

/-- An enqueue on a full queue: `P_CHECK` fails (R124). -/
theorem run_spscEnq_full (hfull : adv s.cfg s.wi = s.ri) :
    ∃ t, runActs (.spscEnq d tmo) [.issue cw, .move alt k] s = .next t ∧ Undisturbed s t s.wi s.ri s.storage ∧
      t.cur.st = .done ∧ t.cur.rspOk = false ∧ t.cur.rspCause = .full := by
  obtain ⟨t₁, hx₁, h₁, hst₁, _⟩ := undisturbed_issue hv hme hs cw (i := .spscEnq d tmo) rfl
  have hg : adv t₁.cfg t₁.wi = t₁.ri := by rwa [h₁.cfg, h₁.wi, h₁.ri]
  obtain ⟨t₂, hx₂, ho₂⟩ := (spscEnqSteps.1 _ d tmo (h₁.turnIn hme hst₁ alt k)).1 hg
  obtain ⟨h₂, hcur₂⟩ := h₁.onlyPort ho₂
  exact ⟨t₂, by rw [runActs_cons hx₁, runActs_cons hx₂, runActs_nil], h₂,
    by rw [hcur₂], by rw [hcur₂], by rw [hcur₂]⟩

/-- An enqueue on a queue that is not full: `P_CHECK`, `P_WRITE`, `P_ADV` (R124, R125, R126). -/
theorem run_spscEnq_room (hw : s.wi < s.cfg.capacity) (hroom : adv s.cfg s.wi ≠ s.ri) :
    ∃ t, runActs (.spscEnq d tmo) [.issue cw, .move alt k, .move alt k, .move alt k] s = .next t ∧
      Undisturbed s t (adv s.cfg s.wi) s.ri (putSlot s.storage s.wi d) ∧
      t.cur.st = .done ∧ t.cur.rspOk = true ∧ t.cur.rspCause = .none := by
  obtain ⟨t₁, hx₁, h₁, hst₁, hdata₁⟩ := undisturbed_issue hv hme hs cw (i := .spscEnq d tmo) rfl
  have hg : adv t₁.cfg t₁.wi ≠ t₁.ri := by rwa [h₁.cfg, h₁.wi, h₁.ri]
  obtain ⟨t₂, hx₂, ho₂⟩ := (spscEnqSteps.1 _ d tmo (h₁.turnIn hme hst₁ alt k)).2 hg
  obtain ⟨h₂, hcur₂⟩ := h₁.onlyPort ho₂
  have hdata₂ : t₂.cur.data = d := by rw [hcur₂]; exact hdata₁
  have hw₂ : t₂.wi < t₂.cfg.capacity := by rwa [h₂.wi, h₂.cfg]
  obtain ⟨t₃, hx₃, hslot, hslots, hw₃, hr₃, _, _, _, hrest₃, hport₃⟩ :=
    (spscEnqSteps.2 _ d tmo).1 (h₂.turnIn hme (by rw [hcur₂]) alt k) hw₂
  have hput : ∀ j, slotAt t₃.storage j = slotAt (putSlot s.storage s.wi d) j := by
    intro j
    rw [slotAt_putSlot]
    by_cases hj : j = s.wi
    · rw [if_pos hj, hj, ← h₂.wi, ← hdata₂]
      exact hslot
    · rw [if_neg hj, ← h₂.slots]
      exact hslots j (h₂.wi ▸ hj)
  obtain ⟨h₃, hcur₃⟩ := h₂.turn hrest₃ hport₃ (hw₃.trans h₂.wi) (hr₃.trans h₂.ri) hput
  obtain ⟨t₄, hx₄, hw₄, hr₄, _, hm₄, _, _, hrest₄, hport₄⟩ :=
    (spscEnqSteps.2 _ d tmo).2 (h₃.turnIn hme (by rw [hcur₃]) alt k)
  have hadv : t₄.wi = adv s.cfg s.wi := by rw [hw₄, withTurn_wi, withTurn_cfg, h₃.wi, h₃.cfg, adv]
  obtain ⟨h₄, hcur₄⟩ := h₃.turn hrest₄ hport₄ hadv (hr₄.trans h₃.ri) fun j => (hm₄ j).trans (h₃.slots j)
  exact ⟨t₄, by rw [runActs_cons hx₁, runActs_cons hx₂, runActs_cons hx₃, runActs_cons hx₄, runActs_nil], h₄,
    by rw [hcur₄], by rw [hcur₄], by rw [hcur₄]⟩

/-- A dequeue on an empty queue: `C_CHECK` fails (R128). -/
theorem run_spscDeq_empty (hempty : s.wi = s.ri) :
    ∃ t, runActs (.spscDeq d tmo) [.issue cw, .move alt k] s = .next t ∧ Undisturbed s t s.wi s.ri s.storage ∧
      t.cur.st = .done ∧ t.cur.rspOk = false ∧ t.cur.rspCause = .empty := by
  obtain ⟨t₁, hx₁, h₁, hst₁, _⟩ := undisturbed_issue hv hme hs cw (i := .spscDeq d tmo) rfl
  have hg : t₁.wi = t₁.ri := by rwa [h₁.wi, h₁.ri]
  obtain ⟨t₂, hx₂, ho₂⟩ := (spscDeqSteps.1 _ d tmo (h₁.turnIn hme hst₁ alt k)).1 hg
  obtain ⟨h₂, hcur₂⟩ := h₁.onlyPort ho₂
  exact ⟨t₂, by rw [runActs_cons hx₁, runActs_cons hx₂, runActs_nil], h₂,
    by rw [hcur₂], by rw [hcur₂], by rw [hcur₂]⟩

/-- A dequeue on a queue that is not empty: `C_CHECK`, `C_READ`, `C_ADV` (R128, R129, R130). -/
theorem run_spscDeq_some (hr : s.ri < s.cfg.capacity) (hne : s.wi ≠ s.ri) {v : Nat}
    (hslot : slotAt s.storage s.ri = some v) :
    ∃ t, runActs (.spscDeq d tmo) [.issue cw, .move alt k, .move alt k, .move alt k] s = .next t ∧
      Undisturbed s t s.wi (adv s.cfg s.ri) s.storage ∧
      t.cur.st = .done ∧ t.cur.rspOk = true ∧ t.cur.rspCause = .none ∧ t.cur.rspData = v := by
  obtain ⟨t₁, hx₁, h₁, hst₁, _⟩ := undisturbed_issue hv hme hs cw (i := .spscDeq d tmo) rfl
  have hg : t₁.wi ≠ t₁.ri := by rwa [h₁.wi, h₁.ri]
  obtain ⟨t₂, hx₂, ho₂⟩ := (spscDeqSteps.1 _ d tmo (h₁.turnIn hme hst₁ alt k)).2 hg
  obtain ⟨h₂, hcur₂⟩ := h₁.onlyPort ho₂
  have hr₂ : t₂.ri < t₂.cfg.capacity := by rwa [h₂.ri, h₂.cfg]
  have hv₂ : slotAt t₂.storage t₂.ri = some v := by rw [h₂.slots, h₂.ri, hslot]
  obtain ⟨t₃, hx₃, ho₃⟩ := (spscDeqSteps.2 _ d tmo v).1 (h₂.turnIn hme (by rw [hcur₂]) alt k) hr₂ hv₂
  obtain ⟨h₃, hcur₃⟩ := h₂.onlyPort ho₃
  obtain ⟨t₄, hx₄, hr₄, hw₄, _, hm₄, _, _, hrest₄, hport₄⟩ :=
    (spscDeqSteps.2 _ d tmo v).2 (h₃.turnIn hme (by rw [hcur₃]) alt k)
  have hadv : t₄.ri = adv s.cfg s.ri := by rw [hr₄, withTurn_ri, withTurn_cfg, h₃.ri, h₃.cfg, adv]
  obtain ⟨h₄, hcur₄⟩ := h₃.turn hrest₄ hport₄ (hw₄.trans h₃.wi) hadv fun j => (hm₄ j).trans (h₃.slots j)
  have hdata : t₄.cur.rspData = v := by rw [hcur₄]; exact congrArg Port.rspData hcur₃
  exact ⟨t₄, by rw [runActs_cons hx₁, runActs_cons hx₂, runActs_cons hx₃, runActs_cons hx₄, runActs_nil], h₄,
    by rw [hcur₄], by rw [hcur₄], by rw [hcur₄], hdata⟩

end

/-! ### Against the abstract queue -/

/-- The record of the port in turn, and of the other port, after such a run. -/
theorem Undisturbed.ports {s t : State} {wi ri : Nat} {m : List (Nat × Nat)} (h : Undisturbed s t wi ri m) {p r : Nat}
    (hp : s.me = p) (hr : r ≠ p) : t.cur = t.portAt p ∧ t.portAt r = s.portAt r := by
  subst hp
  exact ⟨by rw [State.cur, h.me], h.others r hr⟩

/-- Settles O31: full and empty are read off the number of elements held, the run of each case is known, and so are the
contents it leaves. -/
theorem spscSequential : Obligations.SpscSequential := by
  intro s cw d tmo alt k hI hv hs
  have hw := hI.typed.wi_lt
  have hr := hI.typed.ri_lt
  have hports : s.ports.length = 2 := by simp [hI.typed.port_count, Config.numPorts, hv]
  have hlen := length_contents_spsc hI hv
  refine ⟨fun hp => ?_, fun hp => ?_⟩
  · have hme : s.me < s.ports.length := by rw [hp, hports]; decide
    refine ⟨fun hroom => ?_, fun hfull => ?_⟩
    · have hne : adv s.cfg s.wi ≠ s.ri := fun e => Nat.not_le_of_lt (hlen ▸ hroom) ((adv_eq_iff_full hw hr).mp e)
      obtain ⟨t, hx, ht, hst, hok, hcause⟩ := run_spscEnq_room hv hme hs cw d tmo alt k hw hne
      obtain ⟨hcur, hother⟩ := ht.ports hp (r := portC) (by decide)
      rw [hcur] at hst hok hcause
      exact ⟨t, hx, hst, hok, hcause, (ht.contents hv).trans (held_after_enqueue hI hv d hne), hother⟩
    · obtain ⟨t, hx, ht, hst, hok, hcause⟩ :=
        run_spscEnq_full hv hme hs cw d tmo alt k ((adv_eq_iff_full hw hr).mpr (hlen ▸ hfull))
      obtain ⟨hcur, hother⟩ := ht.ports hp (r := portC) (by decide)
      rw [hcur] at hst hok hcause
      exact ⟨t, hx, hst, hok, hcause, (ht.contents hv).trans (contents_spsc hv).symm, hother⟩
  · have hme : s.me < s.ports.length := by rw [hp, hports]; decide
    refine ⟨fun v rest hcontents => ?_, fun hempty => ?_⟩
    · obtain ⟨hne, hslot, hrest⟩ := head_of_contents hI hv hcontents
      obtain ⟨t, hx, ht, hst, hok, hcause, hdata⟩ := run_spscDeq_some hv hme hs cw d tmo alt k hr hne hslot
      obtain ⟨hcur, hother⟩ := ht.ports hp (r := portP) (by decide)
      rw [hcur] at hst hok hcause hdata
      exact ⟨t, hx, hst, hok, hcause, hdata, (ht.contents hv).trans hrest, hother⟩
    · rw [hempty] at hlen
      obtain ⟨t, hx, ht, hst, hok, hcause⟩ :=
        run_spscDeq_empty hv hme hs cw d tmo alt k ((eq_iff_indexGap_zero hr).mpr hlen.symm)
      obtain ⟨hcur, hother⟩ := ht.ports hp (r := portP) (by decide)
      rw [hcur] at hst hok hcause
      exact ⟨t, hx, hst, hok, hcause, (ht.contents hv).trans ((contents_spsc hv).symm.trans hempty), hother⟩

end Sys2Proof.Machine
end

section
/-! SUPPORT. The steps of 41_mpmc_primitives.md: which step a turn of an MPMC command takes in each state of its port, said
once for the commands that share it, and what that step leaves; before them the tick (R165, R293). -/

namespace Sys2Proof.Machine

/-! ### The tick -/

/-- R293, as a statement about the ports. -/
theorem tickWraps_iff (s : State) : s.tickWraps = true ↔ s.cfg.variant = .mpmc ∧
    ∃ q ∈ s.ports, q.inFlight = true ∧ 2 ^ s.cfg.tw - 2 ^ s.cfg.tow ≤ s.now + 1 - q.start := by
  simp [State.tickWraps]

theorem step_of_tick {s : State} (hl : s.cfg.Legal) (he : s.nextEvent = .tick) : step s = tick s.takeEvent := by
  simp only [step, if_pos hl, he]

/-- Settles O9: by whether the tick would wrap the time base, which is what the two clauses differ in. -/
theorem tickStep : Obligations.TickStep := by
  intro s hl he
  rw [step_of_tick hl he, tick]
  refine ⟨fun hwrap => if_pos ((tickWraps_iff _).mpr hwrap), fun hnot => ?_⟩
  exact ⟨_, if_neg fun hwrap => hnot ((tickWraps_iff _).mp hwrap), rfl, ⟨rfl, rfl, rfl, fun _ => rfl⟩, rfl, ⟨rfl, rfl⟩,
    rfl, rfl⟩

/-! ### What a step leaves that changes the record of its port and the lock -/

section
variable {s : State} (h : s.me < s.ports.length)
include h

theorem portAndOwner_goto (o : Option Nat) (st : PState) :
    s.portAndOwner ({ s with owner := o }.goto st) o { s.cur with st := st } :=
  ⟨⟨rfl, rfl, rfl, fun _ => rfl⟩, rfl, ⟨rfl, rfl⟩, ⟨rfl, rfl, rfl, rfl, rfl⟩,
    portBecomes_goto (s := { s with owner := o }) h st⟩

theorem portAndOwner_complete (o : Option Nat) (ok : Bool) (c : Cause) :
    s.portAndOwner (complete ok c { s with owner := o }) o (s.cur.completed ok c) :=
  ⟨⟨rfl, rfl, rfl, fun _ => rfl⟩, rfl, ⟨rfl, rfl⟩, ⟨rfl, rfl, rfl, rfl, rfl⟩,
    portBecomes_complete (s := { s with owner := o }) h ok c⟩

theorem portAndOwner_updPort_goto (o : Option Nat) (f : Port → Port) (st : PState) :
    s.portAndOwner (({ s with owner := o }.updPort s.me f).goto st) o { f s.cur with st := st } :=
  ⟨⟨rfl, rfl, rfl, fun _ => rfl⟩, rfl, ⟨rfl, rfl⟩, ⟨rfl, rfl, rfl, rfl, rfl⟩,
    portBecomes_updPort_goto (s := { s with owner := o }) h f st⟩

end

/-! ### What a step leaves that enters or leaves a wait set -/

section
variable {s : State} (h : s.me < s.ports.length) (dir : Dir)
include h

theorem enterWait_leaves : s.queueKept (enterWait dir s) ∧ (enterWait dir s).owner = none ∧
    (∀ c, c ≠ waitsOn dir → (enterWait dir s).waitSet c = s.waitSet c) ∧
    (∀ r, r ∈ (enterWait dir s).waitSet (waitsOn dir) ↔ r = s.me ∨ r ∈ s.waitSet (waitsOn dir)) ∧
    s.restKept (enterWait dir s) ∧ s.portBecomes (enterWait dir s) s.me { s.cur with st := .cwait } := by
  have hother : ∀ c, c ≠ waitsOn dir → (enterWait dir s).waitSet c = s.waitSet c := by
    intro c hc
    rw [enterWait, waitSet_goto, setWaitSet_waitSet_other _ _ hc]
    cases c <;> rfl
  have hown : ∀ r, r ∈ (enterWait dir s).waitSet (waitsOn dir) ↔ r = s.me ∨ r ∈ s.waitSet (waitsOn dir) := by
    intro r
    rw [enterWait, waitSet_goto, setWaitSet_waitSet_same, mem_insertWaiter]
  cases dir <;>
    exact ⟨⟨rfl, rfl, rfl, fun _ => rfl⟩, rfl, hother, hown, ⟨rfl, rfl, rfl, rfl, rfl⟩, portBecomes_goto h .cwait⟩

theorem leaveWait_leaves : s.queueKept (leaveWait dir s) ∧ (leaveWait dir s).owner = s.owner ∧
    (∀ c, c ≠ waitsOn dir → (leaveWait dir s).waitSet c = s.waitSet c) ∧
    (∀ r, r ∈ (leaveWait dir s).waitSet (waitsOn dir) ↔ r ∈ s.waitSet (waitsOn dir) ∧ r ≠ s.me) ∧
    s.restKept (leaveWait dir s) ∧ s.portBecomes (leaveWait dir s) s.me { s.cur with st := .reacq } := by
  have hother : ∀ c, c ≠ waitsOn dir → (leaveWait dir s).waitSet c = s.waitSet c := by
    intro c hc
    rw [leaveWait, waitSet_goto, setWaitSet_waitSet_other _ _ hc]
  have hown : ∀ r, r ∈ (leaveWait dir s).waitSet (waitsOn dir) ↔ r ∈ s.waitSet (waitsOn dir) ∧ r ≠ s.me := by
    intro r
    rw [leaveWait, waitSet_goto, setWaitSet_waitSet_same, mem_removeWaiter]
  cases dir <;>
    exact ⟨⟨rfl, rfl, rfl, fun _ => rfl⟩, rfl, hother, hown, ⟨rfl, rfl, rfl, rfl, rfl⟩, portBecomes_goto h .reacq⟩

end

/-! ### The four executed commands -/

/-- The MPMC commands by the two bits of their operation code (R92, R98): timed or not, and the direction. -/
inductive MpmcKind : Instr → Bool → Dir → Prop where
  | enq (d tmo : Nat) : MpmcKind (.mpmcEnq d tmo) false .enq
  | deq (d tmo : Nat) : MpmcKind (.mpmcDeq d tmo) false .deq
  | enqt (d tmo : Nat) : MpmcKind (.mpmcEnqt d tmo) true .enq
  | deqt (d tmo : Nat) : MpmcKind (.mpmcDeqt d tmo) true .deq

theorem MpmcKind.op_eq {i : Instr} {timed : Bool} {dir : Dir} (hk : MpmcKind i timed dir) : i.op = opOf false timed dir := by
  cases hk <;> rfl

theorem mpmcKind_of_nonblocking {i : Instr} {d tmo : Nat} (hi : i = .mpmcEnq d tmo ∨ i = .mpmcDeq d tmo) :
    ∃ dir, MpmcKind i false dir := by
  rcases hi with rfl | rfl
  · exact ⟨_, .enq d tmo⟩
  · exact ⟨_, .deq d tmo⟩

theorem mpmcKind_of_timed {i : Instr} {d tmo : Nat} (hi : i = .mpmcEnqt d tmo ∨ i = .mpmcDeqt d tmo) :
    ∃ dir, MpmcKind i true dir := by
  rcases hi with rfl | rfl
  · exact ⟨_, .enqt d tmo⟩
  · exact ⟨_, .deqt d tmo⟩

/-! ### Which step a command takes -/

section
variable {i : Instr} {s : State} {timed : Bool} {dir : Dir}

/-- R152 is the step of the nonblocking commands. -/
theorem exec_acqTry (hk : MpmcKind i false dir) (h : s.turnIn .acqTry) : exec i s = lockTry s := by
  obtain ⟨_, hs, alt, wake, ha⟩ := h
  cases hk <;> simp only [exec, execMpmcEnq, execMpmcDeq, ha, hs]

/-- R153 and R154, R162 and R163, R155: where a timed command waits. -/
theorem exec_timed_waits (hk : MpmcKind i true dir) {alt : Bool} {k : Nat} (ha : s.sel.act = .move alt k) :
    (s.cur.st = .acqTimed → exec i s = if alt then lockExpire s else lockGrant s) ∧
    (s.cur.st = .cwait → exec i s = if alt then wakeSpurious dir s else wakeDeadline dir s) ∧
    (s.cur.st = .reacq → exec i s = lockReacq s) := by
  cases hk with
  | enqt d tmo => simpa only [Instr.op, opDir_2] using exec_timed_waiting (d := d) (tmo := tmo) (.inl rfl) ha
  | deqt d tmo => simpa only [Instr.op, opDir_3] using exec_timed_waiting (d := d) (tmo := tmo) (.inr rfl) ha

@[simp] theorem enq_beq_deq : (Dir.enq == Dir.deq) = false := rfl

/-- R157; the legacy budget is that of DEQT alone (R221). -/
theorem exec_elapsed (hk : MpmcKind i true dir) (h : s.turnIn .elapsed) :
    exec i s = judgeElapsed (s.cfg.legacyDeqBudget && dir == .deq) s := by
  obtain ⟨_, hs, alt, wake, ha⟩ := h
  cases hk <;> simp [exec, execMpmcEnqt, execMpmcDeqt, ha, hs]

theorem exec_pred_nonblocking (hk : MpmcKind i false dir) (h : s.turnIn .pred) :
    exec i s = predNonblocking dir s := by
  obtain ⟨_, hs, alt, wake, ha⟩ := h
  cases hk <;> simp only [exec, execMpmcEnq, execMpmcDeq, ha, hs]

theorem exec_pred_timed (hk : MpmcKind i true dir) (h : s.turnIn .pred) : exec i s = predTimed dir s := by
  obtain ⟨_, hs, alt, wake, ha⟩ := h
  cases hk <;> simp only [exec, execMpmcEnqt, execMpmcDeqt, ha, hs]

/-- R166 is the step of both enqueues. -/
theorem exec_enq_xfer (hk : MpmcKind i timed .enq) (h : s.turnIn .xfer) : exec i s = doEnq s := by
  obtain ⟨_, hs, alt, wake, ha⟩ := h
  cases hk <;> simp only [exec, execMpmcEnq, execMpmcEnqt, ha, hs]

/-- R167 is the step of both dequeues. -/
theorem exec_deq_xfer (hk : MpmcKind i timed .deq) (h : s.turnIn .xfer) : exec i s = doDeq s := by
  cases hk with
  | deq d tmo => exact exec_mpmcDeq_xfer d tmo (.inl rfl) h
  | deqt d tmo => exact exec_mpmcDeq_xfer d tmo (.inr rfl) h

/-- R156 is a step of all four. -/
theorem exec_rel (hk : MpmcKind i timed dir) (h : s.turnIn .rel) : exec i s = unlock s := by
  obtain ⟨_, hs, alt, wake, ha⟩ := h
  cases hk <;> simp only [exec, execMpmcEnq, execMpmcDeq, execMpmcEnqt, execMpmcDeqt, ha, hs]

/-- R161 is a step of all four. -/
theorem exec_sig (hk : MpmcKind i timed dir) {alt : Bool} {k : Nat} (ha : s.sel.act = .move alt k)
    (hs : s.cur.st = .sig) : exec i s = signal dir k s := by
  cases hk <;> simp only [exec, execMpmcEnq, execMpmcDeq, execMpmcEnqt, execMpmcDeqt, ha, hs]

end

/-! ### The lock (R152 to R156) -/

section
variable {i : Instr} {s : State} {timed : Bool} {dir : Dir}

theorem lockReacq_free (hk : MpmcKind i true dir) (h : s.turnIn .reacq) (hg : s.owner = none) :
    ∃ t, exec i s = .next t ∧ s.portAndOwner t (some s.me) { s.cur with st := .pred } := by
  obtain ⟨hme, hs, alt, wake, ha⟩ := h
  exact ⟨_, by rw [(exec_timed_waits hk ha).2.2 hs, lockReacq, if_pos hg], portAndOwner_goto hme _ _⟩

theorem unlock_leaves (hk : MpmcKind i timed dir) (h : s.turnIn .rel) :
    ∃ t, exec i s = .next t ∧ s.portAndOwner t none { s.cur with st := .sig } :=
  ⟨_, exec_rel hk h, portAndOwner_goto h.1 _ _⟩

end

/-- Settles O19: the step of each turn is known, and so is the record it leaves. -/
theorem lockSteps : Obligations.LockSteps := by
  refine ⟨fun i s d tmo hi h => ?_, fun i s d tmo wake hi hme hs => ?_, fun i s d tmo hi h hg => ?_,
    fun i s d tmo hi h => ?_⟩
  · obtain ⟨dir, hk⟩ := mpmcKind_of_nonblocking hi
    exact ⟨fun hg => ⟨_, by rw [exec_acqTry hk h, lockTry, if_pos hg], portAndOwner_goto h.1 _ _⟩,
      fun hg => ⟨_, by rw [exec_acqTry hk h, lockTry, if_neg hg], onlyPort_complete h.1 _ _⟩⟩
  · refine ⟨fun ha hg => ⟨_, ?_, portAndOwner_updPort_goto hme _ (fun q => { q with t1 := s.now }) _⟩,
      fun ha hg => ⟨_, ?_, onlyPort_complete hme _ _⟩⟩
    · rw [(exec_timed_waiting hi ha).1 hs, if_neg Bool.false_ne_true, lockGrant, if_pos hg]
    · rw [(exec_timed_waiting hi ha).1 hs, if_pos rfl, lockExpire, if_pos hg]
  · obtain ⟨dir, hk⟩ := mpmcKind_of_timed hi
    exact lockReacq_free hk h hg
  · rcases hi with rfl | rfl | rfl | rfl
    · exact unlock_leaves (.enq d tmo) h
    · exact unlock_leaves (.deq d tmo) h
    · exact unlock_leaves (.enqt d tmo) h
    · exact unlock_leaves (.deqt d tmo) h

/-! ### `ELAPSED` (R157, R221) -/

section
variable {i : Instr} {s : State} {dir : Dir} (hk : MpmcKind i true dir) (h : s.turnIn .elapsed)
include hk h

theorem elapsed_late (hg : s.cur.timeout ≤ s.cur.t1 - s.cur.start) :
    ∃ t, exec i s = .next t ∧ s.portAndOwner t none (s.cur.completed false .timeoutLock) :=
  ⟨_, by rw [exec_elapsed hk h, judgeElapsed, if_pos hg], portAndOwner_complete h.1 _ _ _⟩

theorem elapsed_inTime (hg : s.cur.t1 - s.cur.start < s.cur.timeout) {legacy : Bool}
    (hl : (s.cfg.legacyDeqBudget && dir == .deq) = legacy) :
    ∃ t, exec i s = .next t ∧
      s.onlyPort t { s.cur with deadline := deadlineOf legacy s.cur.start s.cur.t1 s.cur.timeout, st := .pred } :=
  ⟨_, by rw [exec_elapsed hk h, hl, judgeElapsed, if_neg (Nat.not_le_of_lt hg)],
    onlyPort_updPort_goto h.1 (fun q => { q with deadline := deadlineOf legacy q.start q.t1 q.timeout }) _⟩

end

/-- Settles O20: late or in time, and in time by which of the two budgets the command has. -/
theorem elapsedJudged : Obligations.ElapsedJudged := by
  intro s d tmo h
  exact ⟨fun hg => ⟨elapsed_late (.enqt d tmo) h hg, elapsed_late (.deqt d tmo) h hg⟩, fun hg =>
    ⟨elapsed_inTime (.enqt d tmo) h hg (legacy := false) (Bool.and_false _),
     fun hl => elapsed_inTime (.deqt d tmo) h hg (legacy := false) (by rw [hl, Bool.false_and]),
     fun hl => elapsed_inTime (.deqt d tmo) h hg (legacy := true) (by rw [hl]; rfl)⟩⟩

/-! ### `PRED` (R158, R160) -/

section
variable {i : Instr} {s : State} {timed : Bool} {dir : Dir} (h : s.turnIn .pred)
include h

/-- The first branch of R158, of all four commands. -/
theorem pred_holds (hk : MpmcKind i timed dir) (hg : s.pred dir = true) :
    ∃ t, exec i s = .next t ∧ s.onlyPort t { s.cur with st := .xfer } := by
  refine ⟨_, ?_, onlyPort_goto h.1 _⟩
  cases timed
  · rw [exec_pred_nonblocking hk h, predNonblocking, if_pos hg]
  · rw [exec_pred_timed hk h, predTimed, if_pos hg]

variable (hg : ¬ s.pred dir = true)
include hg

/-- The second branch. -/
theorem pred_fails (hk : MpmcKind i false dir) :
    ∃ t, exec i s = .next t ∧ s.portAndOwner t none (s.cur.completed false (failCause dir)) :=
  ⟨_, by rw [exec_pred_nonblocking hk h, predNonblocking, if_neg hg], portAndOwner_complete h.1 _ _ _⟩

/-- The third branch. -/
theorem pred_late (hk : MpmcKind i true dir) (hl : s.cur.deadline ≤ s.now) :
    ∃ t, exec i s = .next t ∧ s.portAndOwner t none (s.cur.completed false .timeoutWait) :=
  ⟨_, by rw [exec_pred_timed hk h, predTimed, if_neg hg, if_pos hl], portAndOwner_complete h.1 _ _ _⟩

/-- The fourth branch: the lock is released and the wait set entered (R160). -/
theorem pred_waits (hk : MpmcKind i true dir) (hl : s.now < s.cur.deadline) :
    ∃ t, exec i s = .next t ∧ s.queueKept t ∧ t.owner = none ∧ (∀ c, c ≠ waitsOn dir → t.waitSet c = s.waitSet c) ∧
      (∀ r, r ∈ t.waitSet (waitsOn dir) ↔ r = s.me ∨ r ∈ s.waitSet (waitsOn dir)) ∧ s.restKept t ∧
      s.portBecomes t s.me { s.cur with st := .cwait } := by
  refine ⟨_, ?_, enterWait_leaves h.1 dir⟩
  rw [exec_pred_timed hk h, predTimed, if_neg hg, if_neg (Nat.not_le_of_lt hl)]

end

theorem pred_enq_iff (s : State) : s.pred .enq = true ↔ s.size < s.cfg.capacity := decide_eq_true_iff

theorem pred_deq_iff (s : State) : s.pred .deq = true ↔ 0 < s.size := decide_eq_true_iff

theorem not_pred_deq {s : State} (h : s.size = 0) : ¬ s.pred .deq = true := by
  rw [pred_deq_iff, h]
  exact Nat.lt_irrefl 0

/-- Settles O21 (`predNonblocking` itself is the name of the step): each clause is a branch of R158. -/
theorem predNonblockingJudged : Obligations.PredNonblocking := by
  intro s d tmo h
  have henq := pred_enq_iff s
  have hdeq := pred_deq_iff s
  exact ⟨fun hg => pred_holds h (.enq d tmo) (henq.mpr hg), fun hg => pred_fails h (mt henq.mp hg) (.enq d tmo),
    fun hg => pred_holds h (.deq d tmo) (hdeq.mpr hg), fun hg => pred_fails h (not_pred_deq hg) (.deq d tmo)⟩

/-- Settles O22 (`predTimed` itself is the name of the step): each clause is a branch of R158. -/
theorem predTimedJudged : Obligations.PredTimed := by
  intro s d tmo h
  have henq := pred_enq_iff s
  have hdeq := pred_deq_iff s
  refine ⟨fun hg => pred_holds h (.enqt d tmo) (henq.mpr hg),
    fun hg => pred_late h (mt henq.mp hg) (.enqt d tmo), fun hg hl => ?_,
    fun hg => pred_holds h (.deqt d tmo) (hdeq.mpr hg),
    fun hg => pred_late h (not_pred_deq hg) (.deqt d tmo), fun hg hl => ?_⟩
  · obtain ⟨t, hx, hq, ho, hother, hentered, hrest, hport⟩ := pred_waits h (mt henq.mp hg) (.enqt d tmo) hl
    exact ⟨t, hx, hq, ho, hother .rtr (by decide), hentered, hrest, hport⟩
  · obtain ⟨t, hx, hq, ho, hother, hentered, hrest, hport⟩ := pred_waits h (not_pred_deq hg) (.deqt d tmo) hl
    exact ⟨t, hx, hq, ho, hother .rtw (by decide), hentered, hrest, hport⟩

/-! ### Leaving the wait set (R162, R163) -/

/-- The step of either exit, taken under its guard. -/
theorem wait_exits {i : Instr} {s : State} {dir : Dir} {k : Nat} (hk : MpmcKind i true dir) (hme : s.me < s.ports.length)
    (hs : s.cur.st = .cwait)
    (hg : s.sel.act = .move false k ∧ s.cur.deadline ≤ s.now ∨ s.sel.act = .move true k ∧ s.cfg.spuriousWake = true) :
    ∃ t, exec i s = .next t ∧ s.queueKept t ∧ t.owner = s.owner ∧ (∀ c, c ≠ waitsOn dir → t.waitSet c = s.waitSet c) ∧
      (∀ r, r ∈ t.waitSet (waitsOn dir) ↔ r ∈ s.waitSet (waitsOn dir) ∧ r ≠ s.me) ∧ s.restKept t ∧
      s.portBecomes t s.me { s.cur with st := .reacq } := by
  refine ⟨_, ?_, leaveWait_leaves hme dir⟩
  rcases hg with ⟨ha, hg⟩ | ⟨ha, hg⟩
  · rw [(exec_timed_waits hk ha).2.1 hs, if_neg Bool.false_ne_true, wakeDeadline, if_pos hg]
  · rw [(exec_timed_waits hk ha).2.1 hs, if_pos rfl, wakeSpurious, if_pos hg]

/-- Settles O23: both exits are the one step, and each direction has its own wait set. -/
theorem waitExits : Obligations.WaitExits := by
  intro s d tmo k hme hs hg
  obtain ⟨t, hx, hq, ho, hother, hleft, hrest, hport⟩ := wait_exits (.enqt d tmo) hme hs hg
  obtain ⟨u, hx', hq', ho', hother', hleft', hrest', hport'⟩ := wait_exits (.deqt d tmo) hme hs hg
  exact ⟨⟨t, hx, hq, ho, hother .rtr (by decide), hleft, hrest, hport⟩,
    u, hx', hq', ho', hother' .rtw (by decide), hleft', hrest', hport'⟩

/-! ### `DO_ENQ` (R166) -/

theorem doEnq_of_lt {s : State} (h : s.wi < s.cfg.capacity) :
    doEnq s = .next ({ s with
      storage := putSlot s.storage s.wi s.cur.data, wi := adv s.cfg s.wi, size := s.size + 1 }.goto .rel) := by
  simp only [doEnq, memWrite_of_lt s _ h]

/-- Settles O24 (`doEnq` itself is the name of the step): slot `wi` is written, `wi` and `size` move. -/
theorem doEnqStores : Obligations.DoEnq := by
  intro i s d tmo hi h hw
  have hx : exec i s = doEnq s := by
    rcases hi with rfl | rfl
    · exact exec_enq_xfer (.enq d tmo) h
    · exact exec_enq_xfer (.enqt d tmo) h
  exact ⟨_, hx.trans (doEnq_of_lt hw), slotAt_putSlot_same _ _ _, fun j hj => slotAt_putSlot_ne _ _ hj, rfl, rfl, rfl, rfl,
    ⟨rfl, rfl⟩, ⟨rfl, rfl, rfl, rfl, rfl⟩,
    portBecomes_goto (s := { s with
      storage := putSlot s.storage s.wi s.cur.data, wi := adv s.cfg s.wi, size := s.size + 1 }) h.1 _⟩

/-! ### `SIGNAL` (R161, R171) -/

@[simp] theorem wakeOne_sel (c : Condition) (k : Nat) (s : State) : (wakeOne c k s).sel = s.sel := by
  unfold wakeOne
  split <;> simp

@[simp] theorem wakeOne_script (c : Condition) (k : Nat) (s : State) : (wakeOne c k s).script = s.script := by
  unfold wakeOne
  split <;> simp

@[simp] theorem wakeOne_seq (c : Condition) (k : Nat) (s : State) : (wakeOne c k s).seq = s.seq := by
  unfold wakeOne
  split <;> simp

/-- The wait sets after a `SIGNAL`. -/
theorem waitSet_signal (s : State) (c d : Condition) (k : Nat) :
    (complete true .none (wakeOne c k s)).waitSet d =
      if d = c then removeWaiter (chooseWaiter (s.waitSet c) k) (s.waitSet c) else s.waitSet d := by
  rw [waitSet_complete, waitSet_wakeOne]

section
variable {s : State} {c : Condition} (hme : s.me < s.ports.length)
  (hws : ∀ w ∈ s.waitSet c, w < s.ports.length ∧ w ≠ s.me)
include hme hws

/-- The records after a `SIGNAL`: its own port's, and that of the waiter chosen. -/
theorem portAt_signal (k r : Nat) :
    (complete true .none (wakeOne c k s)).portAt r =
      if r = s.me then s.cur.completed true .none
      else if s.waitSet c ≠ [] ∧ r = chooseWaiter (s.waitSet c) k then { s.portAt r with st := .reacq }
      else s.portAt r := by
  have hwake := portAt_wakeOne c k s fun w hw => (hws w hw).1
  have hown : (wakeOne c k s).portAt s.me = s.cur := by
    rw [hwake, if_neg fun ⟨hn, he⟩ => (hws _ (chooseWaiter_mem hn k)).2 he.symm, State.cur]
  rw [portAt_complete _ _ _ _ (by simpa using hme), wakeOne_me, hown, hwake]

variable {i : Instr} {timed : Bool} {dir : Dir} (hk : MpmcKind i timed dir) (hc : signals dir = c)
  (hn : s.waitSet c ≠ []) (h : s.turnIn .sig)
include hk hc hn h

/-- Exactly one member of the set is woken. -/
theorem signal_wakes {d : Condition} (hd : d ≠ c) :
    ∃ t w, exec i s = .next t ∧ w ∈ s.waitSet c ∧ (∀ r, r ∈ t.waitSet c ↔ r ∈ s.waitSet c ∧ r ≠ w) ∧
      t.waitSet d = s.waitSet d ∧ s.queueKept t ∧ t.owner = s.owner ∧ s.restKept t ∧
      ∀ r, t.portAt r = if r = s.me then s.cur.completed true .none
        else if r = w then { s.portAt w with st := .reacq } else s.portAt r := by
  obtain ⟨-, hs, alt, k, ha⟩ := h
  refine ⟨_, chooseWaiter (s.waitSet c) k, by rw [exec_sig hk ha hs, signal, hc], chooseWaiter_mem hn k, fun r => ?_, ?_,
    by simp [State.queueKept], by simp, by simp [State.restKept], fun r => ?_⟩
  · rw [waitSet_signal, if_pos rfl, mem_removeWaiter]
  · rw [waitSet_signal, if_neg hd]
  · rw [portAt_signal hme hws]
    by_cases hr : r = chooseWaiter (s.waitSet c) k <;> simp [hr, hn]

/-- Any member can be the one, by some `wake_choice` (R9, R161). -/
theorem signal_wakes_any {w : Nat} (hw : w ∈ s.waitSet c) :
    ∃ wake t, exec i (s.withTurn s.me (.move false wake)) = .next t ∧ (t.portAt w).st = .reacq ∧ w ∉ t.waitSet c := by
  obtain ⟨k, hchoose⟩ := chooseWaiter_surj hw
  have hx := exec_sig (s := s.withTurn s.me (.move false k)) hk rfl h.2.1
  rw [signal, hc] at hx
  refine ⟨k, _, hx, ?_, ?_⟩
  · rw [portAt_signal (s := s.withTurn s.me (.move false k)) hme (by simpa using hws)]
    simp [hchoose, hn, (hws w hw).2]
  · rw [waitSet_signal, if_pos rfl, mem_removeWaiter]
    simp [hchoose]

end

/-- "signal lost, not remembered" (R161). -/
theorem signal_lost {i : Instr} {s : State} {timed : Bool} {dir : Dir} {c : Condition} (hk : MpmcKind i timed dir)
    (hc : signals dir = c) (h : s.turnIn .sig) (hn : s.waitSet c = []) :
    ∃ t, exec i s = .next t ∧ s.onlyPort t (s.cur.completed true .none) := by
  obtain ⟨hme, hs, alt, k, ha⟩ := h
  exact ⟨_, by rw [exec_sig hk ha hs, signal, hc, wakeOne_of_nil hn], onlyPort_complete hme _ _⟩

/-- Settles O26: the signal is lost or wakes the member chosen, and each direction signals the other's condition. -/
theorem signalStep : Obligations.SignalStep := by
  intro s d tmo h
  refine ⟨fun i hi => ?_, fun i hi => ?_⟩
  · obtain ⟨timed, hk⟩ : ∃ timed, MpmcKind i timed .enq := by
      rcases hi with rfl | rfl
      · exact ⟨_, .enq d tmo⟩
      · exact ⟨_, .enqt d tmo⟩
    exact ⟨signal_lost hk rfl h, fun hn hws =>
      ⟨signal_wakes (c := .rtr) h.1 hws hk rfl hn h (d := .rtw) (by decide),
       fun w hw => signal_wakes_any (c := .rtr) h.1 hws hk rfl hn h hw⟩⟩
  · obtain ⟨timed, hk⟩ : ∃ timed, MpmcKind i timed .deq := by
      rcases hi with rfl | rfl
      · exact ⟨_, .deq d tmo⟩
      · exact ⟨_, .deqt d tmo⟩
    exact ⟨signal_lost hk rfl h, fun hn hws =>
      ⟨signal_wakes (c := .rtw) h.1 hws hk rfl hn h (d := .rtr) (by decide),
       fun w hw => signal_wakes_any (c := .rtw) h.1 hws hk rfl hn h hw⟩⟩

end Sys2Proof.Machine
end

section
/-! SUPPORT. The transition graph of an MPMC port (R172): the edges a turn of the port takes, from the records it can leave
(`Own`), and the one edge that another port's `SIGNAL` takes it along (R161). -/

namespace Sys2Proof.Machine

/-! ### The edges of the port's own steps -/

/-- The edges of R172 that a step of the port in turn takes from the state `s`, with their conditions; `q` is the record
left. -/
inductive MpmcEdge (s : State) (q : Port) : Prop where
  | lockTry (hs : s.cur.st = .acqTry) (hg : s.owner = none) (hq : q.st = .pred)
  | lockBusy (hs : s.cur.st = .acqTry) (hg : s.owner ≠ none) (hq : q.st = .done) (hc : q.rspCause = .lockBusy)
  | grant (hs : s.cur.st = .acqTimed) (hg : s.owner = none) (hq : q.st = .elapsed)
  | expire (hs : s.cur.st = .acqTimed) (hg : s.cur.timeout ≤ s.now - s.cur.start) (hq : q.st = .done)
      (hc : q.rspCause = .timeoutLock)
  | late (hs : s.cur.st = .elapsed) (hg : s.cur.timeout ≤ s.cur.t1 - s.cur.start) (hq : q.st = .done)
      (hc : q.rspCause = .timeoutLock)
  | inTime (hs : s.cur.st = .elapsed) (hg : s.cur.t1 - s.cur.start < s.cur.timeout) (hq : q.st = .pred)
  | predHolds (hs : s.cur.st = .pred) (hg : s.pred (opDir s.cur.op) = true) (hq : q.st = .xfer)
  | predFails (hs : s.cur.st = .pred) (hg : s.pred (opDir s.cur.op) = false) (ht : opTimed s.cur.op = false)
      (hq : q.st = .done) (hc : q.rspCause = failCause (opDir s.cur.op))
  | predLate (hs : s.cur.st = .pred) (hg : s.pred (opDir s.cur.op) = false) (ht : opTimed s.cur.op = true)
      (hl : s.cur.deadline ≤ s.now) (hq : q.st = .done) (hc : q.rspCause = .timeoutWait)
  | predWaits (hs : s.cur.st = .pred) (hg : s.pred (opDir s.cur.op) = false) (ht : opTimed s.cur.op = true)
      (hl : s.now < s.cur.deadline) (hq : q.st = .cwait)
  | waitEnds (hs : s.cur.st = .cwait) (hg : s.cur.deadline ≤ s.now ∨ s.cfg.spuriousWake = true) (hq : q.st = .reacq)
  | lockReacq (hs : s.cur.st = .reacq) (hg : s.owner = none) (hq : q.st = .pred)
  | transfer (hs : s.cur.st = .xfer) (hq : q.st = .rel)
  | unlock (hs : s.cur.st = .rel) (hq : q.st = .sig)
  | signal (hs : s.cur.st = .sig) (hq : q.st = .done) (hok : q.rspOk = true) (hc : q.rspCause = .none)

section
variable {i : Instr} {s : State} (hsp : isSpsc i = false) (hop : i.op = s.cur.op)
include hsp hop

theorem fails_mpmcEdge {c : Cause} (h : Fails i s c) : MpmcEdge s (s.cur.completed false c) := by
  cases h
  case full hi _ _ _ | empty hi _ _ _ => simp [hsp] at hi  -- steps of the other variant
  case lockBusy hi ht hs hg => exact .lockBusy hs hg rfl rfl
  case expired hi ht hs hg => exact .expire hs hg rfl rfl
  case late hi ht hs hg => exact .late hs hg rfl rfl
  case pred hi ht hs hg => exact .predFails hs (hop ▸ hg) (hop ▸ ht) rfl (by rw [hop])
  case waited hi ht hs hg hl => exact .predLate hs (hop ▸ hg) (hop ▸ ht) hl rfl rfl

theorem goes_mpmcEdge {st : PState} (h : Goes i s st) : MpmcEdge s { s.cur with st := st } := by
  cases h
  case check hi _ | write hi _ _ => simp [hsp] at hi  -- steps of the other variant
  case lockTry hi ht hs hg => exact .lockTry hs hg rfl
  case pred hi hs hg => exact .predHolds hs (hop ▸ hg) rfl
  case wait hi ht hs hg hl => exact .predWaits hs (hop ▸ hg) (hop ▸ ht) hl rfl
  case wake hi ht hs hg => exact .waitEnds hs hg rfl
  case lockReacq hi ht hs hg => exact .lockReacq hs hg rfl
  case enq hi hd hs => exact .transfer hs rfl
  case unlock hi hs => exact .unlock hs rfl

/-- A step of an MPMC port changes nothing of its record or is along one of the edges. -/
theorem own_mpmcEdge {q : Port} {alt : Bool} {k : Nat} (h : Own i s q) (ha : s.sel.act = .move alt k) :
    q = s.cur ∨ MpmcEdge s q := by
  cases h
  case stall => exact .inl rfl
  case issue cw _ ha' _ _ | issueIllegal cw ha' _ _ | accept ha' _ => cases ha.symm.trans ha'
  case fail c alt k _ hf => exact .inr (fails_mpmcEdge hsp hop hf)
  case succeed alt k _ hs =>
    rcases hs with ⟨hi, _⟩ | ⟨_, hs⟩
    · simp [hsp] at hi
    · exact .inr (.signal hs rfl rfl rfl)
  case go st alt k _ hg => exact .inr (goes_mpmcEdge hsp hop hg)
  case grant k _ hi ht hs hg => exact .inr (.grant hs hg rfl)
  case elapsed alt k _ hi ht hs hg => exact .inr (.inTime hs hg rfl)
  case read alt k v st _ hd hs hst hv =>
    rcases hst with ⟨hi, _⟩ | ⟨_, rfl⟩
    · simp [hsp] at hi
    · exact .inr (.transfer hs rfl)

end

/-! ### The edges of the host's moves -/

/-- Where an `ISSUE` leads by the operation code it latches (R150, R172). -/
inductive IssueEdge (q : Port) : Prop where
  | illegal (hq : q.st = .done) (hc : q.rspCause = .illegalOp) (hr : opReserved q.op = true)
  | nonblocking (hq : q.st = .acqTry) (hr : opReserved q.op = false) (ht : opTimed q.op = false)
  | timed (hq : q.st = .acqTimed) (hr : opReserved q.op = false) (ht : opTimed q.op = true)

/-- The rows of the opcode map that an MPMC port reads, by their first state (R98). -/
theorem firstState_mpmc {i : Instr} {s : State} (hc : Coherent i s) (hv : s.cfg.variant = .mpmc) :
    (∀ st, firstState i = some st →
      opReserved i.op = false ∧ ((st = .acqTry ∧ opTimed i.op = false) ∨ (st = .acqTimed ∧ opTimed i.op = true))) ∧
    (firstState i = none → opReserved i.op = true) := by
  obtain ⟨op, d, tmo, rfl⟩ := hc.fields
  rw [hv, decodeFields_op]
  exact (mpmc_kinds s.me op d tmo).2.2

theorem own_issueEdge {i : Instr} {s : State} {q : Port} {cw : Nat} (hc : Coherent i s) (hv : s.cfg.variant = .mpmc)
    (h : Own i s q) (ha : s.sel.act = .issue cw) : q = s.cur ∨ s.cur.st = .idle ∧ IssueEdge q := by
  obtain ⟨hfirst, hnone⟩ := firstState_mpmc hc hv
  cases h
  case stall => exact .inl rfl
  case issue _ st _ hs hf =>
    obtain ⟨hr, ⟨rfl, ht⟩ | ⟨rfl, ht⟩⟩ := hfirst st hf
    · exact .inr ⟨hs, .nonblocking rfl (by simpa using hr) (by simpa using ht)⟩
    · exact .inr ⟨hs, .timed rfl (by simpa using hr) (by simpa using ht)⟩
  case issueIllegal _ _ hs hf => exact .inr ⟨hs, .illegal rfl rfl (by simpa using hnone hf)⟩
  all_goals simp_all  -- not an `ISSUE`

theorem own_accept {i : Instr} {s : State} {q : Port} (h : Own i s q) (ha : s.sel.act = .accept) :
    q = s.cur ∨ s.cur.st = .done ∧ q.st = .idle := by
  cases h
  case stall => exact .inl rfl
  case accept _ hs => exact .inr ⟨hs, rfl⟩
  all_goals simp_all  -- not an `ACCEPT`

/-! ### The edge taken by another port -/

/-- A host's move at a port in `SIG` changes nothing. -/
theorem exec_sig_of_not_move (i : Instr) {s : State} (hs : s.cur.st = .sig) (ha : ∀ alt k, s.sel.act ≠ .move alt k) :
    exec i s = .next s := by
  cases hact : s.sel.act with
  | issue cw => exact exec_issue_of_not_idle i hact (by simp [hs])
  | accept => rw [exec_accept i hact, accept, if_neg (by simp [hs]), stall]
  | move alt k => exact absurd hact (ha alt k)

/-- The record of a port that is not in turn changes only by another port's `SIGNAL` (R161). -/
theorem step_signals {s t : State} {p : Nat} (hI : s.Inv) (h : step s = .next t) (hr : s.nextEvent ≠ .reset)
    (hp : ∀ a, s.nextEvent ≠ .turn p a) (hne : t.portAt p ≠ s.portAt p) :
    ∃ r alt wake, r ≠ p ∧ s.nextEvent = .turn r (.move alt wake) ∧ (s.portAt r).st = .sig := by
  rcases (step_next h).2 with ⟨_, ht⟩ | ⟨he, _⟩ | ⟨r, a, i, he, hd, hx⟩
  · obtain ⟨-, rfl⟩ := tick_next ht
    exact absurd rfl hne
  · exact absurd he hr
  · obtain ⟨hI', hc⟩ := turn_coherent hI hd
    have hpr : p ≠ r := fun e => hp a (e ▸ he)
    have hsig : (s.portAt r).st = .sig := by
      cases moved_wait (exec_moved hx) (hI'.typed.port_count ▸ hc.me_lt) fun c w hw => (inv_waitSet hI' hw).1
      case same ho _ _ | enter ho _ _ _ _ _ | leave ho _ _ _ _ _ => exact absurd (ho p hpr) hne
      case wake d w hi hs _ _ _ _ => exact hs
    by_cases ha : ∃ alt k, a = .move alt k
    · obtain ⟨alt, k, rfl⟩ := ha
      exact ⟨r, alt, k, hpr.symm, he, hsig⟩
    · have hsame := exec_sig_of_not_move i (s := s.takeEvent.withTurn r a) hsig fun alt k e => ha ⟨alt, k, e⟩
      cases hsame.symm.trans hx
      exact absurd rfl hne

/-- Settles O51: a port not in turn changes by another's `SIGNAL` alone, and a turn of the port, by whose move it is, is
along an edge of R172. -/
theorem mpmcTransitions : Obligations.MpmcTransitions := by
  intro s t p hI hv h hr
  have hport := step_port hI h p
  have hsignals := step_signals (p := p) hI h hr
  generalize t.portAt p = q at hport hsignals
  cases hport with
  | keep _ => exact .inl rfl
  | reset he _ => exact absurd he hr
  | wake he hs =>
    refine .inr (.inr (.inr (.inl ⟨hsignals he fun e => ?_, hs, rfl⟩)))
    simpa [hs] using congrArg Port.st e
  | turn a i he hd _ hown =>
    obtain ⟨-, hc⟩ := turn_coherent hI hd
    cases a with
    | issue cw =>
      rcases own_issueEdge hc hv hown rfl with rfl | ⟨hs, hedge⟩
      · exact .inl rfl
      · refine .inr (.inl ⟨⟨cw, he⟩, hs, ?_⟩)
        cases hedge with
        | illegal hq hc hr => exact .inl ⟨hq, hc, hr⟩
        | nonblocking hq hr ht => exact .inr (.inl ⟨hq, hr, ht⟩)
        | timed hq hr ht => exact .inr (.inr ⟨hq, hr, ht⟩)
    | accept =>
      rcases own_accept hown rfl with rfl | ⟨hs, hq⟩
      · exact .inl rfl
      · exact .inr (.inr (.inl ⟨he, hs, hq⟩))
    | move alt k =>
      rcases own_mpmcEdge ((kind_variant hc).2 hv) (hc.op_eq (by simp)) hown rfl with rfl | hedge
      · exact .inl rfl
      · refine .inr (.inr (.inr (.inr ⟨⟨alt, k, he⟩, ?_⟩)))
        have hcur : (s.takeEvent.withTurn p (.move alt k)).cur = s.portAt p := rfl
        cases hedge <;> simp_all  -- each edge is one row of R172; the other rows name another state or record

end Sys2Proof.Machine
end

section
/-! SUPPORT. An MPMC command whose port takes its turns one after another from a consistent state (R190, R210): each turn
keeps the machine consistent (`InTurn`), and what it does to the record and to the contents is known (`Turned`); from them,
how a condition wait ends (R162, R164, R214, R217, R229). -/

namespace Sys2Proof.Machine

/-! ### The command in flight at the port in turn -/

/-- The port in turn of a consistent MPMC machine has command `i` in flight. -/
structure InTurn (i : Instr) (timed : Bool) (dir : Dir) (s : State) : Prop where
  inv : s.Inv
  variant : s.cfg.variant = .mpmc
  me_lt : s.me < s.ports.length
  kind : MpmcKind i timed dir
  op : s.cur.op = i.op

/-- No step changes whose turn it is. -/
theorem moved_sel {i : Instr} {s t : State} (h : Moved i s t) : t.sel = s.sel := by
  cases h <;> simp [issued, enterWait, leaveWait]

theorem MpmcKind.decodeFields_eq {i : Instr} {timed : Bool} {dir : Dir} (hk : MpmcKind i timed dir) (p : Nat) :
    decodeFields .mpmc p i.op i.data i.timeout = i := by
  cases hk <;> simp [decodeFields, Instr.op, Instr.data, Instr.timeout]

/-- `t` is `s` after a turn of its port that left the record `q` there and the elements `cs` in the queue. -/
structure Turned (i : Instr) (timed : Bool) (dir : Dir) (s t : State) (q : Port) (cs : List Nat) : Prop where
  inTurn : InTurn i timed dir t
  me : t.me = s.me
  cfg : t.cfg = s.cfg
  now : t.now = s.now
  cur : t.cur = q
  contents : t.contents = cs

section
variable {i : Instr} {timed : Bool} {dir : Dir} {s t : State} {alt : Bool} {k : Nat} (h : InTurn i timed dir s)
include h

theorem InTurn.dir_eq : opDir s.cur.op = dir := by rw [h.op, h.kind.op_eq, opDir_opOf]

theorem InTurn.length_contents : s.contents.length = s.size := by
  rw [Machine.length_contents h.inv, count_mpmc h.variant]

theorem InTurn.turnIn {st : PState} (hs : s.cur.st = st) (alt : Bool) (k : Nat) :
    (s.withTurn s.me (.move alt k)).turnIn st := ⟨h.me_lt, hs, alt, k, rfl⟩

/-- A turn of the port is one of the latched command, whose operands are not looked at (R91). -/
theorem InTurn.moved (hx : exec i (s.withTurn s.me (.move alt k)) = .next t) :
    Coherent (s.latched s.me) (s.withTurn s.me (.move alt k)) ∧
      Moved (s.latched s.me) (s.withTurn s.me (.move alt k)) t := by
  refine ⟨⟨h.inv.typed.port_count ▸ h.me_lt, fun _ ha => by simp at ha, fun _ => rfl⟩, exec_moved ?_⟩
  rw [← hx, State.latched, h.variant, show (s.portAt s.me).op = i.op from h.op]
  refine (exec_decodeFields_operands .mpmc s.me s.me i.op _ _ i.data i.timeout s (by simp)).trans ?_
  rw [h.kind.decodeFields_eq]

/-- What the turn appends to the queue and takes from its front (R70). -/
theorem InTurn.contents (hx : exec i (s.withTurn s.me (.move alt k)) = .next t) :
    s.contents ++ (if s.cur.st = .xfer ∧ dir = .enq then some s.cur.data else none).toList =
      (if s.cur.st = .xfer ∧ dir = .deq then slotAt s.storage s.ri else none).toList ++ t.contents := by
  obtain ⟨hc, hm⟩ := h.moved hx
  have hcontents := moved_contents (inv_withTurn h.inv _ _) hc hm
  rw [entersNow_mpmc (s := s.withTurn s.me (.move alt k)) rfl h.variant,
    leavesNow_mpmc (s := s.withTurn s.me (.move alt k)) rfl h.variant] at hcontents
  rw [← h.dir_eq]
  exact hcontents

theorem InTurn.turned {q : Port} {cs : List Nat} (hx : exec i (s.withTurn s.me (.move alt k)) = .next t)
    (hp : t.portAt s.me = q) (hq : q.op = s.cur.op) (hcs : t.contents = cs) : Turned i timed dir s t q cs := by
  obtain ⟨hc, hm⟩ := h.moved hx
  have hme : t.me = s.me := by rw [State.me, moved_sel hm, withTurn_sel]
  have hcfg : t.cfg = s.cfg := (moved_cfg hm).trans rfl
  have hlen : t.ports.length = s.ports.length := (moved_length hm).trans rfl
  have hcur : t.cur = q := by rw [State.cur, hme, hp]
  exact ⟨⟨moved_inv (inv_withTurn h.inv _ _) hc hm, hcfg ▸ h.variant, by rw [hme, hlen]; exact h.me_lt, h.kind,
    by rw [hcur, hq, h.op]⟩, hme, hcfg, (moved_now hm).trans rfl, hcur, hcs⟩

/-- The contents stay but at the transfer. -/
theorem InTurn.contents_kept (hs : s.cur.st ≠ .xfer) (hx : exec i (s.withTurn s.me (.move alt k)) = .next t) :
    t.contents = s.contents := by
  simpa [hs] using (h.contents hx).symm

end

theorem portAt_of_portBecomes {s t : State} {p : Nat} {q : Port} (h : s.portBecomes t p q) : t.portAt p = q :=
  (h.2 p).trans (if_pos rfl)

/-! ### One turn in each state -/

section
variable {i : Instr} {timed : Bool} {dir : Dir} {s : State} (alt : Bool) (k : Nat)

theorem turn_reacq (h : InTurn i true dir s) (hs : s.cur.st = .reacq) (hg : s.owner = none) :
    ∃ t, exec i (s.withTurn s.me (.move alt k)) = .next t ∧
      Turned i true dir s t { s.cur with st := .pred } s.contents := by
  obtain ⟨t, hx, -, -, -, -, hp⟩ := lockReacq_free h.kind (h.turnIn hs alt k) hg
  exact ⟨t, hx, h.turned hx (portAt_of_portBecomes hp) rfl (h.contents_kept (by simp [hs]) hx)⟩

/-- `WAKE_DEADLINE` (R162); the lock is not touched. -/
theorem turn_wakeDeadline (h : InTurn i true dir s) (hs : s.cur.st = .cwait) (hg : s.cur.deadline ≤ s.now) :
    ∃ t, exec i (s.withTurn s.me (.move false k)) = .next t ∧
      Turned i true dir s t { s.cur with st := .reacq } s.contents ∧ t.owner = s.owner := by
  obtain ⟨t, hx, -, ho, -, -, -, hp⟩ :=
    wait_exits (s := s.withTurn s.me (.move false k)) h.kind h.me_lt hs (.inl ⟨rfl, hg⟩)
  exact ⟨t, hx, h.turned hx (portAt_of_portBecomes hp) rfl (h.contents_kept (by simp [hs]) hx), ho⟩

/-- The third branch of `PRED` (R158); the lock is released. -/
theorem turn_predLate (h : InTurn i true dir s) (hs : s.cur.st = .pred) (hg : ¬ s.pred dir = true)
    (hl : s.cur.deadline ≤ s.now) :
    ∃ t, exec i (s.withTurn s.me (.move alt k)) = .next t ∧
      Turned i true dir s t (s.cur.completed false .timeoutWait) s.contents ∧ t.owner = none := by
  obtain ⟨t, hx, -, ho, -, -, hp⟩ := pred_late (h.turnIn hs alt k) (by simpa using hg) h.kind hl
  exact ⟨t, hx, h.turned hx (portAt_of_portBecomes hp) rfl (h.contents_kept (by simp [hs]) hx), ho⟩

variable (h : InTurn i timed dir s)
include h

theorem turn_predHolds (hs : s.cur.st = .pred) (hg : s.pred dir = true) :
    ∃ t, exec i (s.withTurn s.me (.move alt k)) = .next t ∧
      Turned i timed dir s t { s.cur with st := .xfer } s.contents := by
  obtain ⟨t, hx, -, -, -, -, hp⟩ := pred_holds (h.turnIn hs alt k) h.kind (by simpa using hg)
  exact ⟨t, hx, h.turned hx (portAt_of_portBecomes hp) rfl (h.contents_kept (by simp [hs]) hx)⟩

theorem turn_doEnq (hs : s.cur.st = .xfer) (hd : dir = .enq) :
    ∃ t, exec i (s.withTurn s.me (.move alt k)) = .next t ∧
      Turned i timed dir s t { s.cur with st := .rel } (s.contents ++ [s.cur.data]) := by
  subst hd
  have hx := (exec_enq_xfer h.kind (h.turnIn hs alt k)).trans (doEnq_of_lt h.inv.typed.wi_lt)
  refine ⟨_, hx, h.turned hx (by exact portAt_of_portBecomes (portBecomes_goto h.me_lt _)) rfl ?_⟩
  simpa [hs] using (h.contents hx).symm

theorem turn_doDeq (hs : s.cur.st = .xfer) (hd : dir = .deq) {v : Nat} {rest : List Nat}
    (hcs : s.contents = v :: rest) :
    ∃ t, exec i (s.withTurn s.me (.move alt k)) = .next t ∧
      Turned i timed dir s t { s.cur with rspData := v, st := .rel } rest := by
  subst hd
  have hpos : 0 < s.count := by
    rw [← length_contents h.inv, hcs]
    exact Nat.succ_pos _
  obtain ⟨u, hu⟩ := Option.isSome_iff_exists.mp (inv_filled h.inv 0 hpos)
  rw [Nat.add_zero, Nat.mod_eq_of_lt h.inv.typed.ri_lt] at hu
  obtain ⟨t, hx, hp⟩ : ∃ t, exec i (s.withTurn s.me (.move alt k)) = .next t ∧
      t.portAt s.me = { s.cur with rspData := u, st := .rel } :=
    ⟨_, (exec_deq_xfer h.kind (h.turnIn hs alt k)).trans (doDeq_of_slotAt h.inv.typed.ri_lt hu),
      portAt_of_portBecomes (portBecomes_updPort_goto (s := { s.withTurn s.me (.move alt k) with
        ri := adv s.cfg s.ri, size := s.size - 1 }) h.me_lt (fun q => { q with rspData := u }) .rel)⟩
  have hfront : v :: rest = u :: t.contents := by simpa [hcs, hs, hu] using h.contents hx
  obtain ⟨rfl, hrest⟩ := List.cons.inj hfront
  exact ⟨t, hx, h.turned hx hp rfl hrest.symm⟩

theorem turn_unlock (hs : s.cur.st = .rel) :
    ∃ t, exec i (s.withTurn s.me (.move alt k)) = .next t ∧
      Turned i timed dir s t { s.cur with st := .sig } s.contents := by
  obtain ⟨t, hx, -, -, -, -, hp⟩ := unlock_leaves h.kind (h.turnIn hs alt k)
  exact ⟨t, hx, h.turned hx (portAt_of_portBecomes hp) rfl (h.contents_kept (by simp [hs]) hx)⟩

/-- `SIGNAL`, whether a port waits or not. -/
theorem turn_signal (hs : s.cur.st = .sig) :
    ∃ t, exec i (s.withTurn s.me (.move alt k)) = .next t ∧
      Turned i timed dir s t (s.cur.completed true .none) s.contents := by
  have hx := exec_sig (s := s.withTurn s.me (.move alt k)) h.kind rfl hs
  have hws : ∀ w ∈ (s.withTurn s.me (.move alt k)).waitSet (signals dir), w < s.ports.length ∧ w ≠ s.me := by
    intro w hw
    obtain ⟨hlt, hwait⟩ := inv_waitSet h.inv (by simpa using hw)
    exact ⟨hlt, fun e => by simp [State.cur, ← e, hwait] at hs⟩
  refine ⟨_, hx, h.turned hx ?_ rfl (h.contents_kept (by simp [hs]) hx)⟩
  exact (portAt_signal (s := s.withTurn s.me (.move alt k)) h.me_lt hws k s.me).trans (if_pos rfl)

end

/-! ### The turns that follow a predicate that holds -/

/-- The turns `acts` of the port in turn end with the record `q` there and the elements `cs` in the queue. -/
def EndsWith (i : Instr) (acts : List Act) (s : State) (q : Port) (cs : List Nat) : Prop :=
  ∃ t, runActs i acts s = .next t ∧ t.portAt s.me = q ∧ t.contents = cs

theorem Turned.endsWith {i : Instr} {timed : Bool} {dir : Dir} {s t : State} {q q' : Port} {cs cs' : List Nat} {a : Act}
    {as : List Act} (h : Turned i timed dir s t q cs) (hx : exec i (s.withTurn s.me a) = .next t)
    (hend : EndsWith i as t q' cs') : EndsWith i (a :: as) s q' cs' := by
  obtain ⟨u, hrun, hq, hcs⟩ := hend
  exact ⟨u, (runActs_cons hx as).trans hrun, h.me ▸ hq, hcs⟩

section
variable {i : Instr} {timed : Bool} {dir : Dir} {s : State} (alt : Bool) (k : Nat) (h : InTurn i timed dir s)
include h

/-- `UNLOCK`, `SIGNAL`: the command succeeds. -/
theorem rel_endsWith (hs : s.cur.st = .rel) :
    EndsWith i (List.replicate 2 (.move alt k)) s (s.cur.completed true .none) s.contents := by
  obtain ⟨t, hx, ht⟩ := turn_unlock alt k h hs
  obtain ⟨u, hy, hu⟩ := turn_signal alt k ht.inTurn (by rw [ht.cur])
  have hq : u.portAt t.me = s.cur.completed true .none := by
    rw [← hu.me, ← State.cur, hu.cur, ht.cur]
  exact ht.endsWith hx ⟨u, runActs_cons hy [], hq, hu.contents.trans ht.contents⟩

/-- `PRED`, `DO_ENQ`, `UNLOCK`, `SIGNAL`. -/
theorem pred_endsWith_enq (hd : dir = .enq) (hs : s.cur.st = .pred) (hroom : s.contents.length < s.cfg.capacity) :
    EndsWith i (List.replicate 4 (.move alt k)) s (s.cur.completed true .none) (s.contents ++ [s.cur.data]) := by
  have hg : s.pred dir = true := hd ▸ (pred_enq_iff s).mpr (h.length_contents ▸ hroom)
  obtain ⟨t, hx, ht⟩ := turn_predHolds alt k h hs hg
  obtain ⟨u, hy, hu⟩ := turn_doEnq alt k ht.inTurn (by rw [ht.cur]) hd
  have hend := rel_endsWith alt k hu.inTurn (by rw [hu.cur])
  rw [hu.cur, hu.contents, ht.cur, ht.contents] at hend
  exact ht.endsWith hx (hu.endsWith hy hend)

/-- `PRED`, `DO_DEQ`, `UNLOCK`, `SIGNAL`. -/
theorem pred_endsWith_deq (hd : dir = .deq) (hs : s.cur.st = .pred) {v : Nat} {rest : List Nat}
    (hcs : s.contents = v :: rest) :
    EndsWith i (List.replicate 4 (.move alt k)) s (({ s.cur with rspData := v } : Port).completed true .none) rest := by
  have hpos : 0 < s.size := by simp [← h.length_contents, hcs]
  have hg : s.pred dir = true := hd ▸ (pred_deq_iff s).mpr hpos
  obtain ⟨t, hx, ht⟩ := turn_predHolds alt k h hs hg
  obtain ⟨u, hy, hu⟩ := turn_doDeq alt k ht.inTurn (by rw [ht.cur]) hd (ht.contents.trans hcs)
  have hend := rel_endsWith alt k hu.inTurn (by rw [hu.cur])
  rw [hu.cur, hu.contents, ht.cur] at hend
  exact ht.endsWith hx (hu.endsWith hy hend)

end

/-! ### How a wait ends -/

/-- A port with a command in flight exists (R256), and is in turn with the command it has latched. -/
theorem inTurn_of_latched {i : Instr} {timed : Bool} {dir : Dir} {s : State} (hI : s.Inv) (hv : s.cfg.variant = .mpmc)
    (hf : s.cur.inFlight = true) (hk : MpmcKind i timed dir) (hop : s.cur.op = i.op) : InTurn i timed dir s :=
  ⟨hI, hv, lt_length_of_inFlight hf, hk, hop⟩

/-- `WAKE_DEADLINE`, `LOCK_REACQ` and the third branch of `PRED`: the wait has timed out (R158, R162, R217). -/
theorem wait_timesOut {i : Instr} {dir : Dir} {s : State} (k : Nat) (h : InTurn i true dir s) (hs : s.cur.st = .cwait)
    (hown : s.owner = none) (hl : s.cur.deadline ≤ s.now) (hg : ¬ s.pred dir = true) :
    ∃ t, runActs i (List.replicate 3 (.move false k)) s = .next t ∧
      t.portAt s.me = s.cur.completed false .timeoutWait ∧ t.contents = s.contents ∧ t.owner = none ∧
      ∀ c, s.me ∉ t.waitSet c := by
  obtain ⟨t, hx, ht, howner⟩ := turn_wakeDeadline k h hs hl
  obtain ⟨u, hy, hu⟩ := turn_reacq false k ht.inTurn (by rw [ht.cur]) (howner.trans hown)
  have hcur : u.cur = { s.cur with st := .pred } := by rw [hu.cur, ht.cur]
  have hsize : u.size = s.size := by
    rw [← hu.inTurn.length_contents, hu.contents, ht.contents, h.length_contents]
  have hpred : u.pred dir = s.pred dir := by
    cases dir <;> simp only [State.pred, hsize, hu.cfg, ht.cfg]
  obtain ⟨w, hz, hw, hfree⟩ := turn_predLate false k hu.inTurn (by rw [hcur]) (hpred ▸ hg)
    (by rw [hcur, hu.now, ht.now]; exact hl)
  have hme : w.me = s.me := hw.me.trans (hu.me.trans ht.me)
  have hq : w.portAt s.me = s.cur.completed false .timeoutWait := by rw [← hme, ← State.cur, hw.cur, hcur]
  refine ⟨w, ?_, hq, by rw [hw.contents, hu.contents, ht.contents], hfree, fun c hmem => ?_⟩
  · exact (runActs_cons hx _).trans ((runActs_cons hy _).trans (runActs_cons hz []))
  · have hwait := (inv_waitSet hw.inTurn.inv hmem).2
    rw [hq] at hwait
    cases hwait

/-- Settles O35: a woken port with the lock free goes on to a predicate that holds and from there succeeds; a port whose wait
has timed out takes its three turns. -/
theorem waitEnds : Obligations.WaitEnds := by
  refine ⟨fun s d tmo k hI hv hs hown => ⟨fun hop v rest hcs => ?_, fun hop hroom => ?_⟩,
    fun i s d tmo k hI hv hs hown hl hi => ?_⟩
  · have h := inTurn_of_latched hI hv (by simp [Port.inFlight, hs]) (.deqt d tmo) hop
    obtain ⟨t, hx, ht⟩ := turn_reacq false k h hs hown
    obtain ⟨u, hrun, hq, hcontents⟩ :=
      ht.endsWith hx (pred_endsWith_deq false k ht.inTurn rfl (by rw [ht.cur]) (ht.contents.trans hcs))
    exact ⟨u, hrun, by rw [hq], by rw [hq], by rw [hq], hcontents⟩
  · have h := inTurn_of_latched hI hv (by simp [Port.inFlight, hs]) (.enqt d tmo) hop
    obtain ⟨t, hx, ht⟩ := turn_reacq false k h hs hown
    obtain ⟨u, hrun, hq, hcontents⟩ :=
      ht.endsWith hx (pred_endsWith_enq false k ht.inTurn rfl (by rw [ht.cur]) (by rwa [ht.contents, ht.cfg]))
    rw [ht.contents, ht.cur] at hcontents
    exact ⟨u, hrun, by rw [hq], by rw [hq], hcontents⟩
  · obtain ⟨dir, h, hg⟩ : ∃ dir, InTurn i true dir s ∧ ¬ s.pred dir = true := by
      have hf : s.cur.inFlight = true := by simp [Port.inFlight, hs]
      rcases hi with ⟨rfl, hop, hfull⟩ | ⟨rfl, hop, hempty⟩
      · exact ⟨.enq, inTurn_of_latched hI hv hf (.enqt d tmo) hop, mt (pred_enq_iff s).mp (by omega)⟩
      · exact ⟨.deq, inTurn_of_latched hI hv hf (.deqt d tmo) hop, mt (pred_deq_iff s).mp (by omega)⟩
    obtain ⟨t, hrun, hq, hcontents, hfree, hout⟩ := wait_timesOut k h hs hown hl hg
    exact ⟨t, hrun, by rw [hq], by rw [hq], by rw [hq], hcontents, hfree, hout .rtw, hout .rtr⟩

end Sys2Proof.Machine
end

section
/-! SUPPORT. An MPMC nonblocking command whose port takes its turns undisturbed (R191 to R194, R196). The operands presented
are any numbers, so the states on the way need not be consistent: they are compared with the state the run began in
(`Attempt`), and so are the contents that a transfer leaves. -/

namespace Sys2Proof.Machine

/-! ### The contents after a transfer -/

section
variable {s u : State} (hI : s.Inv) (hv : s.cfg.variant = .mpmc)
include hI hv

theorem length_contents_mpmc : s.contents.length = s.size := by
  rw [length_contents hI, count_mpmc hv]

/-- An element stored in slot `wi` of a queue that is not full is the last one once `size` counts it (R166). -/
theorem contents_after_doEnq {v : Nat} (hroom : s.size < s.cfg.capacity) (hcfg : u.cfg = s.cfg) (hri : u.ri = s.ri)
    (hsize : u.size = s.size + 1) (hslot : slotAt u.storage s.wi = some v)
    (hslots : ∀ j, j ≠ s.wi → slotAt u.storage j = slotAt s.storage j) : u.contents = s.contents ++ [v] := by
  have hput : ∀ j, slotAt u.storage j = slotAt (putSlot s.storage s.wi v) j := by
    intro j
    rw [slotAt_putSlot]
    by_cases hj : j = s.wi
    · rw [if_pos hj, hj, hslot]
    · rw [if_neg hj, hslots j hj]
  have hindex := (hI.mpmc hv).index
  have hkept := held_putSlot s.storage s.cfg v hI.typed.ri_lt hroom
  rw [hindex] at hkept
  rw [contents_held, contents_held, count_mpmc hv, count_mpmc (hcfg ▸ hv), hcfg, hri, hsize, held_congr hput, held_snoc,
    hindex, hkept, slotAt_putSlot_same]
  rfl

/-- The head of a queue that is not empty is in slot `ri`, and the rest is held from `adv(ri)` on (R167). -/
theorem head_of_contents_mpmc {v : Nat} {rest : List Nat} (hcs : s.contents = v :: rest) :
    0 < s.size ∧ slotAt s.storage s.ri = some v ∧ held s.storage s.cfg (adv s.cfg s.ri) (s.size - 1) = rest := by
  have hpos : 0 < s.size := by simp [← length_contents_mpmc hI hv, hcs]
  have hri := Nat.mod_eq_of_lt hI.typed.ri_lt
  obtain ⟨u, hu⟩ := Option.isSome_iff_exists.mp ((hI.mpmc hv).holds 0 hpos)
  rw [Nat.add_zero, hri] at hu
  rw [contents_held, count_mpmc hv, ← Nat.sub_add_cancel hpos, held_cons, hri, hu] at hcs
  obtain ⟨rfl, hrest⟩ := List.cons.inj hcs
  exact ⟨hpos, hu, hrest⟩

end

/-! ### The turns before the transfer -/

/-- From `s` to `t` only the port in turn took steps and none was its transfer: the queue, the wait sets and the other ports
are as they were, the lock is held by `o` and the record of the port is `q`. -/
structure Attempt (s t : State) (o : Option Nat) (q : Port) : Prop where
  cfg : t.cfg = s.cfg
  me : t.me = s.me
  queue : s.queueKept t
  owner : t.owner = o
  waiters : s.waitersKept t
  port : s.portBecomes t s.me q

theorem attempt_self (s : State) : Attempt s s s.owner s.cur :=
  ⟨rfl, rfl, ⟨rfl, rfl, rfl, fun _ => rfl⟩, rfl, ⟨rfl, rfl⟩, rfl, fun r => by
    by_cases hr : r = s.me <;> simp [hr, State.cur]⟩

section
variable {s t u : State} {o o' : Option Nat} {q q' : Port} (h : Attempt s t o q)
include h

/-- One more turn. -/
theorem Attempt.turn {a : Act} (ht : (t.withTurn t.me a).portAndOwner u o' q') : Attempt s u o' q' := by
  obtain ⟨⟨hwi, hri, hsize, hslots⟩, ho, ⟨hrtr, hrtw⟩, ⟨hcfg, -, hsel, -, -⟩, hlen, hports⟩ := ht
  obtain ⟨hwi', hri', hsize', hslots'⟩ := h.queue
  obtain ⟨hlen', hports'⟩ := h.port
  refine ⟨hcfg.trans h.cfg, ?_,
    ⟨hwi.trans hwi', hri.trans hri', hsize.trans hsize', fun j => (hslots j).trans (hslots' j)⟩, ho, ⟨hrtr.trans h.waiters.1, hrtw.trans h.waiters.2⟩, hlen.trans hlen', fun r => ?_⟩
  · rw [State.me, hsel, withTurn_sel, h.me]
  · rw [hports r, State.me, withTurn_sel, h.me]
    by_cases hr : r = s.me
    · rw [if_pos hr, if_pos hr]
    · rw [if_neg hr, if_neg hr]
      exact (hports' r).trans (if_neg hr)

theorem Attempt.portAt_me : t.portAt s.me = q := portAt_of_portBecomes h.port

theorem Attempt.cur : t.cur = q := by rw [State.cur, h.me, h.portAt_me]

theorem Attempt.turnIn (hme : s.me < s.ports.length) {st : PState} (hs : q.st = st) (alt : Bool) (k : Nat) :
    (t.withTurn t.me (.move alt k)).turnIn st :=
  ⟨show t.me < t.ports.length by rwa [h.me, h.port.1], (congrArg Port.st h.cur).trans hs, alt, k, rfl⟩

theorem Attempt.pred (dir : Dir) : t.pred dir = s.pred dir := by
  obtain ⟨-, -, hsize, -⟩ := h.queue
  cases dir <;> simp only [State.pred, h.cfg, hsize]

theorem Attempt.contents : t.contents = s.contents := by
  obtain ⟨hwi, hri, hsize, hslots⟩ := h.queue
  have hcount : t.count = s.count := by simp only [State.count, State.spscCount, h.cfg, hwi, hri, hsize]
  rw [contents_held, contents_held, h.cfg, hri, hcount, held_congr hslots]

end

/-- `LOCK_TRY` of either command (R152). -/
theorem lockTry_leaves {i : Instr} {dir : Dir} {s : State} (hk : MpmcKind i false dir) (h : s.turnIn .acqTry) :
    (s.owner = none → ∃ t, exec i s = .next t ∧ s.portAndOwner t (some s.me) { s.cur with st := .pred }) ∧
    (s.owner ≠ none → ∃ t, exec i s = .next t ∧ s.onlyPort t (s.cur.completed false .lockBusy)) := by
  cases hk with
  | enq d tmo => exact lockSteps.1 _ s d tmo (.inl rfl) h
  | deq d tmo => exact lockSteps.1 _ s d tmo (.inr rfl) h

section
variable {i : Instr} {dir : Dir} {s : State} (hk : MpmcKind i false dir) (hv : s.cfg.variant = .mpmc)
  (hme : s.me < s.ports.length) (hs : s.cur.st = .idle) (cw : Nat) (alt : Bool) (k : Nat)
include hk hv hme hs

/-- `ISSUE` (R150). -/
theorem attempt_issue : ∃ t q, exec i (s.withTurn s.me (.issue cw)) = .next t ∧ Attempt s t s.owner q ∧
    q.st = .acqTry ∧ q.data = i.data := by
  have hf : firstState i = some .acqTry := by cases hk <;> rfl
  obtain ⟨t, n, hx, ho⟩ := issue_latches (s := s.withTurn s.me (.issue cw)) hv hme rfl hs hf
  exact ⟨t, _, hx, (attempt_self s).turn ho, rfl, latch_data ..⟩

/-- With the lock held `LOCK_TRY` fails (R193). -/
theorem run_lockBusy (hlock : s.owner ≠ none) : ∃ (t : State) (q : Port),
    runActs i [.issue cw, .move alt k] s = .next t ∧ Attempt s t s.owner (q.completed false .lockBusy) := by
  obtain ⟨t, q, hx, ht, hst, -⟩ := attempt_issue hk hv hme hs cw
  have hheld : t.owner ≠ none := by rwa [ht.owner]
  obtain ⟨u, hy, ho⟩ := (lockTry_leaves hk (ht.turnIn hme hst alt k)).2 hheld
  have hu := ht.turn ho
  rw [withTurn_owner, ht.owner] at hu
  exact ⟨u, _, (runActs_cons hx _).trans (runActs_cons hy []), hu⟩

variable (hfree : s.owner = none)
include hfree

/-- With the lock free the command takes it and comes to its predicate (R193). -/
theorem attempt_pred : ∃ (t : State) (q : Port),
    (∀ as, runActs i (.issue cw :: .move alt k :: as) s = runActs i as t) ∧ Attempt s t (some s.me) q ∧
      q.st = .pred ∧ q.data = i.data := by
  obtain ⟨t, q, hx, ht, hst, hdata⟩ := attempt_issue hk hv hme hs cw
  obtain ⟨u, hy, ho⟩ := (lockTry_leaves hk (ht.turnIn hme hst alt k)).1 (ht.owner.trans hfree)
  have hu := ht.turn ho
  rw [show (t.withTurn t.me (.move alt k)).me = s.me from ht.me] at hu
  exact ⟨u, _, fun as => (runActs_cons hx _).trans (runActs_cons hy as), hu, rfl,
    (congrArg Port.data ht.cur).trans hdata⟩

/-- On a false predicate the lock is released and the command fails (R158, R194). -/
theorem run_predFails (hg : ¬ s.pred dir = true) : ∃ (t : State) (q : Port),
    runActs i [.issue cw, .move alt k, .move alt k] s = .next t ∧
      Attempt s t none (q.completed false (failCause dir)) := by
  obtain ⟨t, q, hrun, ht, hst, -⟩ := attempt_pred hk hv hme hs cw alt k hfree
  obtain ⟨u, hx, ho⟩ := pred_fails (ht.turnIn hme hst alt k) (by rwa [pred_withTurn, ht.pred]) hk
  exact ⟨u, _, (hrun _).trans (runActs_cons hx []), ht.turn ho⟩

/-- On a true one the command comes to its transfer. -/
theorem attempt_xfer (hg : s.pred dir = true) : ∃ (t : State) (q : Port),
    (∀ as, runActs i (.issue cw :: .move alt k :: .move alt k :: as) s = runActs i as t) ∧
      Attempt s t (some s.me) q ∧ q.st = .xfer ∧ q.data = i.data := by
  obtain ⟨t, q, hrun, ht, hst, hdata⟩ := attempt_pred hk hv hme hs cw alt k hfree
  obtain ⟨u, hx, ho⟩ := pred_holds (ht.turnIn hme hst alt k) hk (by rwa [pred_withTurn, ht.pred])
  have hu := ht.turn ho
  rw [withTurn_owner, ht.owner] at hu
  exact ⟨u, _, fun as => (hrun _).trans (runActs_cons hx as), hu, rfl, (congrArg Port.data ht.cur).trans hdata⟩

end

/-! ### The turns from the transfer on -/

theorem waitSet_of_waitersKept {s t : State} (h : s.waitersKept t) (c : Condition) : t.waitSet c = s.waitSet c := by
  cases c
  · exact h.1
  · exact h.2

section
variable {i : Instr} {timed : Bool} {dir : Dir} {s : State} (hk : MpmcKind i timed dir) (hme : s.me < s.ports.length)
  (hws : ∀ w ∈ s.waitSet (signals dir), w < s.ports.length ∧ w ≠ s.me)
include hk hme hws

/-- `SIGNAL`, whether a port waits or not, seen from the port that signals (R161). -/
theorem signal_completes {alt : Bool} {k : Nat} (ha : s.sel.act = .move alt k) (hs : s.cur.st = .sig) :
    ∃ t, exec i s = .next t ∧ t.portAt s.me = s.cur.completed true .none ∧ t.contents = s.contents ∧
      t.owner = s.owner := by
  refine ⟨_, exec_sig hk ha hs, (portAt_signal hme hws k s.me).trans (if_pos rfl), ?_, wakeOne_owner ..⟩
  simp [contents_held, State.count, State.spscCount]

/-- `UNLOCK`, `SIGNAL`: the command succeeds and the lock is free (R156, R161). -/
theorem run_unlock_signal (hs : s.cur.st = .rel) (alt : Bool) (k : Nat) :
    ∃ t, runActs i [.move alt k, .move alt k] s = .next t ∧ t.portAt s.me = s.cur.completed true .none ∧
      t.contents = s.contents ∧ t.owner = none := by
  obtain ⟨t, hx, ho⟩ := unlock_leaves (s := s.withTurn s.me (.move alt k)) hk ⟨hme, hs, alt, k, rfl⟩
  have ht := (attempt_self s).turn ho
  have hturn := ht.turnIn hme rfl alt k
  have hws' : ∀ w ∈ (t.withTurn t.me (.move alt k)).waitSet (signals dir), w < t.ports.length ∧ w ≠ t.me := by
    rwa [waitSet_withTurn, waitSet_of_waitersKept ht.waiters, ht.port.1, ht.me]
  obtain ⟨u, hy, hq, hcontents, howner⟩ := signal_completes hk hturn.1 hws' rfl hturn.2.1
  refine ⟨u, (runActs_cons hx _).trans (runActs_cons hy []), ?_, hcontents.trans ht.contents, howner.trans ht.owner⟩
  rw [← ht.me]
  exact hq.trans (congrArg (Port.completed · true .none) ht.cur :)

end

/-- The turns from the transfer on, whatever it left of the queue. -/
theorem Attempt.run_transfer {i : Instr} {timed : Bool} {dir : Dir} {s t u : State} {o : Option Nat} {q q' : Port}
    {alt : Bool} {k : Nat} (h : Attempt s t o q) (hI : s.Inv) (hk : MpmcKind i timed dir) (hme : s.me < s.ports.length)
    (hs : s.cur.st = .idle) (hx : exec i (t.withTurn t.me (.move alt k)) = .next u)
    (hwait : t.waitersKept u) (hsel : u.sel = ⟨t.me, .move alt k⟩) (hport : t.portBecomes u t.me q')
    (hst : q'.st = .rel) :
    ∃ w, runActs i (List.replicate 3 (.move alt k)) t = .next w ∧ w.portAt s.me = q'.completed true .none ∧
      w.contents = u.contents ∧ w.owner = none := by
  have hme' : u.me = s.me := (congrArg Sel.port hsel).trans h.me
  have hcur : u.cur = q' := by rw [State.cur, hme', ← h.me, portAt_of_portBecomes hport]
  have hlen : u.ports.length = s.ports.length := hport.1.trans h.port.1
  have hws : ∀ w ∈ u.waitSet (signals dir), w < u.ports.length ∧ w ≠ u.me := by
    rw [waitSet_of_waitersKept hwait, waitSet_of_waitersKept h.waiters, hlen, hme']
    intro w hw
    obtain ⟨hlt, hst⟩ := inv_waitSet hI hw
    exact ⟨hlt, fun e => by simp [State.cur, ← e, hst] at hs⟩
  obtain ⟨w, hrun, hq, hcontents, howner⟩ :=
    run_unlock_signal hk (by rwa [hme', hlen]) hws (by rw [hcur, hst]) alt k
  rw [hme', hcur] at hq
  exact ⟨w, (runActs_cons hx _).trans hrun, hq, hcontents, howner⟩

section
variable {s : State} (hI : s.Inv) (hv : s.cfg.variant = .mpmc) (hme : s.me < s.ports.length) (hs : s.cur.st = .idle)
  (hfree : s.owner = none) (cw d tmo : Nat) (alt : Bool) (k : Nat)
include hI hv hme hs hfree

/-- An enqueue on a queue that is not full (R166, R191). -/
theorem run_mpmcEnq_room (hroom : s.contents.length < s.cfg.capacity) : ∃ (t : State) (q : Port),
    runActs (.mpmcEnq d tmo) (.issue cw :: List.replicate 5 (.move alt k)) s = .next t ∧
      t.portAt s.me = q.completed true .none ∧ t.contents = s.contents ++ [d] ∧ t.owner = none := by
  rw [length_contents_mpmc hI hv] at hroom
  obtain ⟨t, q, hrun, ht, hst, hdata⟩ :=
    attempt_xfer (.enq d tmo) hv hme hs cw alt k hfree ((pred_enq_iff s).mpr hroom)
  have hd : t.cur.data = d := (congrArg Port.data ht.cur).trans hdata
  obtain ⟨hwi, hri, hsize, hslots⟩ := ht.queue
  obtain ⟨u, hx, hslot, hkept, -, hsize', hri', -, hwait, ⟨hcfg, -, hsel, -, -⟩, hport⟩ :=
    doEnqStores _ _ d tmo (.inl rfl) (ht.turnIn hme hst alt k)
      (show t.wi < t.cfg.capacity by rw [hwi, ht.cfg]; exact hI.typed.wi_lt)
  obtain ⟨w, hrun', hq, hcontents, howner⟩ :=
    ht.run_transfer hI (.enq d tmo) hme hs hx hwait hsel hport rfl
  refine ⟨w, _, (hrun _).trans hrun', hq, hcontents.trans ?_, howner⟩
  refine contents_after_doEnq hI hv hroom (hcfg.trans ht.cfg) (hri'.trans hri) (hsize'.trans (congrArg (· + 1) hsize)) ?_
    fun j hj => (hkept j (hwi ▸ hj)).trans (hslots j)
  rw [← hwi, ← hd]
  exact hslot

/-- A dequeue on a queue that is not empty (R167, R192). -/
theorem run_mpmcDeq_some {v : Nat} {rest : List Nat} (hcs : s.contents = v :: rest) : ∃ (t : State) (q : Port),
    runActs (.mpmcDeq d tmo) (.issue cw :: List.replicate 5 (.move alt k)) s = .next t ∧
      t.portAt s.me = ({ q with rspData := v } : Port).completed true .none ∧ t.contents = rest ∧ t.owner = none := by
  obtain ⟨hpos, hhead, hrest⟩ := head_of_contents_mpmc hI hv hcs
  obtain ⟨t, q, hrun, ht, hst, -⟩ :=
    attempt_xfer (.deq d tmo) hv hme hs cw alt k hfree ((pred_deq_iff s).mpr hpos)
  obtain ⟨-, hri, hsize, hslots⟩ := ht.queue
  obtain ⟨u, hx, hkept, hri', hsize', -, -, hwait, ⟨hcfg, -, hsel, -, -⟩, hport⟩ :=
    doDeqReads _ _ d tmo v (.inl rfl) (ht.turnIn hme hst alt k)
      (show t.ri < t.cfg.capacity by rw [hri, ht.cfg]; exact hI.typed.ri_lt)
      (show slotAt t.storage t.ri = some v by rw [hslots, hri, hhead]) (show 0 < t.size by rwa [hsize])
  obtain ⟨w, hrun', hq, hcontents, howner⟩ :=
    ht.run_transfer hI (.deq d tmo) hme hs hx hwait hsel hport rfl
  refine ⟨w, _, (hrun _).trans hrun', hq, hcontents.trans ?_, howner⟩
  have hcfg' : u.cfg = s.cfg := hcfg.trans ht.cfg
  have hri'' : u.ri = adv s.cfg s.ri := by rw [hri', withTurn_ri, withTurn_cfg, hri, ht.cfg, adv]
  have hsize'' : u.size = s.size - 1 := by
    rw [withTurn_size, hsize] at hsize'
    omega
  rw [contents_held, count_mpmc (hcfg' ▸ hv), hcfg', hri'', hsize'',
    held_congr fun j => (hkept j).trans (hslots j)]
  exact hrest

end

/-! ### Against the abstract queue -/

/-- Settles O32: each case is a run known from above, and whether the predicate holds is read off the number of elements
held. -/
theorem mpmcNonblockingSequential : Obligations.MpmcNonblockingSequential := by
  intro s cw d tmo alt k hI hv hp hs
  have hme : s.me < s.ports.length := hI.typed.port_count ▸ hp
  have hlen := length_contents_mpmc hI hv
  refine ⟨fun hfree => ⟨fun hroom => ?_, fun hfull => ?_, fun v rest hcs => ?_, fun hempty => ?_⟩, fun hlock i hi => ?_⟩
  · obtain ⟨t, q, hrun, hq, hcontents, howner⟩ := run_mpmcEnq_room hI hv hme hs hfree cw d tmo alt k hroom
    exact ⟨t, hrun, by rw [hq], by rw [hq], by rw [hq], hcontents, howner⟩
  · obtain ⟨t, q, hrun, ht⟩ := run_predFails (.enq d tmo) hv hme hs cw alt k hfree (mt (pred_enq_iff s).mp (by omega))
    exact ⟨t, hrun, by rw [ht.portAt_me], by rw [ht.portAt_me], by rw [ht.portAt_me]; rfl, ht.contents, ht.owner⟩
  · obtain ⟨t, q, hrun, hq, hcontents, howner⟩ := run_mpmcDeq_some hI hv hme hs hfree cw d tmo alt k hcs
    exact ⟨t, hrun, by rw [hq], by rw [hq], by rw [hq], by rw [hq], hcontents, howner⟩
  · obtain ⟨t, q, hrun, ht⟩ :=
      run_predFails (.deq d tmo) hv hme hs cw alt k hfree (not_pred_deq (by rw [← hlen, hempty]; rfl))
    exact ⟨t, hrun, by rw [ht.portAt_me], by rw [ht.portAt_me], by rw [ht.portAt_me]; rfl, ht.contents.trans hempty,
      ht.owner⟩
  · obtain ⟨dir, hk⟩ := mpmcKind_of_nonblocking hi
    obtain ⟨t, q, hrun, ht⟩ := run_lockBusy hk hv hme hs cw alt k hlock
    exact ⟨t, hrun, by rw [ht.portAt_me], by rw [ht.portAt_me], by rw [ht.portAt_me], ht.contents, ht.owner⟩

end Sys2Proof.Machine
end

section
/-! SUPPORT. The times of a timed command in whole steps: its failures and its deadline (R213, R215, R219, R221, R222),
read off the times that every consistent state has (`Port.TimesOk`). -/

namespace Sys2Proof.Machine

/-! ### No failure before the timeout (R215) -/

/-- Settles O48: the state after the step is consistent, so its failed command is late there, and the step, a turn of
the port, has not changed `now`. -/
theorem timeoutLowerBound : Obligations.TimeoutLowerBound := by
  intro s t p hI hv h hs ht hok hop
  obtain ⟨a, i, -, hx⟩ := turn_of_step_to_done hI h hs ht
  have hnow : t.now = s.now := (moved_now (exec_moved hx)).trans rfl
  have htimes := ((inv_of_step hI h).mpmc (step_cfg h ▸ hv)).times p
  have hcode : opTimed (t.portAt p).op = true ∧ opReserved (t.portAt p).op = false := by
    rcases hop with hop | hop <;> simp [hop]
  rw [← hnow]
  exact htimes.late hcode.1 hcode.2 ht hok

/-! ### The deadline (R157, R221) -/

/-- `t1 + (timeout - elapsed)` is `start + timeout` for a command in time. -/
theorem deadlineOf_inTime {start t1 timeout : Nat} (h : start ≤ t1) (hg : t1 - start < timeout) :
    deadlineOf false start t1 timeout = start + timeout := by
  rw [deadlineOf, if_neg Bool.false_ne_true]
  omega

theorem deadlineOf_legacy (start t1 timeout : Nat) : deadlineOf true start t1 timeout = t1 + timeout := if_pos rfl

/-- Of the steps of a port only `ELAPSED` sets its deadline. -/
theorem own_deadline {i : Instr} {s : State} {q : Port} (h : Own i s q) (hd : q.deadline ≠ s.cur.deadline) :
    s.cur.st = .elapsed ∧ q.st = .pred ∧ ∃ alt k, s.sel.act = .move alt k := by
  cases h
  case elapsed alt k ha hi ht hs hg => exact ⟨hs, rfl, alt, k, ha⟩
  all_goals simp at hd  -- the other records have the deadline that was there

/-- Settles O49: a step changes the deadline by `ELAPSED` alone, and the state after it is consistent, so that the
deadline past `ELAPSED` is that of the command's budget. -/
theorem deadlineFixed : Obligations.DeadlineFixed := by
  intro s t p hI hv h hr
  refine ⟨fun hd => ?_, fun htimed hst => ?_⟩
  · have hport := step_port hI h p
    generalize t.portAt p = q at hport hd
    cases hport with
    | keep _ | wake _ _ => exact absurd rfl hd
    | reset he _ => exact absurd he hr
    | turn a i he _ _ hown =>
      obtain ⟨hs, hq, alt, k, ha⟩ := own_deadline hown hd
      exact ⟨hs, hq, alt, k, he.trans (congrArg (Event.turn p) ha)⟩
  · have htimes := ((inv_of_step hI h).mpmc (step_cfg h ▸ hv)).times p
    have hbudgeted : (t.portAt p).st.budgeted := hst.imp_right (Or.imp_right (Or.imp_right .inl))
    obtain ⟨hstart, -, hin, hdeadline⟩ := htimes.budget htimed hbudgeted
    refine ⟨fun hmode => ?_, fun hlegacy hop => ?_⟩
    · have hbudget : (t.cfg.legacyDeqBudget && opDir (t.portAt p).op == .deq) = false := by
        rcases hmode with hmode | hmode <;> simp [hmode]
      rw [hdeadline, hbudget, deadlineOf_inTime hstart hin]
    · rw [hlegacy, hop, opDir_3, beq_self_eq_true, Bool.and_true, deadlineOf_legacy] at hdeadline
      omega

end Sys2Proof.Machine
end

section
/-! SUPPORT. An MPMC timed command whose port takes its turns undisturbed (R211, R212, R223, R226, R227). As for a
nonblocking one the states on the way are compared with the state the run began in, and no tick falls between
(`Unticked`). -/

namespace Sys2Proof.Machine

/-- An `Attempt` within one tick. -/
structure Unticked (s t : State) (o : Option Nat) (q : Port) : Prop extends Attempt s t o q where
  now : t.now = s.now

/-- One more turn. -/
theorem Unticked.turn {s t u : State} {o o' : Option Nat} {q q' : Port} {a : Act} (h : Unticked s t o q)
    (ht : (t.withTurn t.me a).portAndOwner u o' q') : Unticked s u o' q' := by
  refine ⟨h.toAttempt.turn ht, ?_⟩
  obtain ⟨-, -, -, ⟨-, hnow, -, -, -⟩, -⟩ := ht
  exact hnow.trans h.now

section
variable {s t : State} {o : Option Nat} {q : Port} (h : Attempt s t o q) (a : Act)
include h

theorem Attempt.cur_withTurn : (t.withTurn t.me a).cur = q := h.cur

theorem Attempt.me_withTurn : (t.withTurn t.me a).me = s.me := h.me

end

/-- The elements held are told by the queue alone (R41, R50). -/
theorem contents_of_queueKept {s t : State} (h : s.queueKept t) (hcfg : t.cfg = s.cfg) : t.contents = s.contents := by
  obtain ⟨hwi, hri, hsize, hslots⟩ := h
  have hcount : t.count = s.count := by simp only [State.count, State.spscCount, hcfg, hwi, hri, hsize]
  rw [contents_held, contents_held, hcfg, hri, hcount, held_congr hslots]

/-! ### The turns before the transfer -/

/-- `LOCK_TIMED` of either command (R153, R154). -/
theorem lockTimed_leaves {i : Instr} {dir : Dir} {s : State} (hk : MpmcKind i true dir) (hme : s.me < s.ports.length)
    (hs : s.cur.st = .acqTimed) (k : Nat) :
    (s.sel.act = .move false k → s.owner = none →
      ∃ t, exec i s = .next t ∧ s.portAndOwner t (some s.me) { s.cur with t1 := s.now, st := .elapsed }) ∧
    (s.sel.act = .move true k → s.cur.timeout ≤ s.now - s.cur.start →
      ∃ t, exec i s = .next t ∧ s.onlyPort t (s.cur.completed false .timeoutLock)) := by
  cases hk with
  | enqt d tmo => exact lockSteps.2.1 _ s d tmo k (.inl rfl) hme hs
  | deqt d tmo => exact lockSteps.2.1 _ s d tmo k (.inr rfl) hme hs

section
variable {i : Instr} {dir : Dir} {s : State} (hk : MpmcKind i true dir) (hv : s.cfg.variant = .mpmc)
  (hme : s.me < s.ports.length) (hs : s.cur.st = .idle) (cw k : Nat)
include hk hv hme hs

/-- `ISSUE` (R150). -/
theorem unticked_issue : ∃ t q, exec i (s.withTurn s.me (.issue cw)) = .next t ∧ Unticked s t s.owner q ∧
    q.st = .acqTimed ∧ q.start = s.now ∧ q.timeout = i.timeout ∧ q.data = i.data := by
  have hf : firstState i = some .acqTimed := by cases hk <;> rfl
  obtain ⟨t, n, hx, ho⟩ := issue_latches (s := s.withTurn s.me (.issue cw)) hv hme rfl hs hf
  exact ⟨t, _, hx, Unticked.turn ⟨attempt_self s, rfl⟩ ho, rfl, rfl, rfl, rfl⟩

/-- With no time left the wait for the lock may expire at once (R154, R226). -/
theorem run_expire (h0 : i.timeout = 0) : ∃ (t : State) (q : Port),
    runActs i [.issue cw, .move true k] s = .next t ∧ Attempt s t s.owner (q.completed false .timeoutLock) := by
  obtain ⟨t, q, hx, ht, hst, -, htmo, -⟩ := unticked_issue hk hv hme hs cw
  obtain ⟨hme', hst', -⟩ := ht.turnIn hme hst true k
  obtain ⟨u, hy, ho⟩ := (lockTimed_leaves hk hme' hst' k).2 rfl (by simp [ht.cur_withTurn, htmo, h0])
  have hu := ht.toAttempt.turn ho
  rw [withTurn_owner, ht.owner] at hu
  exact ⟨u, _, (runActs_cons hx _).trans (runActs_cons hy []), hu⟩

variable (hfree : s.owner = none)
include hfree

/-- With the lock free the command is granted it in the tick of its `ISSUE`. -/
theorem unticked_elapsed : ∃ (t : State) (q : Port),
    (∀ as, runActs i (.issue cw :: .move false k :: as) s = runActs i as t) ∧ Unticked s t (some s.me) q ∧
      q.st = .elapsed ∧ q.start = s.now ∧ q.t1 = s.now ∧ q.timeout = i.timeout ∧ q.data = i.data := by
  obtain ⟨t, q, hx, ht, hst, hstart, htmo, hdata⟩ := unticked_issue hk hv hme hs cw
  obtain ⟨hme', hst', -⟩ := ht.turnIn hme hst false k
  obtain ⟨u, hy, ho⟩ := (lockTimed_leaves hk hme' hst' k).1 rfl (ht.owner.trans hfree)
  have hu := ht.turn ho
  rw [ht.cur_withTurn, withTurn_now, ht.now, ht.me_withTurn] at hu
  exact ⟨u, _, fun as => (runActs_cons hx _).trans (runActs_cons hy as), hu, rfl, hstart, rfl, htmo, hdata⟩

/-- With no time left `ELAPSED` is late even so (R226). -/
theorem run_elapsedLate (h0 : i.timeout = 0) : ∃ (t : State) (q : Port),
    runActs i [.issue cw, .move false k, .move false k] s = .next t ∧
      Attempt s t none (q.completed false .timeoutLock) := by
  obtain ⟨t, q, hrun, ht, hst, -, -, htmo, -⟩ := unticked_elapsed hk hv hme hs cw k hfree
  obtain ⟨u, hx, ho⟩ := elapsed_late hk (ht.turnIn hme hst false k) (by simp [ht.cur_withTurn, htmo, h0])
  exact ⟨u, _, (hrun _).trans (runActs_cons hx []), ht.toAttempt.turn ho⟩

variable (htmo : 1 ≤ i.timeout)
include htmo

/-- With time left the command comes to its predicate; as no tick has passed, both budgets give one deadline (R157,
R221). -/
theorem unticked_pred : ∃ (t : State) (q : Port),
    (∀ as, runActs i (.issue cw :: .move false k :: .move false k :: as) s = runActs i as t) ∧
      Unticked s t (some s.me) q ∧ q.st = .pred ∧ q.deadline = s.now + i.timeout ∧ q.data = i.data := by
  obtain ⟨t, q, hrun, ht, hst, hstart, ht1, hq, hdata⟩ := unticked_elapsed hk hv hme hs cw k hfree
  obtain ⟨u, hx, ho⟩ := elapsed_inTime hk (ht.turnIn hme hst false k) (by rw [ht.cur_withTurn]; omega) rfl
  have hu := ht.turn ho
  rw [ht.cur_withTurn, withTurn_owner, ht.owner, hstart, ht1, hq] at hu
  refine ⟨u, _, fun as => (hrun _).trans (runActs_cons hx as), hu, rfl, ?_, hdata⟩
  simp [deadlineOf]

/-- On a false predicate the command waits, holding nothing (R158, R227). -/
theorem run_predWaits (hg : ¬ s.pred dir = true) : ∃ t : State,
    runActs i (.issue cw :: List.replicate 3 (.move false k)) s = .next t ∧ (t.portAt s.me).st = .cwait ∧
      (t.portAt s.me).deadline = s.now + i.timeout ∧ s.me ∈ t.waitSet (waitsOn dir) ∧ t.contents = s.contents ∧
      t.owner = none := by
  obtain ⟨t, q, hrun, ht, hst, hdeadline, -⟩ := unticked_pred hk hv hme hs cw k hfree htmo
  have hturn := ht.turnIn hme hst false k
  obtain ⟨u, hx, hqueue, howner, -, hwait, ⟨hcfg, -⟩, hport⟩ :=
    pred_waits hturn (by rwa [pred_withTurn, ht.pred]) hk (by rw [ht.cur_withTurn, withTurn_now, ht.now]; omega)
  rw [ht.cur_withTurn, ht.me_withTurn] at hport
  refine ⟨u, (hrun _).trans (runActs_cons hx []), by rw [portAt_of_portBecomes hport],
    by rw [portAt_of_portBecomes hport]; exact hdeadline, (hwait s.me).mpr (.inl (ht.me_withTurn _).symm), ?_, howner⟩
  exact (contents_of_queueKept hqueue hcfg).trans ht.contents

/-- On a true one the command comes to its transfer. -/
theorem unticked_xfer (hg : s.pred dir = true) : ∃ (t : State) (q : Port),
    (∀ as, runActs i (.issue cw :: .move false k :: .move false k :: .move false k :: as) s = runActs i as t) ∧
      Attempt s t (some s.me) q ∧ q.st = .xfer ∧ q.data = i.data := by
  obtain ⟨t, q, hrun, ht, hst, -, hdata⟩ := unticked_pred hk hv hme hs cw k hfree htmo
  obtain ⟨u, hx, ho⟩ := pred_holds (ht.turnIn hme hst false k) hk (by rwa [pred_withTurn, ht.pred])
  have hu := ht.toAttempt.turn ho
  rw [ht.cur_withTurn, withTurn_owner, ht.owner] at hu
  exact ⟨u, _, fun as => (hrun _).trans (runActs_cons hx as), hu, rfl, hdata⟩

end

/-! ### The turns from the transfer on -/

section
variable {i : Instr} {timed : Bool} {s t : State} {o : Option Nat} {q : Port} (h : Attempt s t o q) (hI : s.Inv)
  (hv : s.cfg.variant = .mpmc) (hme : s.me < s.ports.length) (hs : s.cur.st = .idle) (hst : q.st = .xfer) (alt : Bool)
  (k : Nat)
include h hI hv hme hs hst

/-- An enqueue come to its transfer stores its element behind those held (R166). -/
theorem Attempt.run_doEnq (hk : MpmcKind i timed .enq) (hroom : s.size < s.cfg.capacity) : ∃ w,
    runActs i (List.replicate 3 (.move alt k)) t = .next w ∧
      w.portAt s.me = ({ q with st := .rel } : Port).completed true .none ∧ w.contents = s.contents ++ [q.data] ∧
      w.owner = none := by
  obtain ⟨d, tmo, hi⟩ : ∃ d tmo, i = .mpmcEnq d tmo ∨ i = .mpmcEnqt d tmo := by
    cases hk with
    | enq d tmo => exact ⟨d, tmo, .inl rfl⟩
    | enqt d tmo => exact ⟨d, tmo, .inr rfl⟩
  obtain ⟨hwi, hri, hsize, hslots⟩ := h.queue
  obtain ⟨u, hx, hslot, hkept, -, hsize', hri', -, hwait, ⟨hcfg, -, hsel, -, -⟩, hport⟩ :=
    doEnqStores i _ d tmo hi (h.turnIn hme hst alt k)
      (show t.wi < t.cfg.capacity by rw [hwi, h.cfg]; exact hI.typed.wi_lt)
  rw [h.cur_withTurn] at hslot hport
  obtain ⟨w, hrun, hq, hcontents, howner⟩ := h.run_transfer hI hk hme hs hx hwait hsel hport rfl
  refine ⟨w, hrun, hq, hcontents.trans ?_, howner⟩
  exact contents_after_doEnq hI hv hroom (hcfg.trans h.cfg) (hri'.trans hri) (hsize'.trans (congrArg (· + 1) hsize))
    (hwi ▸ hslot) fun j hj => (hkept j (hwi ▸ hj)).trans (hslots j)

/-- A dequeue come to its transfer takes the oldest element (R167). -/
theorem Attempt.run_doDeq (hk : MpmcKind i timed .deq) {v : Nat} {rest : List Nat} (hcs : s.contents = v :: rest) : ∃ w,
    runActs i (List.replicate 3 (.move alt k)) t = .next w ∧
      w.portAt s.me = ({ q with rspData := v, st := .rel } : Port).completed true .none ∧ w.contents = rest ∧
      w.owner = none := by
  obtain ⟨d, tmo, hi⟩ : ∃ d tmo, i = .mpmcDeq d tmo ∨ i = .mpmcDeqt d tmo := by
    cases hk with
    | deq d tmo => exact ⟨d, tmo, .inl rfl⟩
    | deqt d tmo => exact ⟨d, tmo, .inr rfl⟩
  obtain ⟨hpos, hhead, hrest⟩ := head_of_contents_mpmc hI hv hcs
  obtain ⟨-, hri, hsize, hslots⟩ := h.queue
  obtain ⟨u, hx, hkept, hri', hsize', -, -, hwait, ⟨hcfg, -, hsel, -, -⟩, hport⟩ :=
    doDeqReads i _ d tmo v hi (h.turnIn hme hst alt k)
      (show t.ri < t.cfg.capacity by rw [hri, h.cfg]; exact hI.typed.ri_lt)
      (show slotAt t.storage t.ri = some v by rw [hslots, hri, hhead]) (show 0 < t.size by rwa [hsize])
  rw [h.cur_withTurn] at hport
  obtain ⟨w, hrun, hq, hcontents, howner⟩ := h.run_transfer hI hk hme hs hx hwait hsel hport rfl
  refine ⟨w, hrun, hq, hcontents.trans ?_, howner⟩
  have hcfg' : u.cfg = s.cfg := hcfg.trans h.cfg
  have hri'' : u.ri = adv s.cfg s.ri := by rw [hri', withTurn_ri, withTurn_cfg, hri, h.cfg, adv]
  have hsize'' : u.size = s.size - 1 := by
    rw [withTurn_size, hsize] at hsize'
    omega
  rw [contents_held, count_mpmc (hcfg' ▸ hv), hcfg', hri'', hsize'', held_congr fun j => (hkept j).trans (hslots j)]
  exact hrest

end

/-! ### Against the abstract queue -/

/-- Settles O33: a predicate that holds leads to the transfer, one that does not to the wait, and which it is is read
off the number of elements held. -/
theorem timedSequential : Obligations.TimedSequential := by
  intro s cw d tmo k hI hv hp hs hfree htmo
  have hme : s.me < s.ports.length := hI.typed.port_count ▸ hp
  have hlen := length_contents_mpmc hI hv
  refine ⟨fun hroom => ?_, fun v rest hcs => ?_, fun hfull => ?_, fun hempty => ?_⟩
  · rw [hlen] at hroom
    obtain ⟨t, q, hrun, ht, hst, hdata⟩ :=
      unticked_xfer (.enqt d tmo) hv hme hs cw k hfree htmo ((pred_enq_iff s).mpr hroom)
    obtain ⟨u, hrun', hq, hcontents, howner⟩ := ht.run_doEnq hI hv hme hs hst false k (.enqt d tmo) hroom
    rw [show q.data = d from hdata] at hcontents
    exact ⟨u, (hrun _).trans hrun', by rw [hq], by rw [hq], by rw [hq], hcontents, howner⟩
  · have hpos : 0 < s.size := by simp [← hlen, hcs]
    obtain ⟨t, q, hrun, ht, hst, -⟩ :=
      unticked_xfer (.deqt d tmo) hv hme hs cw k hfree htmo ((pred_deq_iff s).mpr hpos)
    obtain ⟨u, hrun', hq, hcontents, howner⟩ := ht.run_doDeq hI hv hme hs hst false k (.deqt d tmo) hcs
    exact ⟨u, (hrun _).trans hrun', by rw [hq], by rw [hq], by rw [hq], by rw [hq], hcontents, howner⟩
  · exact run_predWaits (.enqt d tmo) hv hme hs cw k hfree htmo (mt (pred_enq_iff s).mp (by omega))
  · rw [← hempty]
    exact run_predWaits (.deqt d tmo) hv hme hs cw k hfree htmo (not_pred_deq (by rw [← hlen, hempty]; rfl))

/-! ### A timeout of 0 (R226) -/

/-- `ELAPSED` lets no command with `timeout = 0` past. -/
theorem not_budgeted_of_timeout_zero {c : Config} {now : Nat} {q : Port} (h : q.TimesOk c now)
    (ht : opTimed q.op = true) (h0 : q.timeout = 0) : ¬ q.st.budgeted := by
  intro hs
  obtain ⟨-, -, hin, -⟩ := h.budget ht hs
  exact Nat.not_lt_zero _ (h0 ▸ hin)

/-- Settles O34: with `timeout = 0` both the expiry and, after a grant, `ELAPSED` find the command late, and no other
state that a timed command in flight can stand in is possible without a budget. -/
theorem timeoutZeroFails : Obligations.TimeoutZeroFails := by
  refine ⟨fun i s cw d k hi hI hv hp hs => ?_, fun s p hI hv htimed hf h0 => ?_⟩
  · obtain ⟨dir, hk⟩ := mpmcKind_of_timed hi
    have hme : s.me < s.ports.length := hI.typed.port_count ▸ hp
    have htmo : i.timeout = 0 := by rcases hi with rfl | rfl <;> rfl
    obtain ⟨t, q, hrun, ht⟩ := run_expire hk hv hme hs cw k htmo
    refine ⟨⟨t, hrun, by rw [ht.portAt_me], by rw [ht.portAt_me], by rw [ht.portAt_me], ht.contents⟩, fun hfree => ?_⟩
    obtain ⟨u, q', hrun', hu⟩ := run_elapsedLate hk hv hme hs cw k hfree htmo
    exact ⟨u, hrun', by rw [hu.portAt_me], by rw [hu.portAt_me], by rw [hu.portAt_me], hu.contents, hu.owner⟩
  · have hok := mpmcOk_of_inv (hI.mpmc hv) p
    have hlate := not_budgeted_of_timeout_zero hok.times htimed h0
    have hcode := hok.state
    cases hst : (s.portAt p).st with
    | acqTimed => exact .inl rfl
    | elapsed => exact .inr rfl
    | idle | done => simp [Port.inFlight, hst] at hf
    | check | adv => simp [hst, PState.mpmcCode] at hcode
    | acqTry => simp [hok.nonblocking hst] at htimed
    | pred | cwait | reacq | xfer | rel | sig => simp [PState.budgeted, hst] at hlate

end Sys2Proof.Machine
end

section
/-! SUPPORT. What takes no step (R283, log 13): parameters that are not legal, and words that the decoder refuses. -/

namespace Sys2Proof.Machine

theorem step_of_not_legal {s : State} (hl : ¬ s.cfg.Legal) : step s = .refused .illegalConfiguration := if_neg hl

/-- An instance without a slot is none (R282). -/
theorem not_legal_of_capacity_zero {c : Config} (h0 : c.capacity = 0) : ¬ c.Legal := fun hl =>
  absurd (h0 ▸ hl.1) (by decide)

/-- A turn whose word does not decode is refused: the other side of `step_of_turn`. -/
theorem step_of_undecoded {s : State} {p : Nat} {a : Act} {e : DecodeError} (hl : s.cfg.Legal)
    (he : s.nextEvent = .turn p a) (hd : decode s.cfg p (s.takeEvent.withTurn p a).commandWord = .error e) :
    step s = .refused (refusalOf e) := by
  simp only [step, if_pos hl, he, hd]

theorem decode_noSuchPort {c : Config} {p : Nat} (w : Nat) (hp : c.numPorts ≤ p) :
    decode c p w = .error .noSuchPort := if_neg (Nat.not_lt_of_le hp)

theorem decode_wordTooWide {c : Config} {p w : Nat} (hp : p < c.numPorts) (hw : 2 ^ c.commandWidth ≤ w) :
    decode c p w = .error .wordTooWide := by
  rw [decode, if_pos hp, if_neg (Nat.not_lt_of_le hw)]

/-- Settles O8: by what is wrong, the parameters, the port or the word presented. -/
theorem refusedTurns : Obligations.RefusedTurns :=
  ⟨fun _ => ⟨step_of_not_legal, not_legal_of_capacity_zero⟩, fun _ _ cw hl he =>
    ⟨fun hp => step_of_undecoded hl he (decode_noSuchPort cw hp),
     fun hp hw => step_of_undecoded hl he (decode_wordTooWide hp hw)⟩⟩

end Sys2Proof.Machine
end

section
/-! SUPPORT. Deadlock freedom (R297, R299): `MovesOn s p` says that port `p` has a turn that changes its state. One lemma for
each way a port can stand: completed, in an unguarded state, waiting with its guard true, and waiting for a lock, whose holder
is then in an unguarded state. -/

namespace Sys2Proof.Machine

/-- The port has a command, and a turn that takes it to another state. -/
def MovesOn (s : State) (p : Nat) : Prop :=
  ∃ a t, (s.portAt p).st ≠ .idle ∧ step { s with script := .turn p a :: s.script } = .next t ∧
    (t.portAt p).st ≠ (s.portAt p).st

/-- The state in which port `p` takes the turn `a`, if that is what happens next. -/
def State.atTurn (s : State) (p : Nat) (a : Act) : State := { s with seq := s.seq + 1 }.withTurn p a

/-- A port with a command, in flight or completed, exists. -/
theorem lt_length_of_not_idle {s : State} {p : Nat} (hs : (s.portAt p).st ≠ .idle) : p < s.ports.length :=
  Nat.lt_of_not_le fun hle => hs (by rw [portAt_of_length_le s hle, Port.reset_st])

/-- The command latched with a timed operation code on an MPMC machine (R98). -/
theorem mpmcKind_latched {s : State} {p : Nat} (hv : s.cfg.variant = .mpmc) (hr : opReserved (s.portAt p).op = false)
    (ht : opTimed (s.portAt p).op = true) : MpmcKind (s.latched p) true (opDir (s.portAt p).op) := by
  simp only [State.latched, decodeFields, hv, hr, ht]
  cases opDir (s.portAt p).op with
  | enq => exact .enqt _ _
  | deq => exact .deqt _ _

section
variable {s : State} {p : Nat} (hI : s.Inv)
include hI

/-- The step of the latched command that a turn takes moves the port on if the record it leaves has another state. -/
theorem movesOn_of_exec (hs : (s.portAt p).st ≠ .idle) {a : Act} (ha : ∀ cw, a ≠ .issue cw) {t : State} {q : Port}
    (hx : exec (s.latched p) (s.atTurn p a) = .next t) (hp : (s.atTurn p a).portBecomes t p q)
    (hq : q.st ≠ (s.portAt p).st) : MovesOn s p := by
  have hI' := inv_withSchedule hI s.sel (.turn p a :: s.script) s.seq
  have hstep := latchedCommandRuns _ p a hI' (hI.typed.port_count ▸ lt_length_of_not_idle hs) rfl ha
  exact ⟨a, t, hs, hstep.trans hx, by rwa [portAt_of_portBecomes hp]⟩

/-- A completed command waits for its host's `ACCEPT` alone (R131, R168). -/
theorem movesOn_of_done (hs : (s.portAt p).st = .done) : MovesOn s p := by
  have hidle : (s.portAt p).st ≠ .idle := by simp [hs]
  obtain ⟨t, hx, -, -, -, -, hp⟩ :=
    acceptReturnsToIdle (s.latched p) (s.atTurn p .accept) (lt_length_of_not_idle hidle) rfl hs
  exact movesOn_of_exec hI hidle (by simp) hx hp hidle.symm

/-- A command in flight that does not wait (R297). -/
theorem movesOn_of_unguarded (hf : (s.portAt p).inFlight = true) (hacq : (s.portAt p).st ≠ .acqTimed)
    (hcwait : (s.portAt p).st ≠ .cwait) (hreacq : (s.portAt p).st ≠ .reacq) : MovesOn s p := by
  obtain ⟨t, hstep, hne⟩ := unguardedStepsProgress _ p false 0
    (inv_withSchedule hI s.sel (.turn p (.move false 0) :: s.script) s.seq) rfl hf hacq hcwait hreacq
  exact ⟨_, t, fun hs => by simp [Port.inFlight, hs] at hf, hstep, hne⟩

/-- The holder of the lock does not wait (R45). -/
theorem movesOn_of_holdsLock (hh : (s.portAt p).st.holdsLock = true) : MovesOn s p := by
  refine movesOn_of_unguarded hI ?_ ?_ ?_ ?_ <;> cases hs : (s.portAt p).st <;>
    simp [hs, PState.holdsLock, Port.inFlight] at hh ⊢

end

/-! ### The states in which a timed command waits -/

section
variable {s : State} {p : Nat} (hI : s.Inv)
include hI

/-- Only an MPMC command waits, and only a timed one (R31, R45). -/
theorem timed_of_waiting (hw : (s.portAt p).st = .acqTimed ∨ (s.portAt p).st = .cwait ∨ (s.portAt p).st = .reacq) :
    s.cfg.variant = .mpmc ∧ MpmcKind (s.latched p) true (opDir (s.portAt p).op) := by
  have hv : s.cfg.variant = .mpmc := by
    cases hv : s.cfg.variant with
    | mpmc => rfl
    | spsc =>
      have hcode := (hI.spsc hv).states p
      rcases hw with hs | hs | hs <;> simp [hs, PState.spscCode] at hcode
  have hM := hI.mpmc hv
  refine ⟨hv, mpmcKind_latched hv (hM.unreserved p ?_) (hM.timed p ?_)⟩
  · rcases hw with hs | hs | hs <;> simp [Port.inFlight, hs]
  · exact hw.imp_right .inr

/-- `LOCK_TIMED` and `LOCK_REACQ` with the lock free (R153, R155). -/
theorem movesOn_of_lockFree (hs : (s.portAt p).st = .acqTimed ∨ (s.portAt p).st = .reacq) (hg : s.owner = none) :
    MovesOn s p := by
  have hidle : (s.portAt p).st ≠ .idle := by rcases hs with hs | hs <;> simp [hs]
  have hme := lt_length_of_not_idle hidle
  have hk := (timed_of_waiting hI (hs.imp_right .inr)).2
  rcases hs with hs | hs
  · obtain ⟨t, hx, -, -, -, -, hp⟩ := (lockTimed_leaves (s := s.atTurn p (.move false 0)) hk hme hs 0).1 rfl hg
    exact movesOn_of_exec hI hidle (by simp) hx hp (by simp [hs])
  · obtain ⟨t, hx, -, -, -, -, hp⟩ := lockReacq_free (s := s.atTurn p (.move false 0)) hk ⟨hme, hs, _, _, rfl⟩ hg
    exact movesOn_of_exec hI hidle (by simp) hx hp (by simp [hs])

/-- `WAKE_DEADLINE` (R162). -/
theorem movesOn_of_deadline (hs : (s.portAt p).st = .cwait) (hg : (s.portAt p).deadline ≤ s.now) : MovesOn s p := by
  have hidle : (s.portAt p).st ≠ .idle := by simp [hs]
  obtain ⟨t, hx, -, -, -, -, -, hp⟩ := wait_exits (s := s.atTurn p (.move false 0)) (k := 0)
    (timed_of_waiting hI (.inr (.inl hs))).2 (lt_length_of_not_idle hidle) hs (.inl ⟨rfl, hg⟩)
  exact movesOn_of_exec hI hidle (by simp) hx hp (by simp [hs])

/-- Where a port waits for the lock, it or the lock's holder moves on. -/
theorem exists_movesOn_of_lockWait (hs : (s.portAt p).st = .acqTimed ∨ (s.portAt p).st = .reacq) :
    ∃ r, MovesOn s r := by
  have hv := (timed_of_waiting hI (hs.imp_right .inr)).1
  cases hown : s.owner with
  | none => exact ⟨p, movesOn_of_lockFree hI hs hown⟩
  | some r => exact ⟨r, movesOn_of_holdsLock hI (((hI.mpmc hv).lock r).mp hown)⟩

/-- When no port moves on, each is `IDLE` or waits for time alone. -/
theorem idle_or_waits_of_not_movesOn (hn : ¬ ∃ r, MovesOn s r) :
    (s.portAt p).st = .idle ∨ ((s.portAt p).st = .cwait ∧ s.now < (s.portAt p).deadline) := by
  by_cases hidle : (s.portAt p).st = .idle
  · exact .inl hidle
  by_cases hdone : (s.portAt p).st = .done
  · exact absurd ⟨p, movesOn_of_done hI hdone⟩ hn
  by_cases hlock : (s.portAt p).st = .acqTimed ∨ (s.portAt p).st = .reacq
  · exact absurd (exists_movesOn_of_lockWait hI hlock) hn
  by_cases hcwait : (s.portAt p).st = .cwait
  · exact .inr ⟨hcwait, Nat.lt_of_not_le fun hg => hn ⟨p, movesOn_of_deadline hI hcwait hg⟩⟩
  · obtain ⟨hacq, hreacq⟩ := not_or.mp hlock
    exact absurd ⟨p, movesOn_of_unguarded hI (by simp [Port.inFlight, hidle, hdone]) hacq hcwait hreacq⟩ hn

end

/-- Settles O53: a port with a command moves on, waits before its deadline, or waits for the lock; then the lock is free and
it moves on, or the lock's holder does. -/
theorem noDeadlock : Obligations.NoDeadlock := by
  intro s hI _
  by_cases hmoves : ∃ p, MovesOn s p
  · obtain ⟨p, a, t, hidle, hstep, hne⟩ := hmoves
    exact .inl ⟨p, a, t, hidle, hstep, hne⟩
  · exact .inr fun _ => idle_or_waits_of_not_movesOn hI hmoves

end Sys2Proof.Machine
end

section
/-! SUPPORT. How a word enters from outside (log 14): `firstReadyPort` is a ready port when there is one, and the state that
`present` answers is `s` again, one event later, once that event is taken. -/

namespace Sys2Proof.Machine

/-- While some port is `IDLE`, `firstReadyPort` is where the search for one ends (R91). -/
theorem findIdx?_firstReadyPort {s : State} (h : ∃ q ∈ s.ports, q.st = .idle) :
    s.ports.findIdx? (fun q => q.st == .idle) = some s.firstReadyPort := by
  have hfound : (s.ports.findIdx? fun q => q.st == .idle).isSome = true := by
    simpa [List.findIdx?_isSome] using h
  obtain ⟨p, hp⟩ := Option.isSome_iff_exists.mp hfound
  rw [State.firstReadyPort, hp, Option.getD_some]

/-- The port found exists and is `IDLE`. -/
theorem firstReadyPort_ready {s : State} (h : ∃ q ∈ s.ports, q.st = .idle) :
    (s.portAt s.firstReadyPort).st = .idle ∧ s.firstReadyPort < s.ports.length := by
  obtain ⟨hlt, hidle, -⟩ := List.findIdx?_eq_some_iff_getElem.mp (findIdx?_firstReadyPort h)
  refine ⟨?_, hlt⟩
  rw [State.portAt, List.getD_eq_getElem?_getD, List.getElem?_eq_getElem hlt, Option.getD_some]
  exact eq_of_beq hidle

@[simp] theorem present_nextEvent (s : State) (cw : Nat) :
    (s.present cw).nextEvent = .turn s.firstReadyPort (.issue cw) := rfl

@[simp] theorem present_takeEvent (s : State) (cw : Nat) : (s.present cw).takeEvent = { s with seq := s.seq + 1 } := rfl

/-- A word presented that decodes at the first ready port is issued there by the next step. -/
theorem step_present {s : State} {cw : Nat} {i : Instr} (hl : s.cfg.Legal)
    (hd : decode s.cfg s.firstReadyPort cw = .ok i) :
    step (s.present cw) = exec i ({ s with seq := s.seq + 1 }.withTurn s.firstReadyPort (.issue cw)) := by
  have hword : decode (s.present cw).cfg s.firstReadyPort
      ((s.present cw).takeEvent.withTurn s.firstReadyPort (.issue cw)).commandWord = .ok i := by
    rw [commandWord_withTurn_issue]
    exact hd
  rw [step_of_turn (s := s.present cw) hl (present_nextEvent s cw) hword, present_takeEvent]

/-- Settles O12: the first ready port is ready because some port is, and the word cut to `nbits` bits is the one presented. -/
theorem fetchWordRuns : Obligations.FetchWordRuns := by
  intro s nbits w i hl hd hidle
  obtain ⟨hready, hlt⟩ := firstReadyPort_ready hidle
  exact ⟨hready, hlt, step_present hl hd⟩

end Sys2Proof.Machine
end

section
/-! SUPPORT. Consistency as an invariant (10_state.md section 9): the reset state has it and every step keeps it; and what a
consistent state tells of the queue: how many elements it holds, and what a step does to them (R41, R46, R50, R70). -/

namespace Sys2Proof.Machine

/-- Settles O37: each step is a tick, a reset or a turn, and each of the three keeps consistency. -/
theorem invKept : Obligations.InvKept := fun _ _ hI h => inv_of_step hI h

/-- Settles O39: a turn appends what enters and takes what leaves from the front, and a tick changes no slot. -/
theorem queueRefinement : Obligations.QueueRefinement := fun _ _ hI h hr => step_contents hI h hr

/-- Settles O36: by the ranges, the responses and the variant's invariants of a reset state. -/
theorem invAtReset : Obligations.InvAtReset :=
  ⟨inv_resetFor (c := Config.default) (by decide) 0, fun _ now hl => inv_resetFor hl now⟩

/-! ### The reset state (R38, R280) -/

/-- `RESET` is the one event of its step. -/
theorem step_of_reset {s : State} (hl : s.cfg.Legal) (he : s.nextEvent = .reset) : step s = reset s.takeEvent := by
  simp only [step, if_pos hl, he]

/-- The queue is empty after reset, and full only where it has no room at all (R25, R34). -/
theorem flags_resetFor {c : Config} (hl : c.Legal) (now : Nat) : (State.resetFor c now).empty = true ∧
    ((State.resetFor c now).full = true ↔ c.variant = .spsc ∧ c.capacity = 1) := by
  have hcap : 1 ≤ c.capacity := hl.1
  cases hv : c.variant
  case spsc =>
    simp [State.empty, State.full, State.resetFor, hv, State.spscEmpty, State.spscFull, adv, Nat.one_mod_eq_zero_iff]
  case mpmc =>
    have hne : ¬ 0 = c.capacity := by omega
    simp [State.empty, State.full, State.resetFor, hv, State.mpmcEmpty, State.mpmcFull, hne]

/-- Settles O6: every port is `Port.reset`, and the flags of an empty queue follow from the variant. -/
theorem resetValues : Obligations.ResetValues := by
  refine ⟨rfl, fun c now hl => ?_⟩
  obtain ⟨hempty, hfull⟩ := flags_resetFor hl now
  have hidle : ∀ p, ((State.resetFor c now).portAt p).st = .idle := by simp
  exact ⟨rfl, rfl, rfl, rfl, rfl, fun _ => rfl, rfl, rfl, rfl, List.length_replicate, hidle,
    fun p => by simp [State.cmdReady, State.rspValid], hempty, hfull,
    fun hv => by rw [capVector, hv], fun hv => by rw [capVector, hv]⟩

/-- Settles O7: by whether every port is `IDLE`, which is what the two clauses differ in. -/
theorem resetStep : Obligations.ResetStep := by
  intro s hl he
  rw [step_of_reset hl he, reset]
  refine ⟨fun hidle => ?_, fun ⟨q, hq, hs⟩ => ?_⟩
  · rw [if_pos (by simpa using hidle)]
    refine ⟨_, rfl, rfl, rfl, rfl, rfl, rfl, fun _ => rfl, rfl, rfl, rfl, List.length_replicate, fun p => ?_⟩
    exact congrArg Port.st ((portAt_congr rfl p).trans (portAt_resetFor s.cfg s.now p))
  · rw [if_neg]
    simpa using ⟨q, hq, hs⟩

/-! ### How many elements are held (R24 to R26, R42, R46) -/

/-- `spsc_count` by the formula of R24. -/
theorem indexGap_eq_mod {cap wi ri : Nat} (hw : wi < cap) (hr : ri < cap) : indexGap cap wi ri = (wi + cap - ri) % cap := by
  unfold indexGap
  rw [mod_of_lt_two_mul (by omega)]
  split <;> split <;> omega

/-- R46: the distance of the two indices of an MPMC machine is `size`, up to whole turns round the slots. -/
theorem index_distance {cap wi ri size : Nat} (hr : ri < cap) (hz : size ≤ cap)
    (hi : (ri + size) % cap = wi) : (wi + cap - ri) % cap = size % cap := by
  rw [mod_of_lt_two_mul (by omega)] at hi
  split at hi
  · rw [show wi + cap - ri = size + cap by omega, Nat.add_mod_right]
  · rw [show wi + cap - ri = size by omega]

/-- Settles O42: the slots counted all hold a value; the bounds are those of the two indices and of `size`. -/
theorem countOfContents : Obligations.CountOfContents := by
  intro s hI
  have hw := hI.typed.wi_lt
  have hr := hI.typed.ri_lt
  refine ⟨length_contents hI, fun hv => ?_, fun hv => ?_⟩
  · rw [count_spsc hv]
    exact ⟨indexGap_eq_mod hw hr, indexGap_lt hw hr⟩
  · have hM := hI.mpmc hv
    rw [count_mpmc hv]
    exact ⟨rfl, hM.size_le, index_distance hr hM.size_le hM.index⟩

end Sys2Proof.Machine
end

section
/-! SUPPORT. Who changes what, in whole steps: the lock (R29, R151), the other ports (R30, R161), the time base and the
parameters (R49, R165, R284). A step that is not a `RESET` is a tick or a turn (`step_turn`), so each is said of a turn first. -/

namespace Sys2Proof.Machine

/-! ### A step is a tick or a turn -/

/-- A step that is not a `RESET`, as the turn or the tick that it is. -/
inductive TickOrTurn (s t : State) : Prop where
  | tick (he : s.nextEvent = .tick) (ht : t = { s.takeEvent with now := s.now + 1 })
  | turn (p : Nat) (a : Act) (i : Instr) (he : s.nextEvent = .turn p a) (hI : (s.takeEvent.withTurn p a).Inv)
      (hc : Coherent i (s.takeEvent.withTurn p a)) (hme : p < s.ports.length) (hx : exec i (s.takeEvent.withTurn p a) = .next t)
      (hm : Moved i (s.takeEvent.withTurn p a) t)

theorem step_turn {s t : State} (hI : s.Inv) (h : step s = .next t) (hr : s.nextEvent ≠ .reset) : TickOrTurn s t := by
  rcases (step_next h).2 with ⟨he, ht⟩ | ⟨he, _⟩ | ⟨p, a, i, he, hd, hx⟩
  · exact .tick he (tick_next ht).2
  · exact absurd he hr
  · obtain ⟨hI', hc⟩ := turn_coherent hI hd
    exact .turn p a i he hI' hc (hI.typed.port_count ▸ hc.me_lt) hx (exec_moved hx)

/-- What a `RESET` can do. -/
theorem step_reset {s t : State} (h : step s = .next t) (he : s.nextEvent = .reset) :
    (∀ q ∈ s.ports, q.st = .idle) ∧
      t = { State.resetFor s.cfg s.now with sel := s.sel, script := s.script.tail, seq := s.seq + 1 } := by
  rw [step_of_reset (step_next h).1 he] at h
  exact reset_next h

/-! ### The lock (R29, R151) -/

/-- What a turn does to the lock, with the step that does it. -/
inductive OwnerMove (s t : State) : Prop where
  | same (ho : t.owner = s.owner)
  | acquire (alt : Bool) (k : Nat) (ha : s.sel.act = .move alt k)
      (hs : s.cur.st = .acqTry ∨ s.cur.st = .acqTimed ∨ s.cur.st = .reacq) (hf : s.owner = none)
      (ho : t.owner = some s.me)
  | release (alt : Bool) (k : Nat) (ha : s.sel.act = .move alt k)
      (hs : s.cur.st = .elapsed ∨ s.cur.st = .pred ∨ s.cur.st = .rel) (ho : t.owner = none)

theorem moved_owner {i : Instr} {s t : State} (h : Moved i s t) : OwnerMove s t := by
  cases h
  case lockTry alt k ha hi ht hs hg => exact .acquire alt k ha (.inl hs) hg rfl
  case lockGrant k ha hi ht hs hg => exact .acquire false k ha (.inr (.inl hs)) hg rfl
  case lockReacq alt k ha hi ht hs hg => exact .acquire alt k ha (.inr (.inr hs)) hg rfl
  case elapsedLate alt k ha hi ht hs hg => exact .release alt k ha (.inl hs) rfl
  case predFail alt k ha hi ht hs hg => exact .release alt k ha (.inr (.inl hs)) rfl
  case predLate alt k ha hi ht hs hg hl => exact .release alt k ha (.inr (.inl hs)) rfl
  case predWait alt k ha hi ht hs hg hl => exact .release alt k ha (.inr (.inl hs)) (by simp [enterWait])
  case unlock alt k ha hi hs => exact .release alt k ha (.inr (.inr hs)) rfl
  all_goals exact .same (by simp [issued, leaveWait])

/-- A port that holds the lock of a consistent state is in one of the states that do (R45). -/
theorem holdsLock_of_owner {s : State} (hI : s.Inv) {p : Nat} (ho : s.owner = some p) :
    s.cfg.variant = .mpmc ∧ (s.portAt p).st.holdsLock = true := by
  cases hv : s.cfg.variant
  case spsc => simp [(hI.spsc hv).no_mpmc_state.1] at ho
  case mpmc => exact ⟨rfl, ((hI.mpmc hv).lock p).mp ho⟩

/-- Settles O43: a release is a step of a port whose state holds the lock, which is the holder; a reset finds no port that
holds it. -/
theorem lockChangesHands : Obligations.LockChangesHands := by
  intro s t hI h
  by_cases hr : s.nextEvent = .reset
  · obtain ⟨hidle, rfl⟩ := step_reset h hr
    refine ⟨fun p ho _ => ?_, fun p ho => by simp [State.resetFor] at ho⟩
    have hheld := (holdsLock_of_owner hI ho).2
    simp [idle_of_all_idle hidle p, PState.holdsLock] at hheld
  · cases step_turn hI h hr with
    | tick he ht => subst ht; exact ⟨fun p ho hn => absurd ho hn, fun p ho hn => absurd ho hn⟩
    | turn r a i he hI' hc hme hx hm =>
      cases moved_owner hm with
      | same ho => exact ⟨fun p hp hn => absurd (ho.trans hp) hn, fun p hp hn => absurd (ho.symm.trans hp) hn⟩
      | acquire alt k ha hs hf ho =>
        refine ⟨fun p hp _ => absurd (hf.symm.trans hp) (by simp), fun p hp _ => ?_⟩
        cases ho.symm.trans hp
        exact ⟨hf, ⟨alt, k, he.trans (congrArg _ ha)⟩, hs⟩
      | release alt k ha hs ho =>
        refine ⟨fun p hp _ => ?_, fun p hp => by simp [ho] at hp⟩
        obtain ⟨hv, hheld⟩ := holdsLock_of_owner hI hp
        have hown : (s.portAt r).st.holdsLock = true := by rcases hs with hs | hs | hs <;> exact hs ▸ rfl
        cases holdsLock_unique (hI.mpmc hv) hheld hown
        exact ⟨ho, ⟨alt, k, he.trans (congrArg _ ha)⟩, hs⟩

/-! ### The other ports (R30, R161, R251) -/

/-- Settles O45: a port not in turn keeps its record or is woken, and what wakes it is a `SIGNAL` of the port in turn. -/
theorem portIsolation : Obligations.PortIsolation := by
  intro s t p r a hI h he hrp
  have hother : ∀ b, s.nextEvent ≠ .turn r b := by
    intro b hb
    cases he.symm.trans hb
    exact hrp rfl
  have hport := step_port hI h r
  have hsignals := step_signals (p := r) hI h (by simp [he]) hother
  generalize t.portAt r = q at hport hsignals
  cases hport with
  | keep _ => exact .inl rfl
  | reset hr _ => simp [he] at hr
  | turn b i hb _ _ _ => exact absurd hb (hother b)
  | wake _ hs =>
    obtain ⟨x, alt, k, -, hx, hsig⟩ := hsignals fun e => by simpa [hs] using congrArg Port.st e
    cases he.symm.trans hx
    exact .inr ⟨⟨alt, k, rfl⟩, hsig, hs, rfl⟩

/-! ### The time base, the parameters and the number of ports (R35, R49, R165, R256, R284) -/

/-- Settles O46: only a tick writes `now`, no update adds or drops a port, and a reset builds as many as the parameters say. -/
theorem timeAndParameters : Obligations.TimeAndParameters := by
  intro s t hI h
  by_cases hr : s.nextEvent = .reset
  · obtain ⟨-, rfl⟩ := step_reset h hr
    exact ⟨fun he => by simp [hr] at he, fun _ => rfl, rfl, List.length_replicate.trans hI.typed.port_count.symm⟩
  · cases step_turn hI h hr with
    | tick he ht => subst ht; exact ⟨fun _ => rfl, fun hn => absurd he hn, rfl, rfl⟩
    | turn p a i he hI' hc hme hx hm =>
      exact ⟨fun ht => by simp [he] at ht, fun _ => (moved_now hm).trans rfl, step_cfg h, (moved_length hm).trans rfl⟩

end Sys2Proof.Machine
end

section
/-! SUPPORT. Who writes the queue (R27, R33, R61), the flags at the four transfers (R34, R121, R122, R191, R192), and the SPSC
machine of capacity 1 (R25, R137): case analyses over `QueueMove`, with the port that each step belongs to. -/

namespace Sys2Proof.Machine

/-! ### The port that a step of the queue belongs to -/

section
variable {i : Instr} {s t : State} (hI : s.Inv) (hc : Coherent i s)
include hI hc

/-- On an SPSC machine an enqueue in flight takes its steps at P and a dequeue at C (R120). -/
theorem spsc_port_of_move (hv : s.cfg.variant = .spsc) {alt : Bool} {k : Nat} (ha : s.sel.act = .move alt k)
    (hf : s.cur.inFlight = true) : (opDir i.op = .enq → s.me = portP) ∧ (opDir i.op = .deq → s.me = portC) :=
  spsc_port_of_dir (hI.spsc hv) hc (by simp [ha]) hf

omit hI in
/-- A transfer is `P_ADV` or `C_ADV` on SPSC, `DO_ENQ` or `DO_DEQ` on MPMC (R70). -/
theorem st_of_transfers {st : PState} (h : transfers i st = true) :
    (s.cfg.variant = .spsc ∧ st = .adv) ∨ (s.cfg.variant = .mpmc ∧ st = .xfer) := by
  obtain ⟨hspsc, hmpmc⟩ := kind_variant hc
  cases hv : s.cfg.variant
  case spsc =>
    simp only [transfers, hspsc hv, Bool.false_and, Bool.or_false, Bool.and_eq_true, beq_iff_eq] at h
    exact .inl ⟨rfl, h.2⟩
  case mpmc =>
    simp only [transfers, hmpmc hv, Bool.false_and, Bool.false_or, Bool.and_eq_true, beq_iff_eq] at h
    exact .inr ⟨rfl, h.2⟩

/-- `P_ADV` and `C_ADV` (R126, R130). -/
inductive SpscAdvance (s t : State) : Prop where
  | enq (hp : s.me = portP) (hg : adv s.cfg s.wi ≠ s.ri) (hw : t.wi = adv s.cfg s.wi) (hr : t.ri = s.ri)
  | deq (hp : s.me = portC) (hg : s.wi ≠ s.ri) (hw : t.wi = s.wi) (hr : t.ri = adv s.cfg s.ri)

theorem moved_spscAdvance (hv : s.cfg.variant = .spsc) {alt : Bool} {k : Nat} (ha : s.sel.act = .move alt k)
    (hs : s.cur.st = .adv) (hq : QueueMove i s t) : SpscAdvance s t := by
  have hf : s.cur.inFlight = true := by simp [Port.inFlight, hs]
  have hkind : isSpsc i = true := (kind_of_inflight hI hc (by simp [ha]) hf).1 hv
  obtain ⟨hP, hC⟩ := spsc_port_of_move hI hc hv ha hf
  cases hq
  case keep hn hw hr hz hm => simpa [transfers, hkind, hs] using hn alt k ha
  case write | doEnq | doDeq => simp_all  -- the steps of `XFER`
  case pAdv hd _ hw hr _ _ =>
    have hme := hP hd
    exact .enq hme ((hI.spsc hv).guard_P (.inr (hme ▸ hs))) hw hr
  case cAdv hd _ hw hr _ _ =>
    have hme := hC hd
    exact .deq hme ((hI.spsc hv).guard_C (.inr (hme ▸ hs))) hw hr

/-- `DO_ENQ` and `DO_DEQ` (R166, R167). -/
inductive MpmcTransfer (s t : State) : Prop where
  | enq (hd : opDir s.cur.op = .enq) (hroom : s.size < s.cfg.capacity) (hz : t.size = s.size + 1)
  | deq (hd : opDir s.cur.op = .deq) (hsome : 0 < s.size) (hz : t.size + 1 = s.size)

theorem moved_mpmcTransfer (hv : s.cfg.variant = .mpmc) {alt : Bool} {k : Nat} (ha : s.sel.act = .move alt k)
    (hs : s.cur.st = .xfer) (hq : QueueMove i s t) : MpmcTransfer s t := by
  have hkind : isMpmc i = true := (kind_of_inflight hI hc (by simp [ha]) (by simp [Port.inFlight, hs])).2 hv
  have hspsc : isSpsc i = false := (kind_variant hc).2 hv
  have hop : i.op = s.cur.op := hc.op_eq (by simp [ha])
  have hpred : s.pred (opDir s.cur.op) = true := (hI.mpmc hv).transfer s.me hs
  cases hq
  case keep hn hw hr hz hm => simpa [transfers, hkind, hs] using hn alt k ha
  case write | pAdv | cAdv => simp_all  -- steps of the other variant
  case doEnq hd _ _ _ _ hz _ _ =>
    rw [hop] at hd
    exact .enq hd (by simpa [State.pred, hd] using hpred) hz
  case doDeq hd _ _ _ _ hz _ _ =>
    rw [hop] at hd
    have hsome : 0 < s.size := by simpa [State.pred, hd] using hpred
    exact .deq hd hsome (hz ▸ Nat.sub_add_cancel hsome)

/-! ### Who writes (R27, R33, R61) -/

/-- What an SPSC turn writes: the indices of the two ports in their `ADV`, and slot `wi` by P in its `XFER`. -/
theorem moved_writes_spsc (hv : s.cfg.variant = .spsc) (hq : QueueMove i s t) :
    (t.wi ≠ s.wi → (∃ alt k, s.sel.act = .move alt k) ∧ s.me = portP ∧ s.cur.st = .adv) ∧
    (t.ri ≠ s.ri → (∃ alt k, s.sel.act = .move alt k) ∧ s.me = portC ∧ s.cur.st = .adv) ∧
    (∀ j, slotAt t.storage j ≠ slotAt s.storage j →
      (∃ alt k, s.sel.act = .move alt k) ∧ s.me = portP ∧ s.cur.st = .xfer ∧ j = s.wi) := by
  have hmpmc : isMpmc i = false := (kind_variant hc).1 hv
  cases hq
  case doEnq | doDeq => simp_all  -- steps of the other variant
  case keep hn hw hr hz hm => simp [hw, hr, hm]
  case write alt k ha hi hd hs hl hw hr hz hm =>
    refine ⟨absurd hw, absurd hr, fun j hj => ⟨⟨alt, k, ha⟩, ?_, hs, ?_⟩⟩
    · exact (spsc_port_of_move hI hc hv ha (by simp [Port.inFlight, hs])).1 hd
    · exact Decidable.not_not.mp fun hne => hj (by rw [hm, slotAt_putSlot_ne _ _ hne])
  case pAdv alt k ha hi hd hs hw hr hz hm =>
    refine ⟨fun _ => ⟨⟨alt, k, ha⟩, ?_, hs⟩, absurd hr, fun j hj => absurd (by rw [hm]) hj⟩
    exact (spsc_port_of_move hI hc hv ha (by simp [Port.inFlight, hs])).1 hd
  case cAdv alt k ha hi hd hs hw hr hz hm =>
    refine ⟨absurd hw, fun _ => ⟨⟨alt, k, ha⟩, ?_, hs⟩, fun j hj => absurd (by rw [hm]) hj⟩
    exact (spsc_port_of_move hI hc hv ha (by simp [Port.inFlight, hs])).2 hd

/-- What an MPMC turn writes, it writes in the `XFER` of the port that holds the lock. -/
theorem moved_writes_mpmc (hv : s.cfg.variant = .mpmc) (hq : QueueMove i s t)
    (hne : t.wi ≠ s.wi ∨ t.ri ≠ s.ri ∨ t.size ≠ s.size ∨ ∃ j, slotAt t.storage j ≠ slotAt s.storage j) :
    (∃ alt k, s.sel.act = .move alt k) ∧ s.owner = some s.me ∧ s.cur.st = .xfer ∧
      (t.wi ≠ s.wi → opDir s.cur.op = .enq) ∧ (t.ri ≠ s.ri → opDir s.cur.op = .deq) ∧
      ∀ j, slotAt t.storage j ≠ slotAt s.storage j → opDir s.cur.op = .enq ∧ j = s.wi := by
  have hspsc : isSpsc i = false := (kind_variant hc).2 hv
  have howner : s.cur.st = .xfer → s.owner = some s.me := fun hs =>
    ((hI.mpmc hv).lock s.me).mpr (by rw [show (s.portAt s.me).st = .xfer from hs]; rfl)
  cases hq
  case write | pAdv | cAdv => simp_all  -- steps of the other variant
  case keep hn hw hr hz hm => simp [hw, hr, hz, hm] at hne
  case doEnq alt k ha hi hd hs hl hw hr hz hm ht =>
    rw [hc.op_eq (by simp [ha])] at hd
    refine ⟨⟨alt, k, ha⟩, howner hs, hs, fun _ => hd, absurd hr, fun j hj => ⟨hd, ?_⟩⟩
    exact Decidable.not_not.mp fun hne => hj (by rw [hm, slotAt_putSlot_ne _ _ hne])
  case doDeq alt k ha hi hd hs hl hw hr hz hm ht =>
    rw [hc.op_eq (by simp [ha])] at hd
    exact ⟨⟨alt, k, ha⟩, howner hs, hs, absurd hw, fun _ => hd, fun j hj => absurd (by rw [hm]) hj⟩

end

/-- Settles O44: a tick writes nothing of the queue, and what a turn writes it writes at its own port. -/
theorem writeOwnership : Obligations.WriteOwnership := by
  intro s t hI h hr
  cases step_turn hI h hr with
  | tick he ht => subst ht; simp
  | turn p a i he hI' hc hme hx hm =>
    have hq := moved_queue hm hme
    have hmove : ∀ {r}, (∃ alt k, a = .move alt k) → p = r → ∃ alt k, s.nextEvent = .turn r (.move alt k) := by
      rintro r ⟨alt, k, rfl⟩ rfl
      exact ⟨alt, k, he⟩
    refine ⟨fun hv => ?_, fun hv hne => ?_⟩
    · obtain ⟨hw, hr, hslot⟩ := moved_writes_spsc hI' hc hv hq
      refine ⟨fun hne => ?_, fun hne => ?_, fun j hne => ?_⟩
      · obtain ⟨ha, hp, hs⟩ := hw hne
        exact ⟨hmove ha hp, hp ▸ hs⟩
      · obtain ⟨ha, hp, hs⟩ := hr hne
        exact ⟨hmove ha hp, hp ▸ hs⟩
      · obtain ⟨ha, hp, hs, hj⟩ := hslot j hne
        exact ⟨hmove ha hp, hp ▸ hs, hj⟩
    · obtain ⟨⟨alt, k, rfl⟩, hown, hs, hw, hr, hslot⟩ := moved_writes_mpmc hI' hc hv hq hne
      exact ⟨p, alt, k, he, hown, hs, hw, hr, hslot⟩

/-! ### The flags (R34, R121, R122, R191, R192) -/

/-- The flags are functions of the indices and `size` (R34). -/
theorem flags_congr {s t : State} (hc : t.cfg = s.cfg) (hw : t.wi = s.wi) (hr : t.ri = s.ri) (hz : t.size = s.size) :
    t.empty = s.empty ∧ t.full = s.full := by
  simp only [State.empty, State.full, State.spscEmpty, State.spscFull, State.mpmcEmpty, State.mpmcFull, hc, hw, hr, hz,
    and_self]

theorem flags_spsc {s : State} (hv : s.cfg.variant = .spsc) :
    (s.empty = true ↔ s.wi = s.ri) ∧ (s.full = true ↔ adv s.cfg s.wi = s.ri) := by
  simp [State.empty, State.full, State.spscEmpty, State.spscFull, hv]

theorem flags_mpmc {s : State} (hv : s.cfg.variant = .mpmc) :
    (s.empty = true ↔ s.size = 0) ∧ (s.full = true ↔ s.size = s.cfg.capacity) := by
  simp [State.empty, State.full, State.mpmcEmpty, State.mpmcFull, hv]

/-- The flags change only at a transfer. -/
theorem moved_flags {i : Instr} {s t : State} (hcfg : t.cfg = s.cfg) (hq : QueueMove i s t)
    (hne : t.empty ≠ s.empty ∨ t.full ≠ s.full) :
    ∃ alt k, s.sel.act = .move alt k ∧ transfers i s.cur.st = true := by
  cases hq
  case keep hn hw hr hz hm => simp [flags_congr hcfg hw hr hz] at hne
  case write hl hw hr hz hm => simp [flags_congr hcfg hw hr hz] at hne
  case pAdv alt k ha hi hd hs hw hr hz hm => exact ⟨alt, k, ha, by simp [transfers, hi, hs]⟩
  case cAdv alt k ha hi hd hs hw hr hz hm => exact ⟨alt, k, ha, by simp [transfers, hi, hs]⟩
  case doEnq alt k ha hi hd hs hl hw hr hz hm ht => exact ⟨alt, k, ha, by simp [transfers, hi, hs]⟩
  case doDeq alt k ha hi hd hs hl hw hr hz hm ht => exact ⟨alt, k, ha, by simp [transfers, hi, hs]⟩

/-- The flags after `P_ADV` and after `C_ADV`: the queue just filled is not empty, the one just drained not full. -/
theorem SpscAdvance.flags {s t : State} (h : SpscAdvance s t) (hT : s.Typed) (hcfg : t.cfg = s.cfg)
    (hv : s.cfg.variant = .spsc) :
    (s.me = portP → t.empty = false ∧ (t.full = true ↔ (t.wi + 1) % s.cfg.capacity = s.ri)) ∧
    (s.me = portC → t.full = false ∧ (t.empty = true ↔ s.wi = t.ri)) := by
  obtain ⟨hempty, hfull⟩ := flags_spsc (hcfg ▸ hv)
  cases h with
  | enq hp hg hw hr =>
    refine ⟨fun _ => ⟨?_, ?_⟩, fun hc => absurd (hp.symm.trans hc) (by decide)⟩
    · rw [← Bool.not_eq_true, hempty, hw, hr]
      exact hg
    · rw [hfull, hr, hcfg, adv]
  | deq hp hg hw hr =>
    refine ⟨fun hc => absurd (hp.symm.trans hc) (by decide), fun _ => ⟨?_, ?_⟩⟩
    · rw [← Bool.not_eq_true, hfull, hcfg, hw, hr]
      exact fun e => hg (adv_inj hT.wi_lt hT.ri_lt e)
    · rw [hempty, hw]

/-- The flags after `DO_ENQ` and after `DO_DEQ`. -/
theorem MpmcTransfer.flags {s t : State} (h : MpmcTransfer s t) (hle : s.size ≤ s.cfg.capacity) (hcfg : t.cfg = s.cfg)
    (hv : s.cfg.variant = .mpmc) :
    (opDir s.cur.op = .enq → t.empty = false ∧ (t.full = true ↔ s.size + 1 = s.cfg.capacity)) ∧
    (opDir s.cur.op = .deq → t.full = false ∧ (t.empty = true ↔ s.size = 1)) := by
  obtain ⟨hempty, hfull⟩ := flags_mpmc (hcfg ▸ hv)
  rw [← Bool.not_eq_true, ← Bool.not_eq_true, hempty, hfull, hcfg]
  cases h with
  | enq hd hroom hz =>
    refine ⟨fun _ => ⟨?_, ?_⟩, fun hc => absurd (hd.symm.trans hc) (by decide)⟩
    · omega
    · rw [hz]
  | deq hd hsome hz =>
    refine ⟨fun hc => absurd (hd.symm.trans hc) (by decide), fun _ => ⟨?_, ?_⟩⟩
    · omega
    · omega

/-- Settles O59: the flags change at no other step, and each transfer moves one index, or `size`, by one. -/
theorem flagsAtTransfers : Obligations.FlagsAtTransfers := by
  intro s t hI h hr
  cases step_turn hI h hr with
  | tick he ht =>
    have hkept : t.empty = s.empty ∧ t.full = s.full := by subst ht; exact ⟨rfl, rfl⟩
    exact ⟨fun hne => by simp [hkept] at hne, fun p alt k hp => by simp [he] at hp⟩
  | turn r a i he hI' hc hme hx hm =>
    have hq := moved_queue hm hme
    have hcfg := moved_cfg hm
    refine ⟨fun hne => ?_, fun p alt k hp => ?_⟩
    · obtain ⟨alt, k, rfl, ht⟩ := moved_flags hcfg hq hne
      exact ⟨r, alt, k, he, (st_of_transfers hc ht).imp And.right id⟩
    · cases he.symm.trans hp
      exact ⟨fun hv hs => (moved_spscAdvance hI' hc hv rfl hs hq).flags hI'.typed hcfg hv,
        fun hv hs => (moved_mpmcTransfer hI' hc hv rfl hs hq).flags (hI.mpmc hv).size_le hcfg hv⟩

/-! ### An SPSC machine of capacity 1 (R25, R137) -/

section
variable {s : State} (hI : s.Inv) (hv : s.cfg.variant = .spsc) (h1 : s.cfg.capacity = 1)
include hI h1

/-- The one slot is slot 0. -/
theorem indices_of_capacity_one : s.wi = 0 ∧ s.ri = 0 :=
  ⟨by have := hI.typed.wi_lt; omega, by have := hI.typed.ri_lt; omega⟩

/-- The queue is empty and full at once. -/
theorem adv_of_capacity_one : adv s.cfg s.wi = s.ri := by
  obtain ⟨hw, hr⟩ := indices_of_capacity_one hI h1
  rw [adv, hw, hr, h1]

include hv

/-- No port has passed its check. -/
theorem not_past_check (p : Nat) : (s.portAt p).st ≠ .xfer ∧ (s.portAt p).st ≠ .adv := by
  have hS := hI.spsc hv
  obtain ⟨hw, hr⟩ := indices_of_capacity_one hI h1
  refine not_or.mp fun hs => ?_
  have hf : (s.portAt p).inFlight = true := by rcases hs with hs | hs <;> simp [Port.inFlight, hs]
  rcases hS.roles p hf with ⟨rfl, _⟩ | ⟨rfl, _⟩
  · exact hS.guard_P hs (adv_of_capacity_one hI h1)
  · exact hS.guard_C hs (hw.trans hr.symm)

/-- Every check fails: an enqueue's as full, a dequeue's as empty. -/
theorem check_fails {p : Nat} {alt : Bool} {k : Nat} (he : s.nextEvent = .turn p (.move alt k))
    (hs : (s.portAt p).st = .check) : ∃ t, step s = .next t ∧
      t.portAt p = (s.portAt p).completed false (if p = portP then .full else .empty) ∧
      ∀ j, slotAt t.storage j = slotAt s.storage j := by
  have hfull := adv_of_capacity_one hI h1
  obtain ⟨hw, hr⟩ := indices_of_capacity_one hI h1
  have hf : (s.portAt p).inFlight = true := by simp [Port.inFlight, hs]
  have hlen := lt_length_of_inFlight hf
  have hstep := latchedCommandRuns s p (.move alt k) hI (hI.typed.port_count ▸ hlen) he (by simp)
  have hturn : (s.takeEvent.withTurn p (.move alt k)).turnIn .check := ⟨hlen, hs, alt, k, rfl⟩
  rcases (hI.spsc hv).roles p hf with ⟨rfl, hop⟩ | ⟨rfl, hop⟩
  · obtain ⟨t, hx, ⟨-, -, -, hslots⟩, -, -, -, hport⟩ :=
      (spscEnqSteps.1 _ (s.portAt portP).data (s.portAt portP).timeout hturn).1 hfull
    have hl : s.latched portP = .spscEnq (s.portAt portP).data (s.portAt portP).timeout := by
      simp [State.latched, hop, hv, decodeFields]
    exact ⟨t, hstep.trans (hl ▸ hx), portAt_of_portBecomes hport, hslots⟩
  · obtain ⟨t, hx, ⟨-, -, -, hslots⟩, -, -, -, hport⟩ :=
      (spscDeqSteps.1 _ (s.portAt portC).data (s.portAt portC).timeout hturn).1 (hw.trans hr.symm)
    have hl : s.latched portC = .spscDeq (s.portAt portC).data (s.portAt portC).timeout := by
      simp [State.latched, hop, hv, decodeFields]
    exact ⟨t, hstep.trans (hl ▸ hx), portAt_of_portBecomes hport, hslots⟩

end

/-- Settles O56: the one slot is never usable, since an empty queue is full as well. -/
theorem capacityOne : Obligations.CapacityOne := by
  intro s hI hv h1
  obtain ⟨hw, hr⟩ := indices_of_capacity_one hI h1
  obtain ⟨hempty, hfull⟩ := flags_spsc hv
  refine ⟨hw, hr, hempty.mpr (hw.trans hr.symm), hfull.mpr (adv_of_capacity_one hI h1), ?_, not_past_check hI hv h1,
    fun p alt k he hs => ?_⟩
  · refine contents_of_count_zero ?_
    rw [count_spsc hv, hw, hr]
    rfl
  · obtain ⟨t, hx, hp, hslots⟩ := check_fails hI hv h1 he hs
    exact ⟨t, hx, by rw [hp], by rw [hp], by rw [hp], hslots⟩

end Sys2Proof.Machine
end

section
/-! SUPPORT. What a step of a consistent state answers: a next state or one of four refusals (R22, R285, R293, log 13), never
a fault. -/

namespace Sys2Proof.Machine

/-- Why the decoder refuses a word. -/
theorem decode_error {c : Config} {p w : Nat} {e : DecodeError} (h : decode c p w = .error e) :
    (e = .noSuchPort ∧ c.numPorts ≤ p) ∨ (e = .wordTooWide ∧ 2 ^ c.commandWidth ≤ w) := by
  unfold decode at h
  split at h
  · split at h
    · cases h
    · rename_i hw
      cases h
      exact .inr ⟨rfl, Nat.le_of_not_lt hw⟩
  · rename_i hp
    cases h
    exact .inl ⟨rfl, Nat.le_of_not_lt hp⟩

/-- The word of a turn that is no `ISSUE` is packed from the latches and fits (R95). -/
theorem issue_of_wide_word {s : State} {p : Nat} {a : Act} (h : 2 ^ s.cfg.commandWidth ≤ (s.withTurn p a).commandWord) :
    ∃ cw, a = .issue cw ∧ 2 ^ s.cfg.commandWidth ≤ cw := by
  cases a with
  | issue cw => exact ⟨cw, rfl, h⟩
  | accept => exact absurd h (Nat.not_le_of_lt (packCommand_lt _ _ _ _))
  | move alt k => exact absurd h (Nat.not_le_of_lt (packCommand_lt _ _ _ _))

/-- A host's move answers in any state, a step of the port in a consistent one. -/
theorem exec_answers {i : Instr} {s : State} (hI : s.Inv) (hc : Coherent i s) : Answers (exec i s) := by
  cases ha : s.sel.act with
  | issue cw =>
    cases hf : firstState i with
    | none => simp [exec_illegal_issue ha hf, issueIllegal]
    | some st => simp [exec_issue ha hf, issue]
  | accept => simp [exec_accept i ha, accept]
  | move alt k => exact exec_move_next hI hc ha

/-- The refusals that a step of a consistent state can answer. -/
inductive Refuses (s : State) : Refusal → Prop where
  | noSuchPort (p : Nat) (a : Act) (he : s.nextEvent = .turn p a) (hp : s.cfg.numPorts ≤ p) : Refuses s .noSuchPort
  | wordTooWide (p cw : Nat) (he : s.nextEvent = .turn p (.issue cw)) (hw : 2 ^ s.cfg.commandWidth ≤ cw) :
      Refuses s .wordTooWide
  | resetInFlight (he : s.nextEvent = .reset) (hq : ∃ q ∈ s.ports, q.st ≠ .idle) : Refuses s .resetInFlight
  | timeBaseWrap (he : s.nextEvent = .tick) : Refuses s .timeBaseWrap

theorem step_answers {s : State} (hI : s.Inv) : Answers (step s) ∨ ∃ r, step s = .refused r ∧ Refuses s r := by
  have hl := hI.typed.legal
  cases he : s.nextEvent with
  | tick =>
    rw [step_of_tick hl he, tick]
    split
    · exact .inr ⟨_, rfl, .timeBaseWrap he⟩
    · exact .inl (answers_next _)
  | reset =>
    rw [step_of_reset hl he, reset]
    split
    · exact .inl (answers_next _)
    · rename_i hall
      exact .inr ⟨_, rfl, .resetInFlight he (by simpa using hall)⟩
  | turn p a =>
    cases hd : decode s.cfg p (s.takeEvent.withTurn p a).commandWord with
    | ok i =>
      obtain ⟨hI', hc⟩ := turn_coherent hI hd
      exact .inl (step_of_turn hl he hd ▸ exec_answers hI' hc)
    | error e =>
      refine .inr ⟨_, step_of_undecoded hl he hd, ?_⟩
      rcases decode_error hd with ⟨rfl, hp⟩ | ⟨rfl, hw⟩
      · exact .noSuchPort p a he hp
      · obtain ⟨cw, rfl, hw⟩ := issue_of_wide_word (s := s.takeEvent) hw
        exact .wordTooWide p cw he hw

/-- Settles O38: a step that answers no next state is one of the four refusals. -/
theorem stepNeverFaults : Obligations.StepNeverFaults := by
  intro s hI
  rcases step_answers hI with ⟨t, ht⟩ | ⟨r, hr, hrefuses⟩
  · simp [ht]
  · refine ⟨by simp [hr], fun r' hr' => ?_⟩
    cases hr.symm.trans hr'
    cases hrefuses with
    | noSuchPort p a he hp => exact .inl ⟨rfl, p, a, he, hp⟩
    | wordTooWide p cw he hw => exact .inr (.inl ⟨rfl, p, cw, he, hw⟩)
    | resetInFlight he hq => exact .inr (.inr (.inl ⟨rfl, he, hq⟩))
    | timeBaseWrap he => exact .inr (.inr (.inr ⟨rfl, he⟩))

end Sys2Proof.Machine
end

section
/-! SUPPORT. An SPSC machine reads no time (R49, R254): the time base replaced passes through every step of one. -/

namespace Sys2Proof.Machine

/-- The time base reads `n`; everything else is as it was. -/
def State.atTime (n : Nat) (s : State) : State := { s with now := n }

/-! ### The steps of an SPSC command -/

section
variable (n : Nat) (s : State)

@[simp] theorem atTime_cfg : (s.atTime n).cfg = s.cfg := rfl
@[simp] theorem atTime_wi : (s.atTime n).wi = s.wi := rfl
@[simp] theorem atTime_ports : (s.atTime n).ports = s.ports := rfl
@[simp] theorem atTime_sel : (s.atTime n).sel = s.sel := rfl
@[simp] theorem atTime_cur : (s.atTime n).cur = s.cur := rfl

/-- An SPSC `ISSUE` latches no time (R123). -/
theorem latch_atTime (hv : s.cfg.variant = .spsc) (op : Op) (d tmo : Nat) :
    latch (s.atTime n).cfg.variant op d tmo (s.atTime n).now (s.atTime n).seq =
      latch s.cfg.variant op d tmo s.now s.seq := by
  rw [atTime_cfg, hv]
  rfl

theorem issue_atTime (hv : s.cfg.variant = .spsc) (op : Op) (d tmo : Nat) (st : PState) :
    issue op d tmo st (s.atTime n) = mapNext (State.atTime n) (issue op d tmo st s) := by
  unfold issue
  rw [atTime_cur, latch_atTime n s hv]
  split <;> rfl

theorem issueIllegal_atTime (hv : s.cfg.variant = .spsc) (op : Op) (d tmo : Nat) :
    issueIllegal op d tmo (s.atTime n) = mapNext (State.atTime n) (issueIllegal op d tmo s) := by
  unfold issueIllegal
  rw [atTime_cur, latch_atTime n s hv]
  split <;> rfl

theorem accept_atTime : accept (s.atTime n) = mapNext (State.atTime n) (accept s) := by
  unfold accept
  rw [atTime_cur]
  split <;> rfl

theorem pCheck_atTime : pCheck (s.atTime n) = mapNext (State.atTime n) (pCheck s) := by
  unfold pCheck
  rw [show (s.atTime n).spscFull = s.spscFull from rfl]
  split <;> rfl

theorem cCheck_atTime : cCheck (s.atTime n) = mapNext (State.atTime n) (cCheck s) := by
  unfold cCheck
  rw [show (s.atTime n).spscEmpty = s.spscEmpty from rfl]
  split <;> rfl

theorem pWrite_atTime : pWrite (s.atTime n) = mapNext (State.atTime n) (pWrite s) := by
  have hmem : memWrite (s.atTime n) s.wi s.cur.data = (memWrite s s.wi s.cur.data).map (State.atTime n) := by
    unfold memWrite
    rw [atTime_cfg]
    split <;> rfl
  unfold pWrite
  rw [atTime_wi, atTime_cur, hmem]
  cases memWrite s s.wi s.cur.data <;> rfl

theorem cRead_atTime : cRead (s.atTime n) = mapNext (State.atTime n) (cRead s) := by
  unfold cRead
  rw [show memRead (s.atTime n) (s.atTime n).ri = memRead s s.ri from rfl]
  cases memRead s s.ri <;> rfl

variable {n s}

/-- A step of an SPSC enqueue's port. -/
theorem spscEnq_atTime {alt : Bool} {k : Nat} (ha : s.sel.act = .move alt k) (d tmo : Nat) :
    exec (.spscEnq d tmo) (s.atTime n) = mapNext (State.atTime n) (exec (.spscEnq d tmo) s) := by
  simp only [exec, execSpscEnq, atTime_sel, ha, atTime_cur]
  split
  · exact pCheck_atTime n s
  · exact pWrite_atTime n s
  · rfl
  · rfl

/-- A step of an SPSC dequeue's port. -/
theorem spscDeq_atTime {alt : Bool} {k : Nat} (ha : s.sel.act = .move alt k) (d tmo : Nat) :
    exec (.spscDeq d tmo) (s.atTime n) = mapNext (State.atTime n) (exec (.spscDeq d tmo) s) := by
  simp only [exec, execSpscDeq, atTime_sel, ha, atTime_cur]
  split
  · exact cCheck_atTime n s
  · exact cRead_atTime n s
  · rfl
  · rfl

/-- A turn of a command that an SPSC port reads. -/
theorem exec_atTime {i : Instr} (hv : s.cfg.variant = .spsc) (hi : isMpmc i = false) :
    exec i (s.atTime n) = mapNext (State.atTime n) (exec i s) := by
  cases ha : s.sel.act with
  | issue cw =>
    cases hf : firstState i with
    | none =>
      rw [exec_illegal_issue ha hf, exec_illegal_issue (s := s.atTime n) ha hf]
      exact issueIllegal_atTime n s hv _ _ _
    | some st =>
      rw [exec_issue ha hf, exec_issue (s := s.atTime n) ha hf]
      exact issue_atTime n s hv _ _ _ _
  | accept =>
    rw [exec_accept i ha, exec_accept (s := s.atTime n) i ha]
    exact accept_atTime n s
  | move alt k =>
    cases i with
    | spscEnq d tmo => exact spscEnq_atTime ha d tmo
    | spscDeq d tmo => exact spscDeq_atTime ha d tmo
    | mpmcEnq | mpmcDeq | mpmcEnqt | mpmcDeqt => cases hi
    | reserved | spscIllegalTimed | spscIllegalDeqOnP | spscIllegalEnqOnC =>
      rw [exec_illegal_move ha rfl, exec_illegal_move (s := s.atTime n) ha rfl]
      rfl

end

/-- What an SPSC port reads is no MPMC command (R98). -/
theorem not_isMpmc_of_decode {c : Config} {p w : Nat} {i : Instr} (hv : c.variant = .spsc) (h : decode c p w = .ok i) :
    isMpmc i = false := by
  obtain ⟨hp, -, rfl⟩ := decode_ok h
  rw [hv]
  exact (spsc_kinds p _ _ _ (by simpa [Config.numPorts, hv] using hp)).1

/-- Settles O57: a tick advances whatever time it finds, a reset keeps it, and no turn looks at it. -/
theorem spscUsesNoTime : Obligations.SpscUsesNoTime := by
  intro s t n hv h
  obtain ⟨hl, ⟨he, ht⟩ | ⟨he, ht⟩ | ⟨p, a, i, he, hd, hx⟩⟩ := step_next h
  · obtain ⟨-, rfl⟩ := tick_next ht
    have hwraps : (s.atTime n).takeEvent.tickWraps = false := by simp [State.tickWraps, State.atTime, hv]
    rw [show step { s with now := n } = tick (s.atTime n).takeEvent from step_of_tick hl he, tick, hwraps]
    simp [State.atTime]
  · obtain ⟨hidle, rfl⟩ := reset_next ht
    rw [show step { s with now := n } = reset (s.atTime n).takeEvent from step_of_reset hl he, reset,
      if_pos (by simpa [State.atTime] using hidle)]
    simp [State.atTime, State.resetFor]
  · have hnow : t.now = s.now := (moved_now (exec_moved hx)).trans rfl
    have hstep : step (s.atTime n) = exec i ((s.takeEvent.withTurn p a).atTime n) := step_of_turn (s := s.atTime n) hl he hd
    rw [show step { s with now := n } = step (s.atTime n) from rfl, hstep,
      exec_atTime (s := s.takeEvent.withTurn p a) hv (not_isMpmc_of_decode hv hd), hx, hnow, Nat.sub_self]
    rfl

end Sys2Proof.Machine
end

section
/-! SUPPORT. The frames of the executed commands (R30, R33), of any state, consistent or not: which fields of its own record a
turn can write (`FieldWrite`), which other records, which wait set and which part of the queue. -/

namespace Sys2Proof.Machine

/-! ### The records of the ports -/

/-- Every record that a turn of an executed command can leave at its port, by the fields it writes. -/
inductive FieldWrite (i : Instr) (s : State) : Port → Prop where
  | go (st : PState) : FieldWrite i s { s.cur with st := st }
  | complete (ok : Bool) (c : Cause) (hs : s.cur.st ≠ .done) : FieldWrite i s (s.cur.completed ok c)
  | latch (cw : Nat) (st : PState) (ha : s.sel.act = .issue cw) :
      FieldWrite i s { latch s.cfg.variant i.op i.data i.timeout s.now s.seq s.cur with st := st }
  | read (alt : Bool) (k v : Nat) (st : PState) (ha : s.sel.act = .move alt k) (hd : opDir i.op = .deq)
      (hs : s.cur.st = .xfer) : FieldWrite i s { s.cur with rspData := v, st := st }
  | grant (hi : isMpmc i = true) (ht : opTimed i.op = true) (hs : s.cur.st = .acqTimed) :
      FieldWrite i s { s.cur with t1 := s.now, st := .elapsed }
  | elapsed (d : Nat) (hi : isMpmc i = true) (ht : opTimed i.op = true) (hs : s.cur.st = .elapsed) :
      FieldWrite i s { s.cur with deadline := d, st := .pred }

section
variable {i : Instr} {s : State} {q : Port} (h : FieldWrite i s q)
include h

theorem FieldWrite.response (hne : q.rspOk ≠ s.cur.rspOk ∨ q.rspCause ≠ s.cur.rspCause) :
    s.cur.st ≠ .done ∧ q.st = .done := by
  cases h
  case complete ok c hs => exact ⟨hs, rfl⟩
  all_goals simp at hne  -- the other records have the response that was there

theorem FieldWrite.latches (ha : ∀ cw, s.sel.act ≠ .issue cw) :
    q.op = s.cur.op ∧ q.data = s.cur.data ∧ q.timeout = s.cur.timeout ∧ q.start = s.cur.start := by
  cases h
  case latch cw st ha' => exact absurd ha' (ha cw)
  all_goals exact ⟨rfl, rfl, rfl, rfl⟩

theorem FieldWrite.rspData_changed (hne : q.rspData ≠ s.cur.rspData) :
    opDir i.op = .deq ∧ s.cur.st = .xfer ∧ ∃ alt k, s.sel.act = .move alt k := by
  cases h
  case read alt k v st ha hd hs => exact ⟨hd, hs, alt, k, ha⟩
  all_goals simp at hne

theorem FieldWrite.t1_changed (hne : q.t1 ≠ s.cur.t1) :
    isMpmc i = true ∧ opTimed i.op = true ∧ s.cur.st = .acqTimed := by
  cases h
  case grant hi ht hs => exact ⟨hi, ht, hs⟩
  all_goals simp at hne

theorem FieldWrite.deadline_changed (hne : q.deadline ≠ s.cur.deadline) :
    isMpmc i = true ∧ opTimed i.op = true ∧ s.cur.st = .elapsed := by
  cases h
  case elapsed d hi ht hs => exact ⟨hi, ht, hs⟩
  all_goals simp at hne

/-- An SPSC command latches no timeout and no time (R123). -/
theorem FieldWrite.spsc_times (hv : s.cfg.variant = .spsc) : q.timeout = s.cur.timeout ∧ q.start = s.cur.start := by
  cases h
  case latch cw st ha => rw [hv]; exact ⟨rfl, rfl⟩
  all_goals exact ⟨rfl, rfl⟩

end

/-- Port `r` waited for the condition that the turn signals, and was woken (R161). -/
def Woken (i : Instr) (s t : State) (r : Nat) : Prop :=
  isMpmc i = true ∧ s.cur.st = .sig ∧ r ∈ s.waitSet (signals (opDir i.op)) ∧ t.portAt r = { s.portAt r with st := .reacq }

/-- The records after a turn: that of its port is `q`, every other one is as it was or woken. -/
structure Records (i : Instr) (s t : State) (q : Port) : Prop where
  own : t.portAt s.me = q
  others : ∀ r, r ≠ s.me → t.portAt r = s.portAt r ∨ Woken i s t r

theorem records_of_portBecomes {i : Instr} {s t : State} {q : Port} (h : s.portBecomes t s.me q) : Records i s t q :=
  ⟨portAt_of_portBecomes h, fun r hr => .inl ((h.2 r).trans (if_neg hr))⟩

/-- A wake-up changes no record, or that of a waiter. -/
theorem portAt_wakeOne_cases (c : Condition) (k : Nat) (s : State) (r : Nat) : (wakeOne c k s).portAt r = s.portAt r ∨
    (r ∈ s.waitSet c ∧ (wakeOne c k s).portAt r = { s.portAt r with st := .reacq }) := by
  by_cases hn : s.waitSet c = []
  · exact .inl (by rw [wakeOne_of_nil hn])
  · by_cases hlen : r < s.ports.length
    · by_cases hr : r = chooseWaiter (s.waitSet c) k
      · refine .inr ⟨hr ▸ chooseWaiter_mem hn k, ?_⟩
        rw [wakeOne, if_neg hn, portAt_updPort _ _ _ _ (by simpa [← hr] using hlen), if_pos hr, ← hr, portAt_setWaitSet]
      · exact .inl (by rw [wakeOne, if_neg hn, portAt_updPort_of_ne _ _ hr, portAt_setWaitSet])
    · have hle := Nat.le_of_not_lt hlen
      exact .inl (by rw [portAt_of_length_le s hle, portAt_of_length_le _ (by simpa using hle)])

section
variable {i : Instr} {s t : State} (hme : s.me < s.ports.length)
include hme

theorem signal_records (hi : isMpmc i = true) (hs : s.cur.st = .sig) (k : Nat) :
    Records i s (complete true .none (wakeOne (signals (opDir i.op)) k s)) (s.cur.completed true .none) := by
  have hx : SameTurn s (wakeOne (signals (opDir i.op)) k s) := by simp
  refine ⟨?_, fun r hr => ?_⟩
  · rw [portAt_complete _ _ _ _ (hx.me_lt hme), hx.me, if_pos rfl]
    rcases portAt_wakeOne_cases (signals (opDir i.op)) k s s.me with e | ⟨_, e⟩ <;> rw [e] <;> rfl
  · rw [portAt_complete_of_ne hx hr]
    refine (portAt_wakeOne_cases (signals (opDir i.op)) k s r).imp id fun ⟨hm, e⟩ => ⟨hi, hs, hm, ?_⟩
    rw [portAt_complete_of_ne hx hr, e]

/-- What a turn of an executed command does to the records. -/
theorem moved_records (h : Moved i s t) (hf : firstState i ≠ none) : ∃ q, FieldWrite i s q ∧ Records i s t q := by
  cases h
  case stall => exact ⟨_, .go s.cur.st, records_of_portBecomes (onlyPort_self s).2.2.2.2⟩
  case issue cw st ha hs hf =>
    exact ⟨_, .latch cw st ha, records_of_portBecomes (portBecomes_updPort_goto hme (latch _ _ _ _ _ _) st)⟩
  case issueIllegal hn => exact absurd hn hf
  case accept | pCheck | cCheck | predTrue => exact ⟨_, .go _, records_of_portBecomes (portBecomes_goto hme _)⟩
  case pFull | cEmpty | lockBusy | lockExpire =>
    exact ⟨_, .complete _ _ (by simp [*]), records_of_portBecomes (portBecomes_complete hme _ _)⟩
  case lockTry | lockReacq | unlock =>
    obtain ⟨_, _, _, _, hp⟩ := portAndOwner_goto hme _ _
    exact ⟨_, .go _, records_of_portBecomes hp⟩
  case elapsedLate | predFail | predLate =>
    obtain ⟨_, _, _, _, hp⟩ := portAndOwner_complete hme none false _
    exact ⟨_, .complete _ _ (by simp [*]), records_of_portBecomes hp⟩
  case pWrite alt k ha hi hd hs hw =>
    exact ⟨_, .go .adv, records_of_portBecomes
      (portBecomes_goto (s := { s with storage := putSlot s.storage s.wi s.cur.data }) hme _)⟩
  case pAdv alt k ha hi hd hs =>
    exact ⟨_, .complete _ _ (by simp [hs]), records_of_portBecomes
      (portBecomes_complete (s := { s with wi := adv s.cfg s.wi }) hme _ _)⟩
  case cAdv alt k ha hi hd hs =>
    exact ⟨_, .complete _ _ (by simp [hs]), records_of_portBecomes
      (portBecomes_complete (s := { s with ri := adv s.cfg s.ri }) hme _ _)⟩
  case cRead alt k v ha hi hd hs hr hv =>
    exact ⟨_, .read alt k v .adv ha hd hs, records_of_portBecomes
      (portBecomes_updPort_goto hme (fun q => { q with rspData := v }) _)⟩
  case lockGrant k ha hi ht hs hg =>
    obtain ⟨_, _, _, _, hp⟩ := portAndOwner_updPort_goto hme (some s.me) (fun q => { q with t1 := s.now }) .elapsed
    exact ⟨_, .grant hi ht hs, records_of_portBecomes hp⟩
  case elapsed alt k ha hi ht hs hg =>
    exact ⟨_, .elapsed _ hi ht hs, records_of_portBecomes (portBecomes_updPort_goto hme _ _)⟩
  case predWait alt k ha hi ht hs hg hl =>
    obtain ⟨_, _, _, _, _, hp⟩ := enterWait_leaves hme (opDir i.op)
    exact ⟨_, .go _, records_of_portBecomes hp⟩
  case wakeDeadline | wakeSpurious =>
    obtain ⟨_, _, _, _, _, hp⟩ := leaveWait_leaves hme (opDir i.op)
    exact ⟨_, .go _, records_of_portBecomes hp⟩
  case doEnq alt k ha hi hd hs hw =>
    exact ⟨_, .go .rel, records_of_portBecomes (portBecomes_goto
      (s := { s with storage := putSlot s.storage s.wi s.cur.data, wi := adv s.cfg s.wi, size := s.size + 1 }) hme _)⟩
  case doDeq alt k v ha hi hd hs hr hv =>
    exact ⟨_, .read alt k v .rel ha hd hs, records_of_portBecomes (portBecomes_updPort_goto
      (s := { s with ri := adv s.cfg s.ri, size := s.size - 1 }) hme (fun q => { q with rspData := v }) _)⟩
  case signal alt k ha hi hs => exact ⟨_, .complete _ _ (by simp [hs]), signal_records hme hi hs k⟩

/-! ### The wait sets -/

/-- The set of the condition signalled changes only at a `SIGNAL`, that of the condition waited for only where a timed
command begins or ends its wait. -/
theorem moved_waitSet_changed (h : Moved i s t) {c : Condition} (hne : t.waitSet c ≠ s.waitSet c) : isMpmc i = true ∧
    ((c = signals (opDir i.op) ∧ s.cur.st = .sig) ∨
     (c = waitsOn (opDir i.op) ∧ opTimed i.op = true ∧ (s.cur.st = .pred ∨ s.cur.st = .cwait))) := by
  cases h
  case predWait alt k ha hi ht hs hg hl =>
    obtain ⟨_, _, hother, _⟩ := enterWait_leaves hme (opDir i.op)
    exact ⟨hi, .inr ⟨Decidable.not_not.mp fun hc => hne (hother c hc), ht, .inl hs⟩⟩
  case wakeDeadline hi ht hs hg =>
    obtain ⟨_, _, hother, _⟩ := leaveWait_leaves hme (opDir i.op)
    exact ⟨hi, .inr ⟨Decidable.not_not.mp fun hc => hne (hother c hc), ht, .inr hs⟩⟩
  case wakeSpurious hi ht hs hg =>
    obtain ⟨_, _, hother, _⟩ := leaveWait_leaves hme (opDir i.op)
    exact ⟨hi, .inr ⟨Decidable.not_not.mp fun hc => hne (hother c hc), ht, .inr hs⟩⟩
  case signal alt k ha hi hs =>
    refine ⟨hi, .inl ⟨Decidable.not_not.mp fun hc => hne ?_, hs⟩⟩
    rw [waitSet_complete, waitSet_wakeOne, if_neg hc]
  all_goals exact absurd (by cases c <;> rfl) hne

end

/-! ### The queue -/

section
variable {i : Instr} {s t : State} (hq : QueueMove i s t)
include hq

theorem QueueMove.wi_changed (hne : t.wi ≠ s.wi) : opDir i.op = .enq ∧ (∃ alt k, s.sel.act = .move alt k) ∧
    ((isSpsc i = true ∧ s.cur.st = .adv) ∨ (isMpmc i = true ∧ s.cur.st = .xfer)) := by
  cases hq
  case keep hw _ _ _ | write hw _ _ _ | cAdv hw _ _ _ | doDeq hw _ _ _ _ => exact absurd hw hne
  case pAdv alt k ha hi hd hs _ _ _ _ => exact ⟨hd, ⟨alt, k, ha⟩, .inl ⟨hi, hs⟩⟩
  case doEnq alt k ha hi hd hs _ _ _ _ _ _ => exact ⟨hd, ⟨alt, k, ha⟩, .inr ⟨hi, hs⟩⟩

theorem QueueMove.ri_changed (hne : t.ri ≠ s.ri) : opDir i.op = .deq ∧ (∃ alt k, s.sel.act = .move alt k) ∧
    ((isSpsc i = true ∧ s.cur.st = .adv) ∨ (isMpmc i = true ∧ s.cur.st = .xfer)) := by
  cases hq
  case keep hr _ _ | write hr _ _ | pAdv hr _ _ | doEnq hr _ _ _ => exact absurd hr hne
  case cAdv alt k ha hi hd hs _ _ _ _ => exact ⟨hd, ⟨alt, k, ha⟩, .inl ⟨hi, hs⟩⟩
  case doDeq alt k ha hi hd hs _ _ _ _ _ _ => exact ⟨hd, ⟨alt, k, ha⟩, .inr ⟨hi, hs⟩⟩

theorem QueueMove.size_changed (hne : t.size ≠ s.size) : s.cur.st = .xfer ∧ ∃ alt k, s.sel.act = .move alt k := by
  cases hq
  case keep hz _ | write hz _ | pAdv hz _ | cAdv hz _ => exact absurd hz hne
  case doEnq alt k ha _ _ hs _ _ _ _ _ _ => exact ⟨hs, alt, k, ha⟩
  case doDeq alt k ha _ _ hs _ _ _ _ _ _ => exact ⟨hs, alt, k, ha⟩

theorem QueueMove.slot_changed {j : Nat} (hne : slotAt t.storage j ≠ slotAt s.storage j) :
    opDir i.op = .enq ∧ (s.cur.st = .xfer ∧ ∃ alt k, s.sel.act = .move alt k) ∧ j = s.wi := by
  have hslot : t.storage = putSlot s.storage s.wi s.cur.data → j = s.wi := fun hm =>
    Decidable.not_not.mp fun hj => hne (by rw [hm, slotAt_putSlot_ne _ _ hj])
  cases hq
  case keep hm | pAdv hm | cAdv hm | doDeq hm _ => exact absurd (by rw [hm]) hne
  case write alt k ha _ hd hs _ _ _ _ hm => exact ⟨hd, ⟨hs, alt, k, ha⟩, hslot hm⟩
  case doEnq alt k ha _ hd hs _ _ _ _ hm _ => exact ⟨hd, ⟨hs, alt, k, ha⟩, hslot hm⟩

/-- A dequeue stores nothing (R66). -/
theorem QueueMove.slots_kept (hd : opDir i.op = .deq) (j : Nat) : slotAt t.storage j = slotAt s.storage j :=
  Decidable.not_not.mp fun hne => absurd (hd.symm.trans (hq.slot_changed hne).1) (by decide)

/-- A store is to slot `wi`, by the step of `XFER` (R33). -/
theorem QueueMove.stores : (s.cur.st = .xfer → (∃ alt k, s.sel.act = .move alt k) →
      ∀ j, j ≠ s.wi → slotAt t.storage j = slotAt s.storage j) ∧
    (¬ (s.cur.st = .xfer ∧ ∃ alt k, s.sel.act = .move alt k) → ∀ j, slotAt t.storage j = slotAt s.storage j) :=
  ⟨fun _ _ _ hj => Decidable.not_not.mp fun hne => hj (hq.slot_changed hne).2.2,
    fun hn _ => Decidable.not_not.mp fun hne => hn (hq.slot_changed hne).2.1⟩

end

/-! ### The frames -/

/-- No turn writes a parameter, the time base or the schedule. -/
theorem moved_restKept {i : Instr} {s t : State} (h : Moved i s t) : s.restKept t := by
  refine ⟨moved_cfg h, moved_now h, moved_sel h, ?_, ?_⟩
  · cases h <;> simp [issued, enterWait, leaveWait]
  · cases h <;> simp [issued, enterWait, leaveWait]

/-- The steps at which the lock changes hands (R29, R151). -/
theorem OwnerMove.changed {s t : State} (h : OwnerMove s t) (hne : t.owner ≠ s.owner) :
    s.cur.st = .acqTry ∨ s.cur.st = .acqTimed ∨ s.cur.st = .reacq ∨ s.cur.st = .elapsed ∨ s.cur.st = .pred ∨
      s.cur.st = .rel := by
  cases h with
  | same ho => exact absurd ho hne
  | acquire alt k ha hs hf ho => rcases hs with hs | hs | hs <;> simp [hs]
  | release alt k ha hs ho => exact .inr (.inr (.inr hs))

/-- Settles O27: the fields of the record, the two indices and the slots, each with the one step that writes it. -/
theorem frameSpsc : Obligations.FrameSpsc := by
  intro i s t d tmo hi hv hme hx
  have hm := exec_moved hx
  have hq := moved_queue hm hme
  have hsp : isSpsc i = true := by rcases hi with rfl | rfl <;> rfl
  have hmp : isMpmc i = false := isMpmc_of_isSpsc hsp
  have hf : firstState i ≠ none := by rcases hi with rfl | rfl <;> simp [firstState]
  obtain ⟨q, hw, rfl, hothers⟩ := moved_records hme hm hf
  have hwait : ∀ c, t.waitSet c = s.waitSet c := fun c =>
    Decidable.not_not.mp fun hne => by simpa [hmp] using (moved_waitSet_changed hme hm hne).1
  have hadv : ∀ {st}, (isSpsc i = true ∧ s.cur.st = .adv) ∨ (isMpmc i = true ∧ s.cur.st = st) → s.cur.st = .adv := by
    simp [hsp, hmp]
  refine ⟨(moved_owner_size hm hmp).2, (moved_owner_size hm hmp).1, ⟨hwait .rtr, hwait .rtw⟩, moved_restKept hm,
    moved_length hm, fun r hr => (hothers r hr).resolve_right fun hwoken => ?_, (hw.spsc_times hv).1, (hw.spsc_times hv).2,
    Decidable.not_not.mp fun hne => ?_, Decidable.not_not.mp fun hne => ?_, hw.response, fun ha => ?_, ?_, ?_⟩
  · simpa [hmp] using hwoken.1
  · simpa [hmp] using (hw.t1_changed hne).1
  · simpa [hmp] using (hw.deadline_changed hne).1
  · obtain ⟨hop, hdata, -, -⟩ := hw.latches ha
    exact ⟨hop, hdata⟩
  · rintro rfl
    refine ⟨Decidable.not_not.mp fun hne => ?_, fun hne => ?_, Decidable.not_not.mp fun hne => ?_, hq.stores⟩
    · simpa [Instr.op] using (hq.ri_changed hne).1
    · obtain ⟨-, ha, hs⟩ := hq.wi_changed hne
      exact ⟨hadv hs, ha⟩
    · simpa [Instr.op] using (hw.rspData_changed hne).1
  · rintro rfl
    refine ⟨Decidable.not_not.mp fun hne => ?_, fun hne => ?_, fun hne => (hw.rspData_changed hne).2,
      hq.slots_kept opDir_1⟩
    · simpa [Instr.op] using (hq.wi_changed hne).1
    · obtain ⟨-, ha, hs⟩ := hq.ri_changed hne
      exact ⟨hadv hs, ha⟩

/-- What the turns of both kinds of MPMC command have in common: `dir` is the command's direction. -/
structure MpmcFrame (i : Instr) (dir : Dir) (s t : State) : Prop where
  fields : FieldWrite i s (t.portAt s.me)
  others : ∀ r, r ≠ s.me → t.portAt r = s.portAt r ∨
    (s.cur.st = .sig ∧ r ∈ s.waitSet (signals dir) ∧ t.portAt r = { s.portAt r with st := .reacq })
  signalled : t.waitSet (signals dir) ≠ s.waitSet (signals dir) → s.cur.st = .sig
  waited : t.waitSet (waitsOn dir) ≠ s.waitSet (waitsOn dir) →
    opTimed i.op = true ∧ (s.cur.st = .pred ∨ s.cur.st = .cwait)

theorem moved_mpmcFrame {i : Instr} {s t : State} {timed : Bool} {dir : Dir} (hk : MpmcKind i timed dir)
    (hme : s.me < s.ports.length) (hm : Moved i s t) : MpmcFrame i dir s t := by
  have hd : opDir i.op = dir := by rw [hk.op_eq, opDir_opOf]
  have hsets : waitsOn dir ≠ signals dir := by cases dir <;> decide
  obtain ⟨q, hw, rfl, hothers⟩ := moved_records hme hm (by cases hk <;> simp [firstState])
  refine ⟨hw, fun r hr => (hothers r hr).imp_right fun ⟨_, hs, hr, ht⟩ => ⟨hs, hd ▸ hr, ht⟩, fun hne => ?_, fun hne => ?_⟩
  · rcases (moved_waitSet_changed hme hm hne).2 with ⟨_, hs⟩ | ⟨hc, _⟩
    · exact hs
    · exact absurd (hd ▸ hc.symm) hsets
  · rcases (moved_waitSet_changed hme hm hne).2 with ⟨hc, _⟩ | ⟨_, hs⟩
    · exact absurd (hd ▸ hc) hsets
    · exact hs

/-- Settles O28: an enqueue never moves `ri` and reads nothing, and what it stores and counts it does in `XFER`. -/
theorem frameMpmcEnqueue : Obligations.FrameMpmcEnqueue := by
  intro i s t d tmo hi hme hx
  have hm := exec_moved hx
  have hq := moved_queue hm hme
  have hk : ∃ timed, MpmcKind i timed .enq := by
    rcases hi with rfl | rfl
    · exact ⟨_, .enq d tmo⟩
    · exact ⟨_, .enqt d tmo⟩
  obtain ⟨timed, hk⟩ := hk
  have hd : opDir i.op = .enq := by rw [hk.op_eq, opDir_opOf]
  have hsp : isSpsc i = false := by cases hk <;> rfl
  have htimed : opTimed i.op = true → i = .mpmcEnqt d tmo := by rcases hi with rfl | rfl <;> simp [Instr.op]
  obtain ⟨hw, hothers, hsignalled, hwaited⟩ := moved_mpmcFrame hk hme hm
  refine ⟨Decidable.not_not.mp fun hne => ?_, moved_restKept hm, moved_length hm, Decidable.not_not.mp fun hne => ?_,
    hothers, hsignalled, fun hne => (hwaited hne).imp_left htimed, (moved_owner hm).changed, hw.response, fun hne => ?_,
    hw.latches, fun hne => (hw.t1_changed hne).2.imp_left htimed, fun hne => (hw.deadline_changed hne).2.imp_left htimed,
    hq.stores⟩
  · simpa [hd] using (hq.ri_changed hne).1
  · simpa [hd] using (hw.rspData_changed hne).1
  · rcases hne with hne | hne
    · obtain ⟨-, ha, hs⟩ := hq.wi_changed hne
      exact ⟨(hs.resolve_left (by simp [hsp])).2, ha⟩
    · exact hq.size_changed hne

/-- Settles O29: a dequeue never moves `wi` and stores nothing, and what it reads and counts it does in `XFER`. -/
theorem frameMpmcDequeue : Obligations.FrameMpmcDequeue := by
  intro i s t d tmo hi hme hx
  have hm := exec_moved hx
  have hq := moved_queue hm hme
  have hk : ∃ timed, MpmcKind i timed .deq := by
    rcases hi with rfl | rfl
    · exact ⟨_, .deq d tmo⟩
    · exact ⟨_, .deqt d tmo⟩
  obtain ⟨timed, hk⟩ := hk
  have hd : opDir i.op = .deq := by rw [hk.op_eq, opDir_opOf]
  have hsp : isSpsc i = false := by cases hk <;> rfl
  have htimed : opTimed i.op = true → i = .mpmcDeqt d tmo := by rcases hi with rfl | rfl <;> simp [Instr.op]
  obtain ⟨hw, hothers, hsignalled, hwaited⟩ := moved_mpmcFrame hk hme hm
  refine ⟨Decidable.not_not.mp fun hne => ?_, hq.slots_kept hd, moved_restKept hm, moved_length hm, hothers, hsignalled,
    fun hne => (hwaited hne).imp_left htimed, (moved_owner hm).changed, hw.response, fun hne => ?_, hw.latches,
    fun hne => (hw.t1_changed hne).2.imp_left htimed, fun hne => (hw.deadline_changed hne).2.imp_left htimed⟩
  · simpa [hd] using (hq.wi_changed hne).1
  · rcases hne with hne | hne | hne
    · obtain ⟨-, ha, hs⟩ := hq.ri_changed hne
      exact ⟨(hs.resolve_left (by simp [hsp])).2, ha⟩
    · exact hq.size_changed hne
    · exact (hw.rspData_changed hne).2

end Sys2Proof.Machine
end

section
/-! SUPPORT. The books of one port along a run (R90, R299): what its host has been told, with what is still owed to it, is what
was owed at the start, with what has fallen due since. `Ledger` is that balance for one step, and `Ledger.ended` for a run
between two states in which the port is `IDLE`; the commands and, in both directions, the elements are three ledgers. -/

namespace Sys2Proof.Machine

/-! ### What is collected along a run -/

/-- What `f` reads off the states from which the next `k` steps are taken, in order. -/
def State.collect {α : Type} (f : State → Option α) : Nat → State → List α
  | 0, _ => []
  | k + 1, s =>
    match step s with
    | .next t => (f s).toList ++ State.collect f k t
    | .fault _ => []
    | .refused _ => []

theorem collect_succ {α : Type} (f : State → Option α) (k : Nat) {s t : State} (h : step s = .next t) :
    State.collect f (k + 1) s = (f s).toList ++ State.collect f k t := by
  simp only [State.collect, h]

theorem commandsIssued_eq_collect (p k : Nat) (s : State) :
    State.commandsIssued p k s = State.collect (fun u => u.issuedAt p) k s := by
  induction k generalizing s with
  | zero => rfl
  | succ k ih =>
    unfold State.commandsIssued State.collect
    split <;> simp [*]

/-- The element that crosses into the queue, or out of it, at the next step (R70). -/
def State.crossing (d : Dir) (s : State) : Option Nat :=
  match d with
  | .enq => s.entering
  | .deq => s.leaving

theorem entered_left_eq_collect {k : Nat} {s t : State} (h : Sys2Proof.core.run k s = .next t) :
    State.entered k s = State.collect (State.crossing .enq) k s ∧
      State.left k s = State.collect (State.crossing .deq) k s := by
  induction k generalizing s with
  | zero => exact ⟨rfl, rfl⟩
  | succ k ih =>
    obtain ⟨u, hs, hu, hen, hle, _⟩ := run_succ h
    obtain ⟨he, hl⟩ := ih hu
    exact ⟨by rw [hen, he, collect_succ _ k hs]; rfl, by rw [hle, hl, collect_succ _ k hs]; rfl⟩

/-! ### The command of a port -/

/-- The command `c` is the one in flight at port `p`, as far as a response tells: an SPSC port latches no timeout (R123). -/
def InHand (s : State) (p : Nat) (c : Command) : Prop :=
  (s.portAt p).st ≠ .idle → c.op = (s.portAt p).op ∧ c.data = (s.portAt p).data

/-- The operation code and the element of a record change only where an idle port takes an `ISSUE`. -/
theorem own_op_data {i : Instr} {s : State} {q : Port} (h : Own i s q) (hq : q.st ≠ .idle) :
    ((∃ cw, s.sel.act = .issue cw) ∧ s.cur.st = .idle ∧ q.op = i.op ∧ q.data = i.data) ∨
      (s.cur.st ≠ .idle ∧ q.op = s.cur.op ∧ q.data = s.cur.data) := by
  rcases own_op h hq with ⟨⟨cw, ha⟩, hs, hop⟩ | ⟨hs, hop⟩
  · refine .inl ⟨⟨cw, ha⟩, hs, hop, ?_⟩
    cases h
    case stall hg => exact absurd hs (hg.issue cw ha)
    case issue | issueIllegal => exact latch_data _ _ _ _ _ _ _
    all_goals simp_all  -- turns that are no `ISSUE`
  · refine .inr ⟨hs, hop, ?_⟩
    cases h
    case issue | issueIllegal => exact absurd ‹_› hs
    all_goals rfl

theorem issuedAt_of_not_issue {s : State} {p : Nat} (h : ∀ cw, s.nextEvent ≠ .turn p (.issue cw)) : s.issuedAt p = none :=
  Option.eq_none_iff_forall_ne_some.mpr fun _ hc =>
    have ⟨cw, he, _⟩ := issuedAt_eq_some hc
    h cw he

theorem resultAt_of_not_accept {s : State} {p : Nat} {c : Command}
    (h : s.nextEvent = .turn p .accept → (s.portAt p).st ≠ .done) : s.resultAt p c = none :=
  Option.eq_none_iff_forall_ne_some.mpr fun _ hr =>
    have ⟨he, hs, _⟩ := resultAt_eq_some hr
    h he hs

theorem resultAt_isSome {s : State} {p : Nat} (c : Command) (he : s.nextEvent = .turn p .accept)
    (hs : (s.portAt p).st = .done) : ∃ r, s.resultAt p c = some r ∧ r.command = c := by
  simp [State.resultAt, he, State.rspValid, hs]

theorem step_inHand {s t : State} {p : Nat} {c : Command} (hI : s.Inv) (h : step s = .next t) (hc : InHand s p c) :
    InHand t p ((s.issuedAt p).getD c) := by
  have hkeep : (s.portAt p).st ≠ .idle → ((s.issuedAt p).getD c).op = (s.portAt p).op ∧
      ((s.issuedAt p).getD c).data = (s.portAt p).data := by
    intro hs
    rw [issuedAt_of_not_idle hs]
    exact hc hs
  have hport := step_port hI h p
  unfold InHand
  generalize t.portAt p = q at hport ⊢
  intro hq
  cases hport with
  | keep _ => exact hkeep hq
  | reset _ _ => exact absurd rfl hq
  | wake _ hs => exact hkeep (by simp [hs])
  | turn a i he hd _ hown =>
    rcases own_op_data hown hq with ⟨⟨cw, rfl⟩, hs, hop, hdata⟩ | ⟨hs, hop, hdata⟩
    · rw [issuedAt_of_issue he hs hd, hop, hdata]
      exact ⟨rfl, rfl⟩
    · rw [hop, hdata]
      exact hkeep hs

/-! ### Ledgers -/

/-- At every step, what the entry of port `p` tells and what is owed to the port after it are what was owed before and what
falls due at the step; nothing is owed to an idle port. -/
structure Ledger {α : Type} (p : Nat) (tells : Result → Option α) (owed : State → Command → Option α)
    (due : State → Option α) : Prop where
  balance : ∀ {s t : State} {c : Command}, s.Inv → InHand s p c → step s = .next t →
    ((s.resultAt p c).bind tells).toList ++ (owed t ((s.issuedAt p).getD c)).toList = (owed s c).toList ++ (due s).toList
  idle : ∀ (s : State) (c : Command), (s.portAt p).st = .idle → owed s c = none

section
variable {α : Type} {p : Nat} {tells : Result → Option α} {owed : State → Command → Option α} {due : State → Option α}
  (L : Ledger p tells owed due)
include L

theorem Ledger.run {k : Nat} {s t : State} {c : Command} (hI : s.Inv) (hc : InHand s p c)
    (h : Sys2Proof.core.run k s = .next t) : ∃ c', (State.resultsAfter p c k s).filterMap tells ++ (owed t c').toList =
      (owed s c).toList ++ State.collect due k s := by
  induction k generalizing s c with
  | zero =>
    cases h
    exact ⟨c, by simp [State.collect]⟩
  | succ k ih =>
    obtain ⟨u, hs, hu, _⟩ := run_succ h
    obtain ⟨c', hrest⟩ := ih (inv_of_step hI hs) (step_inHand hI hs hc) hu
    refine ⟨c', ?_⟩
    have htold : (s.resultAt p c).toList.filterMap tells = ((s.resultAt p c).bind tells).toList := by
      cases s.resultAt p c <;> simp [List.filterMap_cons]
      cases tells _ <;> rfl
    rw [resultsAfter_succ p c k hs, collect_succ due k hs, List.filterMap_append, htold, List.append_assoc, hrest,
      ← List.append_assoc, L.balance hI hc hs, List.append_assoc]

/-- Between two states in which the port is idle, it is told exactly what fell due. -/
theorem Ledger.ended {k : Nat} {s t : State} (hI : s.Inv) (h : Sys2Proof.core.run k s = .next t)
    (hs : (s.portAt p).st = .idle) (ht : (t.portAt p).st = .idle) :
    (s.results p k).filterMap tells = State.collect due k s := by
  obtain ⟨c', hrun⟩ := L.run (c := (s.portAt p).command) hI (fun hn => absurd hs hn) h
  simpa [State.results, L.idle s _ hs, L.idle t c' ht] using hrun

end

/-! ### Where a step stands in the life of a port's command -/

/-- A step leaves port `p` idle or not as it was, or begins its next command, or ends it; `q` is the record after it. -/
inductive Phase (s : State) (p : Nat) (q : Port) : Prop where
  | inside (hissue : ∀ cw, s.nextEvent = .turn p (.issue cw) → (s.portAt p).st ≠ .idle)
      (haccept : s.nextEvent = .turn p .accept → (s.portAt p).st ≠ .done)
      (hidle : q.st = .idle ↔ (s.portAt p).st = .idle)
  | begins (cw : Nat) (i : Instr) (he : s.nextEvent = .turn p (.issue cw)) (hd : decode s.cfg p cw = .ok i)
      (hs : (s.portAt p).st = .idle) (hq : q.st ≠ .idle)
  | ends (he : s.nextEvent = .turn p .accept) (hs : (s.portAt p).st = .done) (hq : q.st = .idle)

/-- A step of a port is taken, and leaves it, neither in `IDLE`. -/
theorem own_move_not_idle {i : Instr} {s : State} {q : Port} (h : Own i s q) {alt : Bool} {k : Nat}
    (ha : s.sel.act = .move alt k) : q = s.cur ∨ (q.st ≠ .idle ∧ s.cur.st ≠ .idle) := by
  cases h
  case stall => exact .inl rfl
  case issue | issueIllegal | accept => simp_all  -- the host's moves
  case fail c alt k ha hf => exact .inr ⟨by simp, by cases hf <;> simp [*]⟩
  case succeed alt k ha hs => exact .inr ⟨by simp, by rcases hs with ⟨_, hs⟩ | ⟨_, hs⟩ <;> simp [hs]⟩
  case go st alt k ha hg => exact .inr ⟨by cases hg <;> simp, by cases hg <;> simp [*]⟩
  case grant | elapsed => exact .inr (by simp [*])
  case read alt k v st ha hd hs hst hv =>
    exact .inr ⟨by rcases hst with ⟨_, rfl⟩ | ⟨_, rfl⟩ <;> simp, by simp [hs]⟩

theorem turn_phase {s : State} {p : Nat} {a : Act} {i : Instr} {q : Port} (he : s.nextEvent = .turn p a)
    (hd : decode s.cfg p (s.takeEvent.withTurn p a).commandWord = .ok i) (h : Own i (s.takeEvent.withTurn p a) q) :
    Phase s p q := by
  cases a with
  | issue cw =>
    by_cases hs : (s.portAt p).st = .idle
    · refine .begins cw i he hd hs ?_
      cases h
      case stall hg => exact absurd hs (hg.issue cw rfl)
      case issue hf => rcases firstState_cases hf with rfl | rfl | rfl <;> simp
      case issueIllegal => simp
      all_goals simp_all  -- turns that are no `ISSUE`
    · refine .inside (fun _ _ => hs) (fun e => by simp [he] at e) ?_
      cases h
      case stall => exact Iff.rfl
      case issue hs' _ | issueIllegal hs' _ => exact absurd hs' hs
      all_goals simp_all
  | accept =>
    by_cases hs : (s.portAt p).st = .done
    · refine .ends he hs ?_
      cases h
      case stall hg => exact absurd hs (hg.accept rfl)
      case accept => rfl
      all_goals simp_all  -- turns that are no `ACCEPT`
    · refine .inside (fun cw e => by simp [he] at e) (fun _ => hs) ?_
      rcases own_accept h rfl with rfl | ⟨hs', _⟩
      · exact Iff.rfl
      · exact absurd hs' hs
  | move alt k =>
    refine .inside (fun cw e => by simp [he] at e) (fun e => by simp [he] at e) ?_
    rcases own_move_not_idle h rfl with rfl | ⟨hq, hs⟩
    · exact Iff.rfl
    · exact iff_of_false hq hs

theorem step_phase {s t : State} (hI : s.Inv) (h : step s = .next t) (p : Nat) : Phase s p (t.portAt p) := by
  have hport := step_port hI h p
  generalize t.portAt p = q at hport
  cases hport with
  | keep he => exact .inside (fun cw e => absurd e (he _)) (fun e => absurd e (he _)) Iff.rfl
  | reset he hs => exact .inside (by simp [he]) (by simp [he]) (by simp [hs])
  | wake he hs => exact .inside (fun cw e => absurd e (he _)) (fun e => absurd e (he _)) (by simp [hs])
  | turn a i he hd _ hown => exact turn_phase he hd hown

/-! ### The commands (R90, R299) -/

/-- The command of port `p`, as long as the port is not idle. -/
def commandOwed (p : Nat) (s : State) (c : Command) : Option Command := if (s.portAt p).st = .idle then none else some c

theorem commandLedger (p : Nat) : Ledger p (fun r => some r.command) (commandOwed p) (fun s => s.issuedAt p) := by
  refine ⟨fun {s t c} hI hc h => ?_, fun s c hs => if_pos hs⟩
  cases step_phase hI h p with
  | inside hissue haccept hidle =>
    have hnone : s.issuedAt p = none := by
      by_cases hs : (s.portAt p).st = .idle
      · exact issuedAt_of_not_issue fun cw he => hissue cw he hs
      · exact issuedAt_of_not_idle hs
    simp [hnone, resultAt_of_not_accept haccept, commandOwed, hidle]
  | begins cw i he hd hs hq =>
    have hnone : s.resultAt p c = none := resultAt_of_not_accept (by simp [hs])
    simp [issuedAt_of_issue he hs hd, hnone, commandOwed, hq, hs]
  | ends he hs hq =>
    have hnone : s.issuedAt p = none := issuedAt_of_not_idle (by simp [hs])
    obtain ⟨r, hr, hcmd⟩ := resultAt_isSome c he hs
    simp [hnone, hr, hcmd, commandOwed, hq, hs]

end Sys2Proof.Machine
end

section
/-! SUPPORT. The observable result of an ended run (R299, R300): the elements a port's host has handed in or out are those that
crossed at the port's own transfers (R70), and over all ports these are the elements that crossed at all. -/

namespace Sys2Proof.Machine

/-! ### The element of a port's command -/

/-- The command has transferred its element and its response has not been accepted yet (R70, R126, R130, R166, R167). -/
def Port.transferred (q : Port) : Bool := q.st == .rel || q.st == .sig || (q.st == .done && q.rspOk)

/-- The element that the port's command has moved in direction `d`, as long as the command is not over. -/
def Port.element (d : Dir) (q : Port) : Option Nat :=
  if q.transferred = true ∧ opDir q.op = d then
    match d with
    | .enq => some q.data
    | .deq => some q.rspData
  else none

/-- The element that an entry says was moved in direction `d`. -/
def Result.element : Dir → Result → Option Nat
  | .enq => fun r => if r.ok && opDir r.command.op == .enq then some r.command.data else none
  | .deq => fun r => r.data

theorem element_of_not_transferred (d : Dir) {q : Port} (h : q.transferred = false) : q.element d = none := by
  simp [Port.element, h]

theorem transferred_of_idle {q : Port} (h : q.st = .idle) : q.transferred = false := by
  simp [Port.transferred, h]

/-- An entry tells of the element in the latches. -/
theorem resultAt_element {s : State} {p : Nat} {c : Command} {r : Result} (hc : InHand s p c) (h : s.resultAt p c = some r)
    (d : Dir) : r.element d = (s.portAt p).element d := by
  obtain ⟨_, hs, hcmd, hok, _, hdata⟩ := resultAt_eq_some h
  obtain ⟨hop, hd⟩ := hc (by simp [hs])
  cases d
  case enq => simp [Result.element, Port.element, Port.transferred, hs, hcmd, hok, hop, hd]
  case deq => simp [Result.element, Port.element, Port.transferred, hs, hdata, Port.carriesElement]

/-! ### The element that crosses at a turn -/

/-- `State.crossing`, read off the state in which the turn is taken. -/
def State.crossesNow (d : Dir) (s : State) : Option Nat :=
  match d with
  | .enq => s.entersNow
  | .deq => s.leavesNow

/-- The variant whose commands are SPSC ones (R98). -/
theorem variant_of_isSpsc {i : Instr} {s : State} (hc : Coherent i s) (hi : isSpsc i = true) : s.cfg.variant = .spsc := by
  cases hv : s.cfg.variant
  · rfl
  · simp [(kind_variant hc).2 hv] at hi

theorem variant_of_isMpmc {i : Instr} {s : State} (hc : Coherent i s) (hi : isMpmc i = true) : s.cfg.variant = .mpmc := by
  cases hv : s.cfg.variant
  · simp [(kind_variant hc).1 hv] at hi
  · rfl

section
variable {i : Instr} {s : State} (hI : s.Inv) (hc : Coherent i s)
include hI hc

theorem crossesNow_of_not_transfers (d : Dir) (hn : ∀ alt k, s.sel.act = .move alt k → transfers i s.cur.st = false) :
    s.crossesNow d = none := by
  obtain ⟨hen, hle⟩ := entersNow_leavesNow_of_not_transfers hI hc hn
  cases d
  · exact hen
  · exact hle

/-- `P_ADV` and `C_ADV`: the element in the latches crosses, in the direction of the command (R126, R130). -/
theorem advance_crosses {alt : Bool} {k : Nat} (ha : s.sel.act = .move alt k) (hi : isSpsc i = true)
    (hs : s.cur.st = .adv) (d : Dir) : s.crossesNow d = (s.cur.completed true .none).element d := by
  have hv := variant_of_isSpsc hc hi
  obtain ⟨hP, hC⟩ := spsc_port_of_dir (hI.spsc hv) hc (by simp [ha]) (by simp [Port.inFlight, hs])
  rw [hc.op_eq (by simp [ha])] at hP hC
  cases hd : opDir s.cur.op
  case enq =>
    cases d <;> simp [State.crossesNow, entersNow_spsc ha hv, leavesNow_spsc ha hv, hs, hP hd, Port.element,
      Port.transferred, hd, portP, portC]
  case deq =>
    cases d <;> simp [State.crossesNow, entersNow_spsc ha hv, leavesNow_spsc ha hv, hs, hC hd, Port.element,
      Port.transferred, hd, portP, portC]

omit hI in
/-- `DO_ENQ`: the latched element goes in (R166). -/
theorem doEnq_crosses {alt : Bool} {k : Nat} (ha : s.sel.act = .move alt k) (hi : isMpmc i = true)
    (hd : opDir i.op = .enq) (hs : s.cur.st = .xfer) (d : Dir) :
    s.crossesNow d = ({ s.cur with st := .rel } : Port).element d := by
  have hv := variant_of_isMpmc hc hi
  rw [hc.op_eq (by simp [ha])] at hd
  cases d <;> simp [State.crossesNow, entersNow_mpmc ha hv, leavesNow_mpmc ha hv, hs, hd, Port.element, Port.transferred]

omit hI in
/-- `DO_DEQ`: the element of slot `ri` goes out (R167). -/
theorem doDeq_crosses {alt : Bool} {k v : Nat} (ha : s.sel.act = .move alt k) (hi : isMpmc i = true)
    (hd : opDir i.op = .deq) (hs : s.cur.st = .xfer) (hv : slotAt s.storage s.ri = some v) (d : Dir) :
    s.crossesNow d = ({ s.cur with rspData := v, st := .rel } : Port).element d := by
  have hvar := variant_of_isMpmc hc hi
  rw [hc.op_eq (by simp [ha])] at hd
  cases d <;>
    simp [State.crossesNow, entersNow_mpmc ha hvar, leavesNow_mpmc ha hvar, hs, hd, hv, Port.element, Port.transferred]

/-- What a turn that ends no command does to the element of its port: it is moved when it crosses, and then kept. -/
theorem own_element {q : Port} (h : Own i s q) (hacc : s.sel.act = .accept → s.cur.st ≠ .done) (d : Dir) :
    (q.element d).toList = (s.cur.element d).toList ++ (s.crossesNow d).toList := by
  have hquiet : q.element d = s.cur.element d →
      (∀ alt k, s.sel.act = .move alt k → transfers i s.cur.st = false) →
      (q.element d).toList = (s.cur.element d).toList ++ (s.crossesNow d).toList := fun hq hn => by
    simp [hq, crossesNow_of_not_transfers hI hc d hn]
  have hbefore : q.transferred = false → s.cur.transferred = false → q.element d = s.cur.element d := fun hq hs => by
    rw [element_of_not_transferred d hq, element_of_not_transferred d hs]
  have hcross : s.cur.transferred = false → s.crossesNow d = q.element d →
      (q.element d).toList = (s.cur.element d).toList ++ (s.crossesNow d).toList := fun hs he => by
    simp [element_of_not_transferred d hs, he]
  cases h
  case stall hg => exact hquiet rfl fun alt k ha => transfers_of_unguarded (hg.move alt k ha)
  case issue cw st ha hs hf =>
    refine hquiet (hbefore ?_ (transferred_of_idle hs)) (by simp [ha])
    rcases firstState_cases hf with rfl | rfl | rfl <;> rfl
  case issueIllegal cw ha hs hf => exact hquiet (hbefore rfl (transferred_of_idle hs)) (by simp [ha])
  case accept ha hs => exact absurd hs (hacc ha)
  case fail c alt k ha hf =>
    refine hquiet (hbefore rfl ?_) fun _ _ _ => ?_
    · cases hf <;> simp [Port.transferred, *]
    · obtain ⟨hx, hadv, -⟩ := st_of_fails hf
      simp [transfers, hx, hadv]
  case succeed alt k ha hs =>
    rcases hs with ⟨hi, hs⟩ | ⟨hi, hs⟩
    · exact hcross (by simp [Port.transferred, hs]) (advance_crosses hI hc ha hi hs d)
    · exact hquiet (by simp [Port.element, Port.transferred, hs]) fun _ _ _ => by simp [transfers, hs]
  case go st alt k ha hg =>
    cases hg
    case enq hi hd hs => exact hcross (by simp [Port.transferred, hs]) (doEnq_crosses hc ha hi hd hs d)
    case unlock hi hs =>
      exact hquiet (by simp [Port.element, Port.transferred, hs]) fun _ _ _ => by simp [transfers, hs]
    case write hi hd hs =>
      exact hquiet (hbefore rfl (by simp [Port.transferred, hs])) fun _ _ _ => by
        simp [transfers, hs, isMpmc_of_isSpsc hi]
    all_goals exact hquiet (hbefore rfl (by simp [Port.transferred, *])) fun _ _ _ => by simp [transfers, *]
  case grant k ha hi ht hs hg =>
    exact hquiet (hbefore rfl (by simp [Port.transferred, hs])) fun _ _ _ => by simp [transfers, hs]
  case elapsed alt k ha hi ht hs hg =>
    exact hquiet (hbefore rfl (by simp [Port.transferred, hs])) fun _ _ _ => by simp [transfers, hs]
  case read alt k v st ha hd hs hst hv =>
    rcases hst with ⟨hi, rfl⟩ | ⟨hi, rfl⟩
    · exact hquiet (hbefore rfl (by simp [Port.transferred, hs])) fun _ _ _ => by
        simp [transfers, hs, isMpmc_of_isSpsc hi]
    · exact hcross (by simp [Port.transferred, hs]) (doDeq_crosses hc ha hi hd hs hv d)

end

/-! ### The element that crosses at a step -/

/-- The element that crosses at the next step, if that is a turn of port `p`. -/
def State.crossingAt (p : Nat) (d : Dir) (s : State) : Option Nat :=
  match s.nextEvent with
  | .turn r _ => if r = p then s.crossing d else none
  | _ => none

theorem crossingAt_of_not_turn {s : State} {p : Nat} (d : Dir) (h : ∀ a, s.nextEvent ≠ .turn p a) :
    s.crossingAt p d = none := by
  cases he : s.nextEvent with
  | turn r a =>
    have hr : r ≠ p := fun e => h a (e ▸ he)
    simp only [State.crossingAt, he, if_neg hr]
  | tick | reset => simp only [State.crossingAt, he]

theorem crossing_of_turn {s : State} {p : Nat} {a : Act} (he : s.nextEvent = .turn p a) (d : Dir) :
    s.crossing d = (s.takeEvent.withTurn p a).crossesNow d := by
  cases d
  · exact entering_of_turn he
  · exact leaving_of_turn he

theorem crossingAt_of_turn {s : State} {p r : Nat} {a : Act} (he : s.nextEvent = .turn r a) (d : Dir) :
    s.crossingAt p d = if r = p then s.crossing d else none := by
  simp only [State.crossingAt, he]

theorem crossing_of_not_turn {s : State} (d : Dir) (h : ∀ r a, s.nextEvent ≠ .turn r a) : s.crossing d = none := by
  cases d <;> simp only [State.crossing, State.entering, State.leaving] <;> split <;> simp_all

/-- What a step that ends no command of port `p` does to its element. -/
theorem step_element {s t : State} (hI : s.Inv) (h : step s = .next t) {p : Nat}
    (hacc : s.nextEvent = .turn p .accept → (s.portAt p).st ≠ .done) (d : Dir) :
    ((t.portAt p).element d).toList = ((s.portAt p).element d).toList ++ (s.crossingAt p d).toList := by
  have hport := step_port hI h p
  generalize t.portAt p = q at hport
  cases hport with
  | keep he => simp [crossingAt_of_not_turn d he]
  | reset he hs =>
    have hcross : s.crossingAt p d = none := crossingAt_of_not_turn d (by simp [he])
    simp [hcross, element_of_not_transferred d (transferred_of_idle hs),
      element_of_not_transferred d (transferred_of_idle Port.reset_st)]
  | wake he hs => simp [crossingAt_of_not_turn d he, Port.element, Port.transferred, hs]
  | turn a i he hd _ hown =>
    obtain ⟨hI', hc⟩ := turn_coherent hI hd
    rw [crossingAt_of_turn he, if_pos rfl, crossing_of_turn he]
    exact own_element hI' hc hown (fun ha => hacc (he.trans (congrArg _ ha))) d

theorem elementLedger (p : Nat) (d : Dir) :
    Ledger p (Result.element d) (fun s _ => (s.portAt p).element d) (State.crossingAt p d) := by
  refine ⟨fun {s t c} hI hc h => ?_, fun s c hs => element_of_not_transferred d (transferred_of_idle hs)⟩
  cases step_phase hI h p with
  | inside _ haccept _ => simpa [resultAt_of_not_accept haccept] using step_element hI h haccept d
  | begins cw i he hd hs hq =>
    have haccept : s.nextEvent = .turn p .accept → (s.portAt p).st ≠ .done := by simp [hs]
    simpa [resultAt_of_not_accept haccept] using step_element hI h haccept d
  | ends he hs hq =>
    obtain ⟨r, hr, -⟩ := resultAt_isSome c he hs
    have hcross : s.crossing d = none := by cases d <;> simp [State.crossing, State.entering, State.leaving, he]
    simp [hr, resultAt_element hc hr d, element_of_not_transferred d (transferred_of_idle hq), crossingAt_of_turn he, hcross]

/-! ### All ports together -/

theorem flatMap_range_single {α : Type} (l : List α) (r n : Nat) :
    ((List.range n).flatMap fun p => if r = p then l else []) = if r < n then l else [] := by
  induction n with
  | zero => rfl
  | succ n ih =>
    rw [List.range_succ, List.flatMap_append, ih]
    by_cases hr : r = n
    · simp [hr]
    · by_cases hlt : r < n
      · simp [hr, hlt, Nat.lt_succ_of_lt hlt]
      · simp [hr, hlt, show ¬ r < n + 1 by omega]

/-- What crosses at a step crosses at one port. -/
theorem crossing_eq_flatMap {s t : State} (h : step s = .next t) (d : Dir) :
    ((List.range s.cfg.numPorts).flatMap fun p => (s.crossingAt p d).toList) = (s.crossing d).toList := by
  rcases (step_next h).2 with ⟨he, _⟩ | ⟨he, _⟩ | ⟨r, a, i, he, hd, _⟩
  · simp [crossingAt_of_not_turn, crossing_of_not_turn, he]
  · simp [crossingAt_of_not_turn, crossing_of_not_turn, he]
  · have hsplit : ∀ p, (s.crossingAt p d).toList = if r = p then (s.crossing d).toList else [] := fun p => by
      rw [crossingAt_of_turn he]
      split <;> rfl
    rw [funext hsplit, flatMap_range_single, if_pos (decode_ok hd).1]

/-- The two parts of every image of a list, collected apart, are the images collected whole. -/
theorem flatMap_append_flatMap_perm {α β : Type} (l : List α) (f g : α → List β) :
    (l.flatMap f ++ l.flatMap g).Perm (l.flatMap fun x => f x ++ g x) := by
  induction l with
  | nil => exact .refl _
  | cons x l ih =>
    simp only [List.flatMap_cons, List.append_assoc]
    refine .append_left (f x) ?_
    calc (l.flatMap f ++ (g x ++ l.flatMap g)).Perm (g x ++ (l.flatMap f ++ l.flatMap g)) :=
          List.perm_append_comm_assoc _ _ _
      List.Perm _ (g x ++ l.flatMap fun y => f y ++ g y) := ih.append_left (g x)

/-- What crosses in a run is, as a collection, what crosses at each of the ports. -/
theorem collect_crossing_perm {k : Nat} {s t : State} (h : Sys2Proof.core.run k s = .next t) (d : Dir) :
    ((List.range s.cfg.numPorts).flatMap fun p => State.collect (State.crossingAt p d) k s).Perm
      (State.collect (State.crossing d) k s) := by
  induction k generalizing s with
  | zero => simp [State.collect]
  | succ k ih =>
    obtain ⟨u, hs, hu, _⟩ := run_succ h
    have hrest := ih hu
    rw [step_cfg hs] at hrest
    rw [collect_succ _ k hs, ← crossing_eq_flatMap hs d]
    simp only [collect_succ _ k hs]
    exact (flatMap_append_flatMap_perm _ _ _).symm.trans (hrest.append_left _)

/-- The one port of an SPSC machine at which elements cross in direction `d` (R70). -/
def spscPort : Dir → Nat
  | .enq => portP
  | .deq => portC

theorem crossing_spsc {s : State} (hv : s.cfg.variant = .spsc) (d : Dir) : s.crossingAt (spscPort d) d = s.crossing d := by
  cases he : s.nextEvent with
  | tick => rw [crossingAt_of_not_turn d (by simp [he]), crossing_of_not_turn d (by simp [he])]
  | reset => rw [crossingAt_of_not_turn d (by simp [he]), crossing_of_not_turn d (by simp [he])]
  | turn r a =>
    rw [crossingAt_of_turn he]
    split
    · rfl
    · rename_i hr
      cases a <;> cases d <;> simp_all [State.crossing, State.entering, State.leaving, spscPort]

theorem collect_crossing_spsc {k : Nat} {s t : State} (hv : s.cfg.variant = .spsc)
    (h : Sys2Proof.core.run k s = .next t) (d : Dir) :
    State.collect (State.crossingAt (spscPort d) d) k s = State.collect (State.crossing d) k s := by
  induction k generalizing s with
  | zero => rfl
  | succ k ih =>
    obtain ⟨u, hs, hu, _⟩ := run_succ h
    rw [collect_succ _ k hs, collect_succ _ k hs, crossing_spsc hv, ih (step_cfg hs ▸ hv) hu]

/-! ### The observable result -/

theorem filterMap_element_enq (rs : List Result) : rs.filterMap (Result.element .enq) = enqueued rs := rfl

theorem filterMap_element_deq (rs : List Result) : rs.filterMap (Result.element .deq) = dequeued rs := rfl

section
variable {k : Nat} {s t : State} (hI : s.Inv) (hs : s.runEnded) (h : Sys2Proof.core.run k s = .next t) (ht : t.runEnded)
include hI hs h ht

/-- Of a port's entries, the elements in one direction are those that crossed at the port. -/
theorem results_elements (p : Nat) (d : Dir) :
    (s.results p k).filterMap (Result.element d) = State.collect (State.crossingAt p d) k s :=
  (elementLedger p d).ended hI h (idle_of_all_idle hs.1 p) (idle_of_all_idle ht.1 p)

/-- Of a port's entries, the commands are those issued at the port. -/
theorem results_commands (p : Nat) : (s.results p k).map (fun r => r.command) = State.commandsIssued p k s := by
  rw [commandsIssued_eq_collect, ← (commandLedger p).ended hI h (idle_of_all_idle hs.1 p) (idle_of_all_idle ht.1 p)]
  exact (congrFun List.filterMap_eq_map' _).symm

/-- Over all ports, the elements in one direction are those that crossed. -/
theorem results_elements_perm (d : Dir) :
    (((List.range s.cfg.numPorts).map fun p => s.results p k).flatten.filterMap (Result.element d)).Perm
      (State.collect (State.crossing d) k s) := by
  have hports : ((List.range s.cfg.numPorts).map fun p => s.results p k).flatten.filterMap (Result.element d) =
      (List.range s.cfg.numPorts).flatMap fun p => State.collect (State.crossingAt p d) k s := by
    rw [List.filterMap_flatten, List.map_map, List.flatMap_def]
    exact congrArg List.flatten (List.map_congr_left fun p _ => results_elements hI hs h ht p d)
  rw [hports]
  exact collect_crossing_perm h d

end

/-- Settles O60: each port's books balance over the run, and what crossed in it is what `fifo` says of the contents. -/
theorem observableOfEndedRun : Obligations.ObservableOfEndedRun := by
  intro k s o hI hs hn ho
  obtain ⟨t, hrun, ht, hsize, hcontents, hresults⟩ := observable_eq_some ho
  have hget : ∀ p, p < s.cfg.numPorts → o.results.getD p [] = s.results p k := fun p hp => by simp [hresults, hp]
  have hfifo := fifo k s t hI hn hrun
  obtain ⟨hen, hle⟩ := entered_left_eq_collect hrun
  rw [hen, hle] at hfifo
  refine ⟨by simp [hresults], fun p hp => by rw [hget p hp, results_commands hI hs hrun ht], ?_, ?_, fun hv => ?_⟩
  · rw [hsize, hcontents, length_contents (run_inv hI hn hrun)]
  · rw [hresults, hcontents]
    have hin := (results_elements_perm hI hs hrun ht .enq).append_left s.contents
    have hout := (results_elements_perm hI hs hrun ht .deq).append_right t.contents
    exact hin.trans (hfifo ▸ hout.symm)
  · have hnum : s.cfg.numPorts = 2 := by simp [Config.numPorts, hv]
    rw [hget portP (by rw [hnum]; decide), hget portC (by rw [hnum]; decide), hcontents, ← filterMap_element_enq,
      ← filterMap_element_deq, results_elements hI hs hrun ht, results_elements hI hs hrun ht]
    rw [show portP = spscPort .enq from rfl, show portC = spscPort .deq from rfl, collect_crossing_spsc hv hrun,
      collect_crossing_spsc hv hrun]
    exact hfifo

end Sys2Proof.Machine
end
